-- ==== Sys2Proof/Word.lean ====
section
/-! DEFINITION. The word, the byte and the bit-cell (R8, R11, R21): the types every other file speaks of. -/

namespace Sys2Proof

/-- An unsigned 32-bit word: a field of a cell, a command word, a word of the register window (R8, R11). -/
abbrev Word := BitVec 32

/-- A byte, used only where R61 needs a byte view of a word. -/
abbrev Byte := BitVec 8

/-- A bit-cell: period (ticks), pulse (ticks, the duty point) and repeat (hardware repeat count), R21. -/
structure BitCell where
  period : Word
  pulse : Word
  rep : Word
  deriving DecidableEq, Repr, Inhabited

/-- The cell `(0, 0, 0)`: what clearing and marking free write, and what the sentinel is written as (R88, R137). -/
def BitCell.zero : BitCell := ⟨0, 0, 0⟩

end Sys2Proof
end

