-- ==== Sys2Proof/Syntax.lean ====
section
/-! DEFINITION. The instructions: one constructor per row of the opcode table (R83, R87). -/

namespace Sys2Proof

/-- The idle policy of R31: what a packet boundary with no queued slot does. -/
inductive IdlePolicy where
  | disable
  | loop
  deriving DecidableEq, Repr, Inhabited

/-- The rows of the opcode table. The first four are command words; the last has no encoding and is started by the timer's
update event (R87). -/
inductive Instr where
  /-- `CONFIGURE`, format FC (R103). -/
  | configure (pol : IdlePolicy)
  /-- `LOAD_PATTERN`, format FL (R106): `n` cells from STAGE. -/
  | loadPattern (n : Nat)
  /-- `ENABLE_TRACK`, format F0 (R110). -/
  | enableTrack
  /-- `DISABLE_TRACK`, format F0 (R111). -/
  | disableTrack
  /-- `SCHED_STEP`, row of format EVENT (R130). -/
  | schedStep
  deriving DecidableEq, Repr, Inhabited

end Sys2Proof
end

