-- ==== Sys2Proof/WellFormed.lean ====
section
/-! DEFINITION. Which instructions a command word can hold (R81, R84, R87). -/

namespace Sys2Proof

/-- The operand fits its field: `N` has 7 bits, 0..127 (R84). Whether `N` is in 2..79 is no matter of form (R84). -/
def Instr.operandFits : Instr → Bool
  | .configure _ => true
  | .loadPattern n => decide (n < 128)
  | .enableTrack => true
  | .disableTrack => true
  | .schedStep => true

/-- The instruction has a command word: every row but the EVENT row (R87). -/
def Instr.hasWord : Instr → Bool
  | .configure _ => true
  | .loadPattern _ => true
  | .enableTrack => true
  | .disableTrack => true
  | .schedStep => false

/-- Well-formed as a row of the table. -/
def Instr.wf (i : Instr) : Bool := i.operandFits

/-- Well-formed as a command word. -/
def Instr.wfCommand (i : Instr) : Bool := i.operandFits && i.hasWord

end Sys2Proof
end

