-- ==== Sys2Proof/Decode.lean ====
section
/-! DEFINITION. The command decoder (R80 to R86), total on all words and on all byte strings, and the encoder. -/

namespace Sys2Proof

/-- Why a word or a byte string is no command. -/
inductive DecodeError where
  /-- `OP` is 0 or 5 to 15 (R83, R86). -/
  | unassignedOpcode
  /-- A reserved bit of the opcode's format is 1 (R81, R86). -/
  | reservedBits
  /-- Fewer bytes than the one command length, 32 bits (R80). -/
  | truncated
  deriving DecidableEq, Repr

/-- A field put at the bit where it begins, in a word of zeros. -/
def place {n : Nat} (v : BitVec n) (lsb : Nat) : Word := v.setWidth 32 <<< lsb

/-- The idle policy a `POL` bit stands for (R81). -/
def policyOfBit (b : Bool) : IdlePolicy := if b then .loop else .disable

/-- The `POL` bit of an idle policy (R31, R81). -/
def policyBit : IdlePolicy → BitVec 1
  | .disable => 0
  | .loop => 1

/-- `OP = w[3:0]` (R81). -/
def opField (w : Word) : BitVec 4 := w.extractLsb' 0 4

/-- `POL = w[4]` (R81, R84). -/
def polField (w : Word) : Bool := w.getLsbD 4

/-- `N = w[10:4]`, zero-extended, neither scaled nor shifted (R84). -/
def countField (w : Word) : Nat := (w.extractLsb' 4 7).toNat

/-- `decode(w)` of R85. -/
def decodeWord (w : Word) : Except DecodeError Instr :=
  if opField w = 0x1 then
    if w.extractLsb' 5 27 = 0 then .ok (.configure (policyOfBit (polField w))) else .error .reservedBits
  else if opField w = 0x2 then
    if w.extractLsb' 11 21 = 0 then .ok (.loadPattern (countField w)) else .error .reservedBits
  else if opField w = 0x3 then
    if w.extractLsb' 4 28 = 0 then .ok .enableTrack else .error .reservedBits
  else if opField w = 0x4 then
    if w.extractLsb' 4 28 = 0 then .ok .disableTrack else .error .reservedBits
  else .error .unassignedOpcode

/-- The word whose little-endian byte view the four bytes are (R61). -/
def wordOfBytes (b0 b1 b2 b3 : Byte) : Word := place b0 0 ||| place b1 8 ||| place b2 16 ||| place b3 24

/-- The little-endian byte view of a word: byte 0 is bits 7:0 (R61). -/
def bytesOfWord (w : Word) : List Byte :=
  [w.extractLsb' 0 8, w.extractLsb' 8 8, w.extractLsb' 16 8, w.extractLsb' 24 8]

/-- A command read from a byte string, with the bytes left over. There is one command length (R80). -/
def decodeBytes : List Byte → Except DecodeError (Instr × List Byte)
  | b0 :: b1 :: b2 :: b3 :: rest =>
    match decodeWord (wordOfBytes b0 b1 b2 b3) with
    | .ok i => .ok (i, rest)
    | .error e => .error e
  | _ => .error .truncated

/-- The instruction of a table row's bits: the word laid out in its byte order and given to the decoder. Bits above `nbits`
are 0; the table's rows have 32 bits, and a longer one is no command (R80). -/
def decodeTableWord (nbits w : Nat) : Option Instr :=
  if nbits ≤ 32 then
    match decodeBytes (bytesOfWord (BitVec.ofNat 32 (w % 2 ^ nbits))) with
    | .ok (i, _) => some i
    | .error _ => none
  else none

/-- The command word of an instruction (R82, R89): none for the EVENT row (R87) and for a count of more than 7 bits. -/
def encode : Instr → Option Word
  | .configure pol => some (place (policyBit pol) 4 ||| 0x1)
  | .loadPattern n => if n < 128 then some (place (BitVec.ofNat 7 n) 4 ||| 0x2) else none
  | .enableTrack => some 0x3
  | .disableTrack => some 0x4
  | .schedStep => none

/-- The table's match and mask of an instruction's row (R83): none for the EVENT row (R87). -/
def tableRow : Instr → Option (Word × Word)
  | .configure _ => some (0x00000001, 0xFFFFFFEF)
  | .loadPattern _ => some (0x00000002, 0xFFFFF80F)
  | .enableTrack => some (0x00000003, 0xFFFFFFFF)
  | .disableTrack => some (0x00000004, 0xFFFFFFFF)
  | .schedStep => none

end Sys2Proof
end

