-- ==== Sys2Proof/Machine/Memory.lean ====
section
/-! DEFINITION. A cell buffer as plain data in one canonical form, its operations, and the predicates of R13 on cells. -/

namespace Sys2Proof.Machine

/-- `is_sentinel(c)` of R13: period 0, whatever the other fields hold. -/
def isSentinel (c : BitCell) : Bool := c.period == 0

/-- `valid_cell(c)` of R13: period not 0 and pulse at most period, both unsigned. -/
def validCell (c : BitCell) : Bool := c.period != 0 && c.pulse.toNat ≤ c.period.toNat

/-- A cell buffer: (index, cell) pairs. An index that is not listed reads `(0, 0, 0)`, which is what reset leaves in the
slots and in STAGE (R22, R32) and in IDLE above its packet (R23). -/
abbrev Memory := List (Nat × BitCell)

/-- The cell at an index. -/
def Memory.read : Memory → Nat → BitCell
  | [], _ => BitCell.zero
  | (k, c) :: m, i => if k = i then c else Memory.read m i

/-- The buffer without the entries of one index. -/
def Memory.erase : Memory → Nat → Memory
  | [], _ => []
  | (k, c) :: m, i => if k = i then Memory.erase m i else (k, c) :: Memory.erase m i

/-- An entry put in front of the first entry of a larger index. -/
def Memory.insert : Memory → Nat → BitCell → Memory
  | [], i, v => [(i, v)]
  | (k, c) :: m, i, v => if i < k then (i, v) :: (k, c) :: m else (k, c) :: Memory.insert m i v

/-- `CELL(b, i) <- v` on one buffer (R12). Writing what an unlisted index reads as removes the entry. -/
def Memory.write (m : Memory) (i : Nat) (v : BitCell) : Memory :=
  if v = BitCell.zero then m.erase i else (m.erase i).insert i v

/-- `for i in 0..n-1: dst(i) <- src(i)`, the copy of R106. -/
def Memory.copy (src dst : Memory) : Nat → Memory
  | 0 => dst
  | n + 1 => (Memory.copy src dst n).write n (src.read n)

/-- The buffer that holds the cells of a list from index `i` on, and `(0, 0, 0)` elsewhere. -/
def Memory.ofCells : Nat → List BitCell → Memory
  | _, [] => []
  | i, c :: cs => if c = BitCell.zero then Memory.ofCells (i + 1) cs else (i, c) :: Memory.ofCells (i + 1) cs

/-- Every index of the list is at least `lo`, and they strictly rise. -/
def Memory.rising : Nat → Memory → Bool
  | _, [] => true
  | lo, (k, _) :: m => decide (lo ≤ k) && Memory.rising (k + 1) m

/-- The canonical form of a buffer of `cap` cells: indices strictly rising and below the capacity, and no entry equal to
what an unlisted index reads as. Two buffers in this form that hold the same cells are the same list. -/
def Memory.wf (cap : Nat) (m : Memory) : Bool :=
  m.rising 0 && m.all fun e => decide (e.1 < cap) && decide (e.2 ≠ BitCell.zero)

end Sys2Proof.Machine
end

