-- ==== Sys2Proof/Config.lean ====
section
/-! DEFINITION. What a platform fixes (the OPEN parameters of R9, and TIS_BASE of R50), and the free values. -/

namespace Sys2Proof

/-- `SLOT_CAP` (R8). -/
def slotCap : Nat := 80

/-- `IDLE_CAP` (R8). -/
def idleCap : Nat := 6

/-- `PREAMBLE_LEN` (R8), used by the host encoder only. -/
def preambleLen : Nat := 18

/-- `MAX_BYTES` (R8), used by the host encoder only. -/
def maxBytes : Nat := 6

/-- The OPEN parameters of R9 that are plain data, and the base address of R50. They are arguments of the model: State holds
them, and no step writes them. -/
structure Config where
  /-- `IDLE_CELLS`: the idle packet before its sentinel, 2 to 5 valid cells (D19). -/
  idleCells : List BitCell
  /-- `SCOPE_OFFSET` (D18). -/
  scopeOffset : Word
  /-- `ENABLE_FORCES_UPDATE` (R202, D27). -/
  enableForcesUpdate : Bool
  /-- `ASSUME_DEADLINE` (R201, D27). -/
  assumeDeadline : Bool
  /-- `TICKS_PER_US`, 1 to 2^32-1, for the host encoder (R160, D29). -/
  ticksPerUs : Nat
  /-- `ENC_REPEAT`, for the host encoder (R161, D32). -/
  encRepeat : Word
  /-- `TIS_BASE`: where the platform puts the register window (R50, D4). -/
  tisBase : Nat
  deriving DecidableEq, Repr, Inhabited

/-- The ranges of R9. -/
def Config.wf (c : Config) : Bool :=
  decide (2 ≤ c.idleCells.length) && decide (c.idleCells.length ≤ 5) && c.idleCells.all Machine.validCell &&
    decide (1 ≤ c.ticksPerUs) && decide (c.ticksPerUs < 2 ^ 32)

/-- The reference configuration `EX` of R10. Only examples and tests use it; R10 gives no base address, and 0 stands there. -/
def Config.ex : Config where
  idleCells := [⟨10, 5, 0⟩, ⟨20, 10, 0⟩]
  scopeOffset := 3
  enableForcesUpdate := true
  assumeDeadline := true
  ticksPerUs := 2
  encRepeat := 0
  tisBase := 0

/-- Free value: some parameters, nothing known of them (DESIGN CHOICE, log 1). -/
opaque Config.unknown : Config

/-- The platform's parameters: any that lie in the ranges of R9. Every such choice is the value of this constant for some
value of `Config.unknown`, so a claim about it is a claim about every platform (log 1). -/
def Config.platform : Config := if Config.unknown.wf then Config.unknown else Config.ex

/-- Free values: the timer's active cell where the spec leaves it unknown (R231, R248, U13, U14; log 2). -/
opaque Config.freeCell : Nat → BitCell

/-- `REPEAT_CYCLES(r)`, OPEN (R9, R204; log 1): how many PWM cycles a cell with repeat `r` lasts. -/
opaque Config.repeatCycles : Word → Nat

/-- The output polarity, OPEN (R204; log 1): the level before the first toggle of a PWM cycle. -/
opaque Config.polarity : Bool

/-- Free values: the wire level where R204 gives none (DESIGN CHOICE, log 13), of the counter of free values, the active cell
and the tick. -/
opaque Config.freeLevel : Nat → BitCell → Nat → Bool

end Sys2Proof
end

