-- ==== Sys2Proof/Machine/Idle.lean ====
section
/-! DEFINITION. The contents of the idle-packet buffer (R23), which reset and CONFIGURE build. -/

namespace Sys2Proof.Machine

/-- The contents of `IDLE`: `IDLE[i]` is `IDLE_CELLS[i]` for `i` below its length and `(0, 0, 0)` above, `i` in 0..5 (R23, R103). -/
def idleImage (cfg : Config) : Memory := Memory.ofCells 0 (cfg.idleCells.take idleCap)

end Sys2Proof.Machine
end

