-- ==== Sys2Proof/Machine/State.lean ====
section
/-! DEFINITION. The state of the block (R20), of its ports and of its environment, and the state after reset (R230). -/

namespace Sys2Proof.Machine

/-- The buffers the cursor can be in (R24): `CUR_BUF` 0, 1 and 2; the value 3 is never written (log 8). -/
inductive Buf where
  | slotA
  | slotB
  | idle
  deriving DecidableEq, Repr, Inhabited

/-- The two general-purpose slots (R22). -/
inductive Slot where
  | a
  | b
  deriving DecidableEq, Repr, Inhabited

/-- The result codes of R190, in their order; codes 5 to 7 are never written (log 9). -/
inductive ResultCode where
  | ok
  | bufferUnavailable
  | invalidLength
  | invalidCell
  | illegalCommand
  deriving DecidableEq, Repr, Inhabited

/-- The faults of R195, in the order of their bits in `FAULT`: the causes of `raise Fault`. `step` answers the halted state
R196 describes, and `outcome` the fault outcome of R12, for the same transition (log 3). -/
inductive Fault where
  /-- Raised by SCHED_STEP with the cursor on a sentinel (R132). Goes on in a halted state, as the spec says: safe. -/
  | sentinelProgrammed
  /-- Raised by SCHED_STEP when the advance would leave the buffer (R135). Goes on in a halted state, as the spec says: safe. -/
  | cursorOverrun
  /-- Raised by a reload boundary while an event is pending (R201). Goes on in a halted state, as the spec says: safe. -/
  | eventOverrun
  deriving DecidableEq, Repr, Inhabited

/-- Why a step has no meaning. -/
inductive Refusal where
  /-- Raised by exec for an instruction that has no meaning yet. Safe: the model stops where the hardware goes on. -/
  | notModelled (mnemonic : String)
  /-- Raised by a host access of another size than one 32-bit word (R57, R198). Safe: the spec has the model refuse it. -/
  | subWordAccess
  /-- Raised by a host access whose offset is no multiple of 4 (R58, R198). Safe: the spec has the model refuse it. -/
  | misalignedAccess
  /-- Raised by a host access to an unmapped offset (R59, R198). Safe: the spec has the model refuse it. -/
  | unmappedAccess
  deriving DecidableEq, Repr

/-- The sizes a bus master can ask for on `bus_size` (R57, R205); only `word` is accepted. -/
inductive AccessSize where
  | byte
  | half
  | word
  | burst
  deriving DecidableEq, Repr, Inhabited

/-- A host access: `MemRead(off, size)` or `MemWrite(off, size, data)` (R12), `off` being `bus_addr` (R205). -/
inductive Access where
  | read (off : BitVec 12) (size : AccessSize)
  | write (off : BitVec 12) (size : AccessSize) (data : Word)
  deriving DecidableEq, Repr

/-- Who moves: the three agents of R7, and the reset input of R205. -/
inductive Move where
  | sched
  | host
  | timer
  | rst
  deriving DecidableEq, Repr, Inhabited

/-- The whole state: plain data. -/
structure State where
  /-- The OPEN parameters (R9, R50); no step writes them (log 1). -/
  cfg : Config
  /-- `SLOT[A]` (R22). -/
  slotA : Memory
  /-- `SLOT[B]` (R22). -/
  slotB : Memory
  /-- `IDLE` (R23). -/
  idle : Memory
  /-- `STAGE` (R32). -/
  stage : Memory
  /-- `CUR_BUF` (R24). -/
  curBuf : Buf
  /-- `CUR_IDX` (R24). -/
  curIdx : BitVec 7
  /-- `SCOPE_CNT` (R26). -/
  scopeCnt : Word
  /-- `PKT_COMPLETE` (R27). -/
  pktComplete : Bool
  /-- `TRACK_EN` (R28). -/
  trackEn : Bool
  /-- `DBG_OUT` (R29). -/
  dbgOut : Bool
  /-- `EVT_PENDING` (R30). -/
  evtPending : Bool
  /-- `IDLE_POLICY` (R31). -/
  idlePolicy : IdlePolicy
  /-- `RESULT` (R33). -/
  result : ResultCode
  /-- `FAULT` (R34). -/
  fault : BitVec 3
  /-- `TMR_P` (R35). -/
  tmrP : Word
  /-- `TMR_Q` (R35). -/
  tmrQ : Word
  /-- `TMR_R` (R35). -/
  tmrR : Word
  /-- Port `tmr_wr` (R205): the last transition performed a TimerWrite. -/
  tmrWr : Bool
  /-- Port `bus_rdata` (R205): what the last completed read returned. -/
  busRdata : Word
  /-- `ACT`, the timer's active cell (R204); the environment's, not the block's (R38). -/
  act : BitCell
  /-- The host's accesses still to come, in its program order (R64; log 5). -/
  host : List Access
  /-- Who moves next, as the environment has it (R7, R206; log 5). -/
  agenda : List Move
  /-- The model's own: how many free values have been used (log 2). -/
  freeIdx : Nat
  deriving DecidableEq, Repr

/-- The state of R230 under given parameters, with a given active cell of the timer and a given count of used free values. -/
def State.resetWith (cfg : Config) (act : BitCell) (freeIdx : Nat) : State where
  cfg := cfg
  slotA := []
  slotB := []
  idle := idleImage cfg
  stage := []
  curBuf := .idle
  curIdx := 1
  scopeCnt := cfg.scopeOffset
  pktComplete := true
  trackEn := false
  dbgOut := false
  evtPending := false
  idlePolicy := .disable
  result := .ok
  fault := 0
  tmrP := ((idleImage cfg).read 0).period
  tmrQ := ((idleImage cfg).read 0).pulse
  tmrR := ((idleImage cfg).read 0).rep
  tmrWr := true
  busRdata := 0
  act := act
  host := []
  agenda := []
  freeIdx := freeIdx

/-- The machine right after reset (R230), on any platform (log 1), the timer's active cell unknown (R231; log 2). -/
def State.reset : State := State.resetWith Config.platform (Config.freeCell 0) 1

end Sys2Proof.Machine
end

