-- ==== Sys2Proof/Machine/Ops.lean ====
section
/-! DEFINITION. The named operations over the state: cells, cursor, timer port, track edges, faults, reset (R12, R196, R202, R203). -/

namespace Sys2Proof.Machine

/-- `cap(b)` of R13. -/
def Buf.cap : Buf → Nat
  | .slotA => slotCap
  | .slotB => slotCap
  | .idle => idleCap

/-- The buffer a slot is. -/
def Slot.buf : Slot → Buf
  | .a => .slotA
  | .b => .slotB

/-- The contents of a buffer. -/
def State.buffer (s : State) : Buf → Memory
  | .slotA => s.slotA
  | .slotB => s.slotB
  | .idle => s.idle

/-- `CELL(b, i)` of R12. -/
def State.cell (s : State) (b : Buf) (i : Nat) : BitCell := (s.buffer b).read i

/-- The cell at the cursor: the next cell to be loaded (R25). -/
def State.cursorCell (s : State) : BitCell := s.cell s.curBuf s.curIdx.toNat

/-- The preload registers of the timer, always equal to `(TMR_P, TMR_Q, TMR_R)` (R204). -/
def State.pre (s : State) : BitCell := ⟨s.tmrP, s.tmrQ, s.tmrR⟩

/-- New contents for one slot; the other keeps its own. Only slots are writable by rules (R12). -/
def State.setSlot (s : State) (sl : Slot) (m : Memory) : State :=
  { s with
    slotA := match sl with
      | .a => m
      | .b => s.slotA
    slotB := match sl with
      | .a => s.slotB
      | .b => m }

/-- `cur <- (b, i)` (R12). -/
def State.setCursor (s : State) (b : Buf) (i : BitVec 7) : State := { s with curBuf := b, curIdx := i }

/-- `result(code)` (R12, R190). -/
def State.setResult (s : State) (r : ResultCode) : State := { s with result := r }

/-- `TimerWrite(c.period, c.pulse, c.repeat)` with its latches `TMR_P`, `TMR_Q`, `TMR_R`, one transaction (R133, R203). It
changes the preload only: the active cell waits for a reload (R142, R242). -/
def State.timerWrite (s : State) (c : BitCell) : State :=
  { s with tmrP := c.period, tmrQ := c.pulse, tmrR := c.rep, tmrWr := true }

/-- `SCOPE_CNT <- SCOPE_OFFSET` (R139, R108). -/
def State.resetScope (s : State) : State := { s with scopeCnt := s.cfg.scopeOffset }

/-- `PKT_COMPLETE <- v` (R27). -/
def State.setComplete (s : State) (v : Bool) : State := { s with pktComplete := v }

/-- `TRACK_EN <- 0`: the falling edge gates the output and stops the timer; the preload and the active cell stay (R202). -/
def State.trackOff (s : State) : State := { s with trackEn := false }

/-- `EVT_PENDING <- 0` (R141): the return from the update event (R209). -/
def State.ackEvent (s : State) : State := { s with evtPending := false }

/-- `TRACK_EN <- 1`, with what a rising edge does (R202). With the bit already 1 nothing changes (R110). On a rising edge the
timer performs a reload and raises an event if `ENABLE_FORCES_UPDATE`; otherwise the active cell is unknown (R248, U14), a
free value, and no event is raised (log 2). -/
def State.trackOn (s : State) : State :=
  { s with
    trackEn := true
    evtPending := s.evtPending || (!s.trackEn && s.cfg.enableForcesUpdate)
    act := if s.trackEn then s.act else if s.cfg.enableForcesUpdate then s.pre else Config.freeCell s.freeIdx
    freeIdx := if s.trackEn || s.cfg.enableForcesUpdate then s.freeIdx else s.freeIdx + 1 }

/-- The bit of `FAULT` a cause sets (R195). -/
def Fault.bit : Fault → BitVec 3
  | .sentinelProgrammed => 1
  | .cursorOverrun => 2
  | .eventOverrun => 4

/-- `raise Fault(cause)` of R196: the sticky bit set, `TRACK_EN` and `EVT_PENDING` cleared, nothing else. The machine goes on
halted; that a transition raises is also its outcome, `State.raised` and `outcome` (R12; log 3). -/
def State.raiseFault (s : State) (f : Fault) : State :=
  { s with fault := s.fault ||| f.bit, trackEn := false, evtPending := false }

/-- The halt of R196: some fault bit is set. -/
def State.halted (s : State) : Bool := s.fault != 0

/-- `rst` (R230): every element of R20 takes its reset value, in one transition. The host's accesses and the order of moves
are outside the block and stay; the timer's active cell is unspecified (R231), a free value (log 2). What port `bus_rdata`
shows after `rst` the spec does not say: it keeps the last read's data (DESIGN CHOICE, log 4). -/
def State.resetBlock (s : State) : State :=
  { State.resetWith s.cfg (Config.freeCell s.freeIdx) (s.freeIdx + 1) with
    busRdata := s.busRdata, host := s.host, agenda := s.agenda }

end Sys2Proof.Machine
end

