-- ==== Sys2Proof/Machine/Flags.lean ====
section
/-! DEFINITION. What is computed from the state and not stored: the free bits, the roles, the scope trigger, STATUS
(R13, R36, R37, R54, R134, R145). -/

namespace Sys2Proof.Machine

/-- `is_free(s)` of R13: the slot's first cell is a sentinel. -/
def State.isFree (s : State) (sl : Slot) : Bool := isSentinel (s.cell sl.buf 0)

/-- `BUF_AVAIL` (R36), the source's `isPacketBufferAvailable()`. -/
def State.bufAvail (s : State) : Bool := s.isFree .a || s.isFree .b

/-- `active(s)` of R37. -/
def State.isActive (s : State) (sl : Slot) : Bool :=
  !s.isFree sl && decide (s.curBuf = sl.buf) && !s.pktComplete

/-- `queued(s)` of R37. -/
def State.isQueued (s : State) (sl : Slot) : Bool := !s.isFree sl && !s.isActive sl

/-- The new `SCOPE_CNT` of R134: one less, modulo 2^32. -/
def scopeNext (cnt : Word) : Word := cnt - 1

/-- The level of `DBG_OUT` for a new `SCOPE_CNT` (R134). -/
def scopeTrigger (cnt : Word) : Bool := cnt == 0

/-- `CUR_BUF` as STATUS shows it (R24, R54). -/
def Buf.code : Buf → BitVec 2
  | .slotA => 0
  | .slotB => 1
  | .idle => 2

/-- The 3 bits of `RESULT` (R190). -/
def ResultCode.code : ResultCode → BitVec 3
  | .ok => 0
  | .bufferUnavailable => 1
  | .invalidLength => 2
  | .invalidCell => 3
  | .illegalCommand => 4

/-- `STATUS` (R54), each field at its bit; the other bits are 0. -/
def State.statusWord (s : State) : Word :=
  place (BitVec.ofBool s.pktComplete) 0 ||| place (BitVec.ofBool s.bufAvail) 1 ||| place (BitVec.ofBool s.trackEn) 2 |||
    place (BitVec.ofBool (s.isFree .a)) 3 ||| place (BitVec.ofBool (s.isFree .b)) 4 |||
    place (policyBit s.idlePolicy) 5 ||| place (BitVec.ofBool s.dbgOut) 6 ||| place (BitVec.ofBool s.evtPending) 7 |||
    place s.curBuf.code 8 ||| place s.curIdx 16 ||| place (BitVec.ofBool s.halted) 31

/-- "Preamble/Data-playing" of R145. -/
def State.isPlaying (s : State) : Bool := s.trackEn && !s.pktComplete

/-- "Current cell is sentinel" (R145): after the advance of a step, the instant of "SlotExhausted", where the packet boundary
begins (R136). -/
def State.onSentinel (s : State) : Bool := isSentinel s.cursorCell

/-- "Idle" of R145. -/
def State.isIdle (s : State) : Bool :=
  s.pktComplete &&
    match s.idlePolicy with
    | .loop => s.trackEn && decide (s.curBuf = .idle)
    | .disable => !s.trackEn

/-- The rest state "SlotExhausted" that a DISABLE-policy boundary leaves (R145, R243). -/
def State.isExhausted (s : State) : Bool :=
  decide (s.idlePolicy = .disable) && !s.trackEn && s.pktComplete && s.onSentinel

/-- Quiescence (R215): no SCHED_STEP and no boundary is enabled. -/
def State.quiescent (s : State) : Bool := !s.trackEn && !s.evtPending

end Sys2Proof.Machine
end

