-- ==== Sys2Proof/Machine/Operands.lean ====
section
/-! DEFINITION. The operands of LOAD_PATTERN that its word does not hold: the staged cells and the free slot (R101, R105, R106). -/

namespace Sys2Proof.Machine

/-- The length check of R106. -/
def lengthOk (n : Nat) : Bool := decide (2 ≤ n) && decide (n ≤ 79)

/-- Every one of the cells at indices `0..n-1` is valid (R13, R106). -/
def Memory.allValid (m : Memory) : Nat → Bool
  | 0 => true
  | n + 1 => m.allValid n && validCell (m.read n)

/-- `first_free_slot()` of R105: A before B. -/
def State.firstFreeSlot (s : State) : Option Slot :=
  if s.isFree .a then some .a else if s.isFree .b then some .b else none

end Sys2Proof.Machine
end

