-- ==== Sys2Proof/Machine/Commands.lean ====
section
/-! DEFINITION. The host commands (40_commands.md). Each is the pseudocode of its rule; the hold and the FAULT check that come
before every command (R100) are made once, in Machine/Bus.lean. -/

namespace Sys2Proof.Machine

/-- The cells of CONFIGURE: both slots cleared and IDLE rebuilt from `IDLE_CELLS` (R103). -/
def State.rebuildBuffers (s : State) : State := { s with slotA := [], slotB := [], idle := idleImage s.cfg }

/-- `IDLE_POLICY <- pol` and `DBG_OUT <- 0` of R103. -/
def State.setPolicy (s : State) (pol : IdlePolicy) : State := { s with idlePolicy := pol, dbgOut := false }

/-- `CONFIGURE(pol)` (R103). -/
def execConfigure (pol : IdlePolicy) (s : State) : Host.Outcome State Fault Refusal :=
  let s := s.trackOff.ackEvent.rebuildBuffers
  let s := (s.timerWrite (s.cell .idle 0)).setCursor .idle 1
  .next (((s.resetScope.setComplete true).setPolicy pol).setResult .ok)

/-- The cells `0..n-1` of STAGE copied into a slot, and the sentinel after them (R106). -/
def State.fillSlot (s : State) (sl : Slot) (n : Nat) : State :=
  s.setSlot sl ((Memory.copy s.stage (s.buffer sl.buf) n).write n BitCell.zero)

/-- `HANDOFF(s)` (R108): cell 0 to the timer, the cursor on cell 1, the scope counter reset, the packet not complete, the
track enabled. The timer write comes before the edge, so a forced update plays cell 0. -/
def State.handoff (s : State) (sl : Slot) : State :=
  ((((s.timerWrite (s.cell sl.buf 0)).setCursor sl.buf 1).resetScope).setComplete false).trackOn

/-- The success of LOAD_PATTERN in a free slot: filled, and handed to the timer if the packet-complete flag is set (R106),
else left queued (R107). -/
def State.loadSlot (s : State) (sl : Slot) (n : Nat) : State :=
  if s.pktComplete then ((s.fillSlot sl n).handoff sl).setResult .ok else (s.fillSlot sl n).setResult .ok

/-- `LOAD_PATTERN(n)` (R106), its checks in the order of R101. A command that fails writes RESULT only. -/
def execLoadPattern (n : Nat) (s : State) : Host.Outcome State Fault Refusal :=
  if lengthOk n = false then .next (s.setResult .invalidLength)
  else if s.stage.allValid n = false then .next (s.setResult .invalidCell)
  else
    match s.firstFreeSlot with
    | none => .next (s.setResult .bufferUnavailable)
    | some sl => .next (s.loadSlot sl n)

/-- `ENABLE_TRACK()` (R110). -/
def execEnableTrack (s : State) : Host.Outcome State Fault Refusal := .next (s.trackOn.setResult .ok)

/-- `DISABLE_TRACK()` (R111). -/
def execDisableTrack (s : State) : Host.Outcome State Fault Refusal := .next (s.trackOff.ackEvent.setResult .ok)

/-- `ILLEGAL_CMD()` (R112): a word that decodes to no command sets RESULT and changes nothing else. -/
def State.illegalCommand (s : State) : State := s.setResult .illegalCommand

end Sys2Proof.Machine
end

