-- ==== Sys2Proof/Machine/Scheduler.lean ====
section
/-! DEFINITION. The scheduler step (41_scheduler.md): read engine, timer write, scope trigger, cursor advance, packet boundary. -/

namespace Sys2Proof.Machine

/-- `SCHED_STEP` is enabled (R130). -/
def State.schedEnabled (s : State) : Bool := s.evtPending && !s.halted

/-- Step 2 (R134): the counter one less, and the trigger level from the new counter. -/
def State.scopeTick (s : State) : State :=
  { s with scopeCnt := scopeNext s.scopeCnt, dbgOut := scopeTrigger (scopeNext s.scopeCnt) }

/-- Step 3 (R135): the next cell of the same buffer. -/
def State.advance (s : State) : State := s.setCursor s.curBuf (s.curIdx + 1)

/-- Mark free (R137): cell 0 of the drained slot becomes the sentinel; the idle buffer is never freed. -/
def State.markFree (s : State) : State :=
  match s.curBuf with
  | .slotA => s.setSlot .a (s.slotA.write 0 BitCell.zero)
  | .slotB => s.setSlot .b (s.slotB.write 0 BitCell.zero)
  | .idle => s

/-- Swap (R138, R139): the cursor on cell 0 of the queued slot and the scope counter reset; DBG_OUT stays (R134). -/
def State.swapTo (s : State) (sl : Slot) : State := (s.setCursor sl.buf 0).resetScope

/-- No queued slot (R140): re-arm the idle packet, or disable the track with the cursor where it is; the packet is complete
either way. The scope counter is not reset (R139, C1). -/
def State.noQueued (s : State) : State :=
  match s.idlePolicy with
  | .loop => (s.setCursor .idle 0).setComplete true
  | .disable => s.trackOff.setComplete true

/-- The choice after mark free: slot A before slot B (R138, R207), else R140. -/
def State.selectNext (s : State) : State :=
  if !s.isFree .a then s.swapTo .a else if !s.isFree .b then s.swapTo .b else s.noQueued

/-- Step 4 (R136): the rest of the boundary applies iff the cell at the new cursor is a sentinel. -/
def State.packetBoundary (s : State) : State :=
  if s.onSentinel then s.markFree.selectNext else s

/-- Steps 1 to 5 of R131, for a step that does not fault. -/
def State.playCell (s : State) : State := ((s.timerWrite s.cursorCell).scopeTick.advance).packetBoundary.ackEvent

/-- The fault of a step, if any, in the order of R131 and R197. An index that is no index of the buffer is never read: the
step faults instead (R51; log 10). -/
def State.stepFault (s : State) : Option Fault :=
  if s.curBuf.cap ≤ s.curIdx.toNat then some .cursorOverrun
  else if isSentinel s.cursorCell then some .sentinelProgrammed
  else if s.curBuf.cap ≤ s.curIdx.toNat + 1 then some .cursorOverrun
  else none

/-- `SCHED_STEP` (R131). That it runs only when enabled (R130) is seen to where it is started, in Machine/Agents.lean. -/
def execSchedStep (s : State) : Host.Outcome State Fault Refusal :=
  match s.stepFault with
  | some f => .next (s.raiseFault f)
  | none => .next s.playCell

end Sys2Proof.Machine
end

