-- ==== Sys2Proof/Machine/Dispatch.lean ====
section
/-! DEFINITION. One arm per row of the opcode table. -/

namespace Sys2Proof.Machine

/-- The meaning of an instruction. -/
def exec (i : Instr) (s : State) : Host.Outcome State Fault Refusal :=
  match i with
  | .configure pol => Sys2Proof.Machine.execConfigure pol s
  | .loadPattern n => Sys2Proof.Machine.execLoadPattern n s
  | .enableTrack => Sys2Proof.Machine.execEnableTrack s
  | .disableTrack => Sys2Proof.Machine.execDisableTrack s
  | .schedStep => Sys2Proof.Machine.execSchedStep s

end Sys2Proof.Machine
end

