-- ==== Sys2Proof/Machine/Bus.lean ====
section
/-! DEFINITION. The host register window (20_memory.md): the map, reads, writes, refused accesses, and the execution of a
command word with its hold and its FAULT check (R100, R206, R196). -/

namespace Sys2Proof.Machine

/-- The three words of a staging cell (R55). -/
inductive CellField where
  | period
  | pulse
  | rep
  deriving DecidableEq, Repr, Inhabited

/-- The mapped words of the window (R52). -/
inductive Reg where
  | cmd
  | status
  | result
  | fault
  | scope
  | tmrPeriod
  | tmrPulse
  | tmrRepeat
  | stage (i : Nat) (f : CellField)
  | stageReserved (i : Nat)
  deriving DecidableEq, Repr

/-- The word of STAGE at byte distance `k` from its start: cell `k / 16`, word `k % 16 / 4` of its 16 bytes (R55). -/
def stageReg (k : Nat) : Reg :=
  match k % 16 / 4 with
  | 0 => .stage (k / 16) .period
  | 1 => .stage (k / 16) .pulse
  | 2 => .stage (k / 16) .rep
  | _ => .stageReserved (k / 16)

/-- The register map (R52); none at an unmapped offset (R59). -/
def regAt (off : Nat) : Option Reg :=
  if off < 0x020 then
    match off / 4 with
    | 0 => some .cmd
    | 1 => some .status
    | 2 => some .result
    | 3 => some .fault
    | 4 => some .scope
    | 5 => some .tmrPeriod
    | 6 => some .tmrPulse
    | _ => some .tmrRepeat
  else if 0x100 ≤ off ∧ off < 0x600 then some (stageReg (off - 0x100))
  else none

/-- The register an access reaches, or why it is refused (R57, R58, R59; the order among the three is log 6). -/
def busDecode (off : BitVec 12) (size : AccessSize) : Except Refusal Reg :=
  if size ≠ .word then .error .subWordAccess
  else if off.toNat % 4 ≠ 0 then .error .misalignedAccess
  else
    match regAt off.toNat with
    | some r => .ok r
    | none => .error .unmappedAccess

/-- What an access reaches. -/
def Access.target : Access → Except Refusal Reg
  | .read off size => busDecode off size
  | .write off size _ => busDecode off size

/-- One field of a cell. -/
def BitCell.get (c : BitCell) : CellField → Word
  | .period => c.period
  | .pulse => c.pulse
  | .rep => c.rep

/-- One field of a cell replaced. -/
def BitCell.set (c : BitCell) (v : Word) : CellField → BitCell
  | .period => { c with period := v }
  | .pulse => { c with pulse := v }
  | .rep => { c with rep := v }

/-- What a read returns (R53 to R56); reads have no side effect (R62). -/
def State.readReg (s : State) : Reg → Word
  | .cmd => 0
  | .status => s.statusWord
  | .result => s.result.code.setWidth 32
  | .fault => s.fault.setWidth 32
  | .scope => s.scopeCnt
  | .tmrPeriod => s.tmrP
  | .tmrPulse => s.tmrQ
  | .tmrRepeat => s.tmrR
  | .stage i f => BitCell.get (s.stage.read i) f
  | .stageReserved _ => 0

/-- A STAGE write (R55). -/
def State.writeStage (s : State) (i : Nat) (f : CellField) (v : Word) : State :=
  { s with stage := s.stage.write i (BitCell.set (s.stage.read i) v f) }

/-- `CMD_WRITE(w)` of R100 after its hold: no effect at all while FAULT is not 0 (R53, R196), else the command the word
decodes to, else ILLEGAL_CMD (R112). -/
def cmdWrite (w : Word) (s : State) : Host.Outcome State Fault Refusal :=
  if s.halted then .next s
  else
    match decodeWord w with
    | .ok i => exec i s
    | .error _ => .next s.illegalCommand

/-- A write to a register: CMD executes a command; a read-only or reserved word is left as it is (R60). -/
def writeReg (r : Reg) (v : Word) (s : State) : Host.Outcome State Fault Refusal :=
  match r with
  | .cmd => cmdWrite v s
  | .stage i f => .next (s.writeStage i f v)
  | .status => .next s
  | .result => .next s
  | .fault => .next s
  | .scope => .next s
  | .tmrPeriod => .next s
  | .tmrPulse => .next s
  | .tmrRepeat => .next s
  | .stageReserved _ => .next s

/-- The data of a completed read on port `bus_rdata` (R205). -/
def State.returnData (s : State) (v : Word) : State := { s with busRdata := v }

/-- One host access that is not held: a read, a write, or a refusal (R198). -/
def access (a : Access) (s : State) : Host.Outcome State Fault Refusal :=
  match a with
  | .read off size =>
    match busDecode off size with
    | .ok r => .next (s.returnData (s.readReg r))
    | .error e => .refused e
  | .write off size v =>
    match busDecode off size with
    | .ok r => writeReg r v s
    | .error e => .refused e

/-- The access is a command write: the only accesses ever held (R206). -/
def Access.isCommand : Access → Bool
  | .read _ _ => false
  | .write off size _ => decide (busDecode off size = .ok .cmd)

/-- The access is held: a command write while an update event is pending (R206). -/
def State.holds (s : State) (a : Access) : Bool := s.evtPending && a.isCommand

/-- A platform address as an offset of the window at `TIS_BASE` (R50): none outside its 4 KiB. -/
def windowOffset (cfg : Config) (addr : Nat) : Option (BitVec 12) :=
  if cfg.tisBase ≤ addr ∧ addr < cfg.tisBase + 0x1000 then some (BitVec.ofNat 12 (addr - cfg.tisBase)) else none

end Sys2Proof.Machine
end

