-- ==== Sys2Proof/Machine/Timer.lean ====
section
/-! DEFINITION. The timer contract (R200 to R204): the reload boundary, and the reference timer model's wire. -/

namespace Sys2Proof.Machine

/-- A reload boundary is enabled (R201). -/
def State.boundaryEnabled (s : State) : Bool := s.trackEn && !(s.cfg.assumeDeadline && s.evtPending)

/-- The timer's active registers take the preload (R201, R204). -/
def State.reload (s : State) : State := { s with act := s.pre }

/-- `EVT_PENDING <- 1`: the update event becomes pending (R200). -/
def State.raiseEvent (s : State) : State := { s with evtPending := true }

/-- `BOUNDARY` (R201). -/
def State.boundary (s : State) : State :=
  if s.evtPending then s.reload.raiseFault .eventOverrun else s.reload.raiseEvent

/-- How many ticks a cell lasts on the wire (R204). -/
def cellTicks (c : BitCell) : Nat := Config.repeatCycles c.rep * c.period.toNat

/-- The level at tick `t` of a valid cell: it changes at the pulse tick and at the period tick of each PWM cycle (R204). -/
def cellLevel (c : BitCell) (t : Nat) : Bool :=
  if t % c.period.toNat < c.pulse.toNat then Config.polarity else !Config.polarity

/-- The level `t` ticks into the active cell (R204). None while the track is off: the wire is not driven.
R204 gives no level for a cell that is not valid, which has no timer meaning (D11) and can stand in `act` as the free cell of
log 2 only, nor for a tick past the cell's end: the level is a free value there (DESIGN CHOICE, log 13). -/
def State.wireLevel (s : State) (t : Nat) : Option Bool :=
  if s.trackEn then
    some (if validCell s.act && decide (t < cellTicks s.act) then cellLevel s.act t
      else Config.freeLevel s.freeIdx s.act t)
  else none

end Sys2Proof.Machine
end

