-- ==== Sys2Proof/Machine/Agents.lean ====
section
/-! DEFINITION. The agents' moves (R7), which of them moves next (R206), and the ports (R205). -/

namespace Sys2Proof.Machine

/-- Who moves now: the environment's choice, and where it has none, a pending event before the host's next access (log 5). -/
def State.nextMove (s : State) : Move :=
  match s.agenda with
  | m :: _ => m
  | [] => if s.schedEnabled then .sched else .host

/-- The start of a transition: the choice is used up, and the pulse `tmr_wr` of the last transition is over (R205). -/
def State.beginMove (s : State) : State := { s with agenda := s.agenda.tail, tmrWr := false }

/-- The host's access is done, or refused. -/
def State.popAccess (s : State) : State := { s with host := s.host.tail }

/-- The host's move (R64): its next access in program order. A held one waits (R206); with none left nothing happens. -/
def hostMove (s : State) : Host.Outcome State Fault Refusal :=
  match s.host with
  | [] => .next s
  | a :: _ => if s.holds a then .next s else access a s.popAccess

/-- One atomic transition (R63, R64). A move that is not enabled does nothing (R130, R201, V54). -/
def runMove (m : Move) (s : State) : Host.Outcome State Fault Refusal :=
  match m with
  | .sched => if s.schedEnabled then exec .schedStep s else .next s
  | .host => hostMove s
  | .timer => if s.boundaryEnabled then .next s.boundary else .next s
  | .rst => .next s.resetBlock

/-- The fault the next transition raises, if any (R12, R195, R197): that of an enabled SCHED_STEP (R131), or the overrun of an
enabled reload boundary (R201). A command, another host access and reset raise none (R100, R197). -/
def State.raised (s : State) : Option Fault :=
  match s.nextMove with
  | .sched => if s.schedEnabled then s.stepFault else none
  | .timer => if s.boundaryEnabled && s.evtPending then some .eventOverrun else none
  | .host => none
  | .rst => none

/-- The test line `EVENT` of R90: a boundary and the SCHED_STEP it enables. -/
def eventMoves : List Move := [.timer, .sched]

/-- The test line `STEP` of R90: a SCHED_STEP alone. -/
def stepMoves : List Move := [.sched]

/-- The output ports of R205. -/
structure Ports where
  busRdata : Word
  busWait : Bool
  busErr : Bool
  tmrWr : Bool
  tmrPeriod : Word
  tmrPulse : Word
  tmrRepeat : Word
  trackEn : Bool
  dbgTrig : Bool
  deriving DecidableEq, Repr

/-- `bus_wait`: the host's next access is held (R206). -/
def State.busWait (s : State) : Bool :=
  match s.host with
  | [] => false
  | a :: _ => s.holds a

/-- `bus_err`: the host's next access is one the hardware answers with a bus error (R198). -/
def State.busErr (s : State) : Bool :=
  match s.host with
  | [] => false
  | a :: _ =>
    match a.target with
    | .ok _ => false
    | .error _ => true

/-- The output ports (R205): `TMR_*`, `TRACK_EN` and `DBG_OUT` are driven out as they stand. -/
def State.ports (s : State) : Ports where
  busRdata := s.busRdata
  busWait := s.busWait
  busErr := s.busErr
  tmrWr := s.tmrWr
  tmrPeriod := s.tmrP
  tmrPulse := s.tmrQ
  tmrRepeat := s.tmrR
  trackEn := s.trackEn
  dbgTrig := s.dbgOut

end Sys2Proof.Machine
end

