-- ==== Sys2Proof/Machine/Step.lean ====
section
/-! DEFINITION. One step of the machine, and a command word placed where the next step takes it. -/

namespace Sys2Proof.Machine

/-- One step: the agent whose turn it is moves. -/
def step (s : State) : Host.Outcome State Fault Refusal := runMove s.nextMove s.beginMove

/-- The outcome of a step in the words of R12: the fault outcome where the transition raises a fault, else what the step
answers. The state a raised fault leaves (R196) is the one `step` answers for the same transition (log 3). -/
def outcome (s : State) : Host.Outcome State Fault Refusal :=
  match s.raised with
  | some f => .fault f
  | none => step s

/-- The state with a command word as the host's next access, and the host's move next. A command write runs only with no
event pending (R206) and no fault (R53), so both are cleared; nothing else changes (log 5). -/
def State.withFetchWord (s : State) (nbits w : Nat) : State :=
  { s with
    host := Access.write 0 .word (BitVec.ofNat 32 (w % 2 ^ nbits)) :: s.host
    agenda := Move.host :: s.agenda
    evtPending := false
    fault := 0 }

end Sys2Proof.Machine
end

