-- ==== Sys2Proof/Machine/Encoder.lean ====
section
/-! DEFINITION. The host-side reference encoder (45_host_encoder.md): pure functions outside the block (R5), and the host
accesses that carry their cells to it (R89, R90). -/

namespace Sys2Proof.Machine

/-- The widths of R161, in microseconds. -/
structure Widths where
  one : Nat
  zeroTotal : Nat
  zeroHalf : Nat
  deriving DecidableEq, Repr

/-- The widths of a stretched zero (R161), in microseconds. -/
structure Stretch where
  total : Nat
  half : Nat
  deriving DecidableEq, Repr

/-- `ticks(u)` of R160: the exact product; 0 or more than a u32 field holds is INVALID_CELL. -/
def ticks (cfg : Config) (u : Nat) : Except ResultCode Word :=
  if u * cfg.ticksPerUs = 0 ∨ 2 ^ 32 ≤ u * cfg.ticksPerUs then .error .invalidCell
  else .ok (BitVec.ofNat 32 (u * cfg.ticksPerUs))

/-- `ONE(W)` of R161: the pulse is half the scaled width, truncated (D30). -/
def oneCell (cfg : Config) (one : Nat) : Except ResultCode BitCell :=
  match ticks cfg one with
  | .ok t => .ok ⟨t, BitVec.ofNat 32 (t.toNat / 2), cfg.encRepeat⟩
  | .error e => .error e

/-- A cell of independent total and half widths: `ZERO(W)`, `GAP(W)` and `STRETCH(S)` of R161. -/
def shapeCell (cfg : Config) (total half : Nat) : Except ResultCode BitCell :=
  match ticks cfg total, ticks cfg half with
  | .ok p, .ok q => if q.toNat ≤ p.toNat then .ok ⟨p, q, cfg.encRepeat⟩ else .error .invalidCell
  | _, _ => .error .invalidCell

/-- `ZERO(W)` (R161). -/
def zeroCell (cfg : Config) (w : Widths) : Except ResultCode BitCell := shapeCell cfg w.zeroTotal w.zeroHalf

/-- `STRETCH(S)` (R161). -/
def stretchCell (cfg : Config) (st : Stretch) : Except ResultCode BitCell := shapeCell cfg st.total st.half

/-- `BITS(b, p, W)` of R162: bit positions `p..7`, least significant first, one cell a bit (C2). -/
def bitCells (b : Byte) (p : Nat) (one zero : BitCell) : List BitCell :=
  (List.range' p (8 - p)).map fun j => if b.getLsbD j then one else zero

/-- `buildPreamble(count, one)` (R163). -/
def buildPreamble (cfg : Config) (count one : Nat) : Except ResultCode (List BitCell) :=
  match oneCell cfg one with
  | .ok c => .ok (List.replicate count c)
  | .error e => .error e

/-- The cells after the preamble and its gap: eight bits and a gap for each byte (R164). -/
def byteCells (one zero : BitCell) : List Byte → List BitCell
  | [] => []
  | b :: bs => bitCells b 0 one zero ++ zero :: byteCells one zero bs

/-- The cells of `buildPacket(bytes, W)` (R164): the length check first, then the cell checks. -/
def buildPacket (cfg : Config) (bytes : List Byte) (w : Widths) : Except ResultCode (List BitCell) :=
  if bytes.length < 1 ∨ maxBytes < bytes.length then .error .invalidLength
  else
    match buildPreamble cfg preambleLen w.one, oneCell cfg w.one, zeroCell cfg w with
    | .ok pre, .ok one, .ok zero => .ok (pre ++ zero :: byteCells one zero bytes)
    | _, _, _ => .error .invalidCell

/-- The cells of `buildPacketRepeatedByte(byte, count, W)` (R165). -/
def buildPacketRepeatedByte (cfg : Config) (b : Byte) (count : Nat) (w : Widths) : Except ResultCode (List BitCell) :=
  if count < 1 ∨ maxBytes < count then .error .invalidLength
  else buildPacket cfg (List.replicate count b) w

/-- The cells of `buildPacketWithStretchedZero1(byte, W, S1)` (R166): position 0 is stretched whatever the bit (C3). -/
def buildPacketWithStretchedZero1 (cfg : Config) (b : Byte) (w : Widths) (s1 : Stretch) :
    Except ResultCode (List BitCell) :=
  match buildPreamble cfg preambleLen w.one, oneCell cfg w.one, zeroCell cfg w, stretchCell cfg s1 with
  | .ok pre, .ok one, .ok zero, .ok c1 => .ok (pre ++ zero :: c1 :: (bitCells b 1 one zero ++ [zero]))
  | _, _, _, _ => .error .invalidCell

/-- The cells of `buildPacketWithStretchedZero2(byte, W, S1, S2)` (R167): positions 0 and 1 are stretched. -/
def buildPacketWithStretchedZero2 (cfg : Config) (b : Byte) (w : Widths) (s1 s2 : Stretch) :
    Except ResultCode (List BitCell) :=
  match buildPreamble cfg preambleLen w.one, oneCell cfg w.one, zeroCell cfg w, stretchCell cfg s1,
    stretchCell cfg s2 with
  | .ok pre, .ok one, .ok zero, .ok c1, .ok c2 =>
    .ok (pre ++ zero :: c1 :: c2 :: (bitCells b 2 one zero ++ [zero]))
  | _, _, _, _, _ => .error .invalidCell

/-- The host access of a command (R89): its word written to CMD. -/
def commandAccess (i : Instr) : Option Access := (encode i).map fun w => .write 0x000 .word w

/-- `STAGE i, p, q, r` of R90: three writes, in that order. None where their offsets leave the window of R50, from `i` 240
on; from 80 to 239 they are writes the bus refuses (R59; log 12). -/
def stageAccesses (i : Nat) (c : BitCell) : Option (List Access) :=
  if 0x108 + 16 * i < 0x1000 then
    some [.write (BitVec.ofNat 12 (0x100 + 16 * i)) .word c.period, .write (BitVec.ofNat 12 (0x104 + 16 * i)) .word c.pulse,
      .write (BitVec.ofNat 12 (0x108 + 16 * i)) .word c.rep]
  else none

/-- `STAGE_PATTERN` of R90, from index `i` on. -/
def stagePattern : Nat → List BitCell → Option (List Access)
  | _, [] => some []
  | i, c :: cs =>
    match stageAccesses i c, stagePattern (i + 1) cs with
    | some ws, some rest => some (ws ++ rest)
    | _, _ => none

/-- `QUEUE` of R90: stage the cells, then `LOAD_PATTERN n`. From 128 cells on R89 has no `LOAD_PATTERN n` to expand to, and
the result is the INVALID_LENGTH of R168 with no access sent (log 11). From 81 to 127 cells the writes of the cells that STAGE
does not hold are among the accesses, and the bus refuses them (R59). -/
def queue (cells : List BitCell) : Except ResultCode (List Access) :=
  match stagePattern 0 cells, commandAccess (.loadPattern cells.length) with
  | some ws, some a => .ok (ws ++ [a])
  | _, _ => .error .invalidLength

/-- `loadPrebuiltPattern(cells)` (R168). -/
def loadPrebuiltPattern (cells : List BitCell) : Except ResultCode (List Access) := queue cells

/-- The accesses an encoder function sends: those of `QUEUE cells`, or its own error code (R164 to R167). -/
def queueEncoded (r : Except ResultCode (List BitCell)) : Except ResultCode (List Access) :=
  match r with
  | .ok cells => queue cells
  | .error e => .error e

/-- `RD 0x004 -> s`, the one access of `POLL_AVAIL` (R90, R113). -/
def pollRead : Access := .read 0x004 .word

/-- The test of `POLL_AVAIL`, `if s[1] == 0 goto L` (R90), on the word read. -/
def pollAgain (w : Word) : Bool := !w.getLsbD 1

/-- What a host polling with `POLL_AVAIL` presents once its read has returned `w`: the read again, or what follows the loop.
The choice is the host's control flow, not the block's (R90). -/
def pollNext (w : Word) (rest : List Access) : List Access := if pollAgain w then pollRead :: rest else rest

/-- The host enters `POLL_AVAIL`, before the accesses it has. -/
def State.startPoll (s : State) : State := { s with host := pollRead :: s.host }

/-- The host goes on after a read of `POLL_AVAIL`: it tests the data returned, and presents the read again or goes on with
the accesses it has. -/
def State.afterPoll (s : State) : State := { s with host := pollNext s.busRdata s.host }

/-- The host presents accesses after those it still has (R64). -/
def State.submit (s : State) (accs : List Access) : State := { s with host := s.host ++ accs }

end Sys2Proof.Machine
end

