-- ==== Sys2Proof/Safety.lean ====
section
/-! DEFINITION. What a good state is: the canonical memory, the invariants of R39, the states a run can reach, the end of a run. -/

namespace Sys2Proof.Machine

/-- Every buffer is in canonical form (log 7). -/
def State.wfMemory (s : State) : Bool :=
  s.slotA.wf slotCap && s.slotB.wf slotCap && s.stage.wf slotCap && s.idle.wf idleCap

/-- From index `lo` on, the buffer reaches a sentinel within its capacity, and every cell before it is valid (R39 INV4). -/
def Memory.Reaches (cap lo : Nat) (m : Memory) : Prop :=
  ∃ k, lo ≤ k ∧ k < cap ∧ isSentinel (m.read k) = true ∧ ∀ i, lo ≤ i → i < k → validCell (m.read i) = true

/-- INV1 to INV6 of R39, as the spec words them. -/
structure State.SpecInvariants (s : State) : Prop where
  inv1 : s.pktComplete = true → s.isFree .a = true ∧ s.isFree .b = true
  inv2 : s.pktComplete = false → ∃ sl : Slot, s.curBuf = sl.buf ∧ s.isFree sl = false
  inv3 : s.curIdx.toNat < s.curBuf.cap
  inv4 : ∀ b : Buf, isSentinel (s.cell b 0) = false → (s.buffer b).Reaches b.cap 0
  inv5 : s.evtPending = true → s.trackEn = true
  inv6 : s.trackEn = true → s.pktComplete = false → isSentinel s.cursorCell = false

/-- The invariant every step keeps. It holds of more states than a run reaches, and implies INV1 to INV6 (R39), that the
overrun fault is never raised (R195), and what R196 says of a halted block. -/
structure State.Inv (s : State) : Prop where
  /-- The parameters lie in the ranges of R9. -/
  cfgRange : s.cfg.wf = true
  /-- The buffers are in canonical form. -/
  memory : s.wfMemory = true
  /-- The idle buffer holds the idle packet (R23). -/
  idlePacket : s.idle = idleImage s.cfg
  /-- INV1. -/
  complete : s.pktComplete = true → s.isFree .a = true ∧ s.isFree .b = true
  /-- INV2. -/
  active : s.pktComplete = false → ∃ sl : Slot, s.curBuf = sl.buf ∧ s.isFree sl = false
  /-- INV4 for the slots. -/
  packets : ∀ sl : Slot, s.isFree sl = false → (s.buffer sl.buf).Reaches sl.buf.cap 0
  /-- INV3, and that the packet the cursor is in ends within its buffer. -/
  cursor : (s.buffer s.curBuf).Reaches s.curBuf.cap s.curIdx.toNat
  /-- INV5. -/
  event : s.evtPending = true → s.trackEn = true
  /-- INV6, whether the track is enabled or not. -/
  playing : s.pktComplete = false → isSentinel s.cursorCell = false
  /-- A complete packet of a slot leaves the cursor on its sentinel (R140, R243). -/
  resting : s.pktComplete = true → s.curBuf ≠ .idle → isSentinel s.cursorCell = true
  /-- A halted block has its track off and no event pending (R196). -/
  haltedOff : s.halted = true → s.trackEn = false ∧ s.evtPending = false
  /-- CURSOR_OVERRUN is not reached (R195). -/
  noOverrun : s.fault.getLsbD 1 = false
  /-- EVENT_OVERRUN is reached only when ASSUME_DEADLINE = false (R195). -/
  deadline : s.cfg.assumeDeadline = true → s.fault.getLsbD 2 = false

/-- The states a run can reach: from reset on a platform whose parameters lie in the ranges of R9, by steps, with whatever
accesses and whatever order of moves the outside world presents. -/
inductive Reachable : State → Prop where
  | reset (cfg : Config) (act : BitCell) (freeIdx : Nat) (h : cfg.wf = true) :
      Reachable (State.resetWith cfg act freeIdx)
  | step {s t : State} (h : Reachable s) (hs : step s = .next t) : Reachable t
  | outside {s : State} (h : Reachable s) (host : List Access) (agenda : List Move) :
      Reachable { s with host := host, agenda := agenda }

/-- What reset leaves (R230), element by element. -/
structure State.AtReset (s : State) : Prop where
  slots : ∀ (sl : Slot) (i : Nat), s.cell sl.buf i = BitCell.zero
  idlePacket : ∀ i, i < idleCap → s.cell .idle i = s.cfg.idleCells.getD i BitCell.zero
  staged : ∀ i, s.stage.read i = BitCell.zero
  cursor : s.curBuf = .idle ∧ s.curIdx = 1
  scope : s.scopeCnt = s.cfg.scopeOffset
  complete : s.pktComplete = true
  track : s.trackEn = false
  trigger : s.dbgOut = false
  event : s.evtPending = false
  policy : s.idlePolicy = .disable
  result : s.result = .ok
  fault : s.fault = 0
  timer : (⟨s.tmrP, s.tmrQ, s.tmrR⟩ : BitCell) = s.cell .idle 0
  written : s.tmrWr = true

/-- A run has failed: some transition of it had the fault outcome (R12), and a faulted state is never a final one (R196, R217). -/
def State.failed (s : State) : Bool := s.halted

/-- The end of a run (R217): quiescent, the packet complete, no fault, no host access left. The definition does not apply
under LOOP, where no state is an end of run. -/
def State.runOver (s : State) : Bool :=
  decide (s.idlePolicy = .disable) && s.quiescent && s.pktComplete && !s.failed && s.host.isEmpty

/-- `k` scheduler steps one after another; between them only the event that starts the next one happens (R143). -/
def schedSteps : Nat → State → Host.Outcome State Fault Refusal
  | 0, s => .next s
  | k + 1, s =>
    match exec .schedStep s with
    | .next t => schedSteps k t
    | .fault f => .fault f
    | .refused r => .refused r

/-- `k` steps of the machine, stopping at the first stop. -/
def runSteps : Nat → State → Host.Outcome State Fault Refusal
  | 0, s => .next s
  | k + 1, s =>
    match step s with
    | .next t => runSteps k t
    | .fault f => .fault f
    | .refused r => .refused r

/-- The next step takes a command write of `w`: it is the host's turn, the write is its next access, and nothing holds or
voids it (R100). -/
structure State.Presents (s : State) (w : Word) (rest : List Access) : Prop where
  turn : s.nextMove = .host
  next : s.host = .write 0x000 .word w :: rest
  notHeld : s.evtPending = false
  notHalted : s.fault = 0

/-- The step at `s` would play the cell at the cursor: no fault of R131 applies. -/
structure State.Playable (s : State) : Prop where
  room : s.curIdx.toNat + 1 < s.curBuf.cap
  live : isSentinel (s.cell s.curBuf s.curIdx.toNat) = false

/-- The cell after the cursor is a sentinel: the step reaches a packet boundary (R136). -/
def State.AtBoundary (s : State) : Prop := isSentinel (s.cell s.curBuf (s.curIdx.toNat + 1)) = true

/-- The slot a boundary swaps to (R138): not free, not the drained one, A before B. -/
def State.SwapsTo (s : State) (sl : Slot) : Prop :=
  (sl = .a ∧ s.curBuf ≠ .slotA ∧ s.isFree .a = false) ∨
    (sl = .b ∧ (s.curBuf = .slotA ∨ s.isFree .a = true) ∧ s.curBuf ≠ .slotB ∧ s.isFree .b = false)

/-- No slot is queued at a boundary (R140): each is free, or is the drained one. -/
def State.NoneQueued (s : State) : Prop :=
  (s.curBuf = .slotA ∨ s.isFree .a = true) ∧ (s.curBuf = .slotB ∨ s.isFree .b = true)

/-- The slot LOAD_PATTERN claims (R105). -/
def State.Claims (s : State) (sl : Slot) : Prop :=
  (sl = .a ∧ s.isFree .a = true) ∨ (sl = .b ∧ s.isFree .a = false ∧ s.isFree .b = true)

/-- A slot holds a packet of `n` cells: none of them a sentinel, and a sentinel after them. -/
structure State.Holds (s : State) (sl : Slot) (n : Nat) : Prop where
  cells : ∀ i, i < n → isSentinel (s.cell sl.buf i) = false
  sentinel : isSentinel (s.cell sl.buf n) = true
  fits : n < slotCap

/-- The other slot. -/
def Slot.other : Slot → Slot
  | .a => .b
  | .b => .a

/-- A width in microseconds scales to a u32 of at least 1 (R160). -/
def scales (cfg : Config) (u : Nat) : Prop := 1 ≤ u * cfg.ticksPerUs ∧ u * cfg.ticksPerUs < 2 ^ 32

/-- The shape of a total and a half width is a cell: both scale, and the half is no wider than the total (R160, R161). -/
def shapes (cfg : Config) (total half : Nat) : Prop :=
  scales cfg total ∧ scales cfg half ∧ half * cfg.ticksPerUs ≤ total * cfg.ticksPerUs

/-- The cell of a total and a half width (R161). -/
def tickCell (cfg : Config) (total half : Nat) : BitCell :=
  ⟨BitVec.ofNat 32 (total * cfg.ticksPerUs), BitVec.ofNat 32 (half * cfg.ticksPerUs), cfg.encRepeat⟩

/-- The layout of a packet of one byte whose first bit positions are stretched (R166, R167): 18 one-cells, a gap, the
stretched cells, a cell for each bit above them, a gap. -/
structure StretchedLayout (cfg : Config) (b : Byte) (w : Widths) (stretches : List Stretch) (cells : List BitCell) : Prop where
  length : cells.length = 28
  preamble : ∀ i, i < 18 → cells[i]? =
    some ⟨BitVec.ofNat 32 (w.one * cfg.ticksPerUs), BitVec.ofNat 32 (w.one * cfg.ticksPerUs / 2), cfg.encRepeat⟩
  gap : cells[18]? = some (tickCell cfg w.zeroTotal w.zeroHalf)
  stretched : ∀ k st, stretches[k]? = some st → cells[19 + k]? = some (tickCell cfg st.total st.half)
  bits : ∀ k, stretches.length ≤ k → k < 8 → cells[19 + k]? = if b.getLsbD k = true then cells[0]? else cells[18]?
  lastGap : cells[27]? = cells[18]?

end Sys2Proof.Machine
end

