-- ==== Sys2Proof/Certificates/Slice0/Obligations.lean ====
section
/-! DEFINITION. The statements for the provers, from the numbered rules of the spec. -/

open Sys2Proof Sys2Proof.Machine

/-! Encoding. -/

/-- R83, R85: words written out from the encodings decode to the commands they stand for. -/
def Obligations.WordsOfEveryFamilyDecode : Prop :=
  decodeWord 0x00000001 = .ok (.configure .disable) ∧ decodeWord 0x00000011 = .ok (.configure .loop) ∧
    decodeWord 0x00000032 = .ok (.loadPattern 3) ∧ decodeWord 0x000007F2 = .ok (.loadPattern 127) ∧
    decodeWord 0x00000003 = .ok .enableTrack ∧ decodeWord 0x00000004 = .ok .disableTrack

/-- R80 to R85: the word of every well-formed command decodes to it, as a word and in its byte order (R61). -/
def Obligations.DecodeOfEncodeAgrees : Prop :=
  ∀ (i : Instr) (rest : List Byte), i.wfCommand = true →
    ∃ w, encode i = some w ∧ decodeWord w = .ok i ∧ decodeBytes (bytesOfWord w ++ rest) = .ok (i, rest)

/-- R83, R85: each word has one meaning, and encoding it gives the word back. -/
def Obligations.EncodeOfDecodeAgrees : Prop :=
  ∀ (w : Word) (i : Instr), decodeWord w = .ok i → i.wfCommand = true ∧ encode i = some w

/-- R83, R87: a word selects a command iff it matches the command's row, and never the EVENT row. -/
def Obligations.CommandSelectedByMaskAndMatch : Prop :=
  ∀ w : Word,
    ((∃ pol, decodeWord w = .ok (.configure pol)) ↔ w &&& 0xFFFFFFEF = 0x00000001) ∧
    ((∃ n, decodeWord w = .ok (.loadPattern n)) ↔ w &&& 0xFFFFF80F = 0x00000002) ∧
    (decodeWord w = .ok .enableTrack ↔ w &&& 0xFFFFFFFF = 0x00000003) ∧
    (decodeWord w = .ok .disableTrack ↔ w &&& 0xFFFFFFFF = 0x00000004) ∧
    decodeWord w ≠ .ok .schedStep

/-- R81, R84: POL is bit 4, and N is bits 10 to 4, unsigned and unscaled. -/
def Obligations.OperandFieldsAssembled : Prop :=
  ∀ w : Word,
    (∀ n, decodeWord w = .ok (.loadPattern n) → n = w.toNat / 16 % 128) ∧
    (∀ pol, decodeWord w = .ok (.configure pol) → (pol = .loop ↔ w.toNat / 16 % 2 = 1))

/-- R86: which words are illegal, and that writing one sets RESULT to 4 and changes nothing else. -/
def Obligations.IllegalWordsChangeResultOnly : Prop :=
  (∀ w : Word,
    (∀ i, decodeWord w ≠ .ok i) ↔
      (w.toNat % 16 = 0 ∨ 5 ≤ w.toNat % 16) ∨ (w.toNat % 16 = 1 ∧ w.toNat / 32 ≠ 0) ∨
        (w.toNat % 16 = 2 ∧ w.toNat / 2048 ≠ 0) ∨ ((w.toNat % 16 = 3 ∨ w.toNat % 16 = 4) ∧ w.toNat / 16 ≠ 0)) ∧
  (∀ (w : Word) (s : State), (∀ i, decodeWord w ≠ .ok i) → s.fault = 0 →
    cmdWrite w s = .next { s with result := .illegalCommand }) ∧
  ResultCode.illegalCommand.code = 4

/-! The step. -/

/-- R53, R100: a command write that is neither held nor void runs the instruction its word decodes to. Around it the step takes
the access off the host's list and the move off the agenda (log 5), and ends the last `tmr_wr` pulse (log 4). -/
def Obligations.StepRunsTheDecodedCommand : Prop :=
  ∀ (s : State) (w : Word) (rest : List Access) (i : Instr), s.Presents w rest → decodeWord w = .ok i →
    step s = exec i { s with agenda := s.agenda.tail, tmrWr := false, host := rest }

/-- R130, R208: the scheduler's turn (log 5) with an event pending and no fault runs SCHED_STEP. -/
def Obligations.StepRunsTheSchedulerStep : Prop :=
  ∀ s : State, s.nextMove = .sched → s.evtPending = true → s.fault = 0 →
    step s = exec .schedStep { s with agenda := s.agenda.tail, tmrWr := false }

/-- A word placed as the next access runs as the very next instruction, from every state (log 5). -/
def Obligations.PlacedWordRunsNext : Prop :=
  ∀ (s : State) (w : Nat) (i : Instr), w < 2 ^ 32 → decodeTableWord 32 w = some i →
    step (s.withFetchWord 32 w) = exec i { s with evtPending := false, fault := 0, tmrWr := false }

/-- R206: a command write waits while an event is pending, with bus_wait 1; reads and STAGE writes never wait; the
SCHED_STEP ends the wait. That a held write uses up the host's turn is the model's (log 5), and so is that a SCHED_STEP which
raises a fault answers a next state (log 3). -/
def Obligations.CommandWriteHeldWhileEventPending : Prop :=
  (∀ (s : State) (w : Word) (rest : List Access), s.nextMove = .host → s.host = .write 0x000 .word w :: rest →
    s.evtPending = true →
      s.busWait = true ∧ step s = .next { s with agenda := s.agenda.tail, tmrWr := false }) ∧
  (∀ (s : State) (off : BitVec 12) (size : AccessSize) (rest : List Access), s.host = .read off size :: rest →
    s.busWait = false) ∧
  (∀ (s : State) (off : BitVec 12) (v : Word) (rest : List Access), 0x100 ≤ off.toNat →
    s.host = .write off .word v :: rest → s.busWait = false) ∧
  (∀ s : State, ∃ t, exec .schedStep s = .next t ∧ t.evtPending = false)

/-- R53, R196: while a fault bit is set (log 3), a command write has no effect, RESULT included. -/
def Obligations.HaltedBlockIgnoresCommands : Prop :=
  ∀ (s : State) (w : Word), s.fault ≠ 0 →
    cmdWrite w s = .next s ∧ access (.write 0x000 .word w) s = .next s

/-- R130: a scheduler move with no event pending, or on a halted block, does nothing but use up its turn (log 5). -/
def Obligations.SchedulerMoveNeedsEvent : Prop :=
  ∀ s : State, s.nextMove = .sched → (s.evtPending = false ∨ s.fault ≠ 0) →
    step s = .next { s with agenda := s.agenda.tail, tmrWr := false }

/-- R12, R196, R198: the machine stops with a refusal exactly at an access the bus refuses. The fault outcome of R12 stands
exactly where a transition raises a fault, by its cause, and the step then answers the halted state of R196 and not the fault
outcome (log 3); an index outside its buffer counts as an overrun (log 10). Where no fault is raised the outcome is the step. -/
def Obligations.StepStopsOnlyAtRefusedAccess : Prop :=
  ∀ s : State, (∀ f, step s ≠ .fault f) ∧
    (∀ r, step s = .refused r ↔ s.nextMove = .host ∧ ∃ a rest, s.host = a :: rest ∧ a.target = .error r) ∧
    (outcome s = .fault .sentinelProgrammed ↔ s.nextMove = .sched ∧ s.evtPending = true ∧ s.fault = 0 ∧
      s.curIdx.toNat < s.curBuf.cap ∧ isSentinel (s.cell s.curBuf s.curIdx.toNat) = true) ∧
    (outcome s = .fault .cursorOverrun ↔ s.nextMove = .sched ∧ s.evtPending = true ∧ s.fault = 0 ∧
      (s.curBuf.cap ≤ s.curIdx.toNat ∨
        (s.curIdx.toNat + 1 = s.curBuf.cap ∧ isSentinel (s.cell s.curBuf s.curIdx.toNat) = false))) ∧
    (outcome s = .fault .eventOverrun ↔
      s.nextMove = .timer ∧ s.trackEn = true ∧ s.evtPending = true ∧ s.cfg.assumeDeadline = false) ∧
    (∀ f, outcome s = .fault f → ∃ t, step s = .next t ∧ t.fault = s.fault ||| f.bit ∧ t.trackEn = false ∧
      t.evtPending = false) ∧
    ((∀ f, outcome s ≠ .fault f) → outcome s = step s)

/-- R37: the three roles of a slot, as the rule defines them, and that a slot has exactly one of them. -/
def Obligations.SlotHasExactlyOneRole : Prop :=
  ∀ (s : State) (sl : Slot),
    (s.isFree sl = true ↔ (s.cell sl.buf 0).period = 0) ∧
    (s.isActive sl = true ↔ s.isFree sl = false ∧ s.curBuf = sl.buf ∧ s.pktComplete = false) ∧
    (s.isQueued sl = true ↔ s.isFree sl = false ∧ s.isActive sl = false) ∧
    ((s.isFree sl = true ∧ s.isActive sl = false ∧ s.isQueued sl = false) ∨
      (s.isFree sl = false ∧ s.isActive sl = true ∧ s.isQueued sl = false) ∨
      (s.isFree sl = false ∧ s.isActive sl = false ∧ s.isQueued sl = true))

/-! The register window. -/

/-- R57, R58, R59: which accesses are refused, and by what name; the order among the three names is the model's (log 6). -/
def Obligations.RefusedAccessesByName : Prop :=
  ∀ (off : BitVec 12) (size : AccessSize) (v : Word) (s : State),
    (size ≠ .word → access (.read off size) s = .refused .subWordAccess ∧
      access (.write off size v) s = .refused .subWordAccess) ∧
    (off.toNat % 4 ≠ 0 → access (.read off .word) s = .refused .misalignedAccess ∧
      access (.write off .word v) s = .refused .misalignedAccess) ∧
    (off.toNat % 4 = 0 → ((0x020 ≤ off.toNat ∧ off.toNat ≤ 0x0FF) ∨ 0x600 ≤ off.toNat) →
      access (.read off .word) s = .refused .unmappedAccess ∧
      access (.write off .word v) s = .refused .unmappedAccess) ∧
    (off.toNat % 4 = 0 → (off.toNat ≤ 0x01F ∨ (0x100 ≤ off.toNat ∧ off.toNat ≤ 0x5FF)) →
      ∃ t, access (.read off .word) s = .next t)

/-- R56, R60: what CMD, RESULT, FAULT, SCOPE and the TMR registers read, without a side effect; a write to any of the
read-only ones is ignored. -/
def Obligations.RegistersReadAsMapped : Prop :=
  ∀ s : State,
    access (.read 0x000 .word) s = .next { s with busRdata := 0 } ∧
    access (.read 0x008 .word) s = .next { s with busRdata := s.result.code.setWidth 32 } ∧
    access (.read 0x00C .word) s = .next { s with busRdata := s.fault.setWidth 32 } ∧
    access (.read 0x010 .word) s = .next { s with busRdata := s.scopeCnt } ∧
    access (.read 0x014 .word) s = .next { s with busRdata := s.tmrP } ∧
    access (.read 0x018 .word) s = .next { s with busRdata := s.tmrQ } ∧
    access (.read 0x01C .word) s = .next { s with busRdata := s.tmrR } ∧
    ∀ (k : Nat) (v : Word), 1 ≤ k → k ≤ 7 → access (.write (BitVec.ofNat 12 (4 * k)) .word v) s = .next s

/-- R54: STATUS, field by field. -/
def Obligations.StatusFieldsAsLaidOut : Prop :=
  ∀ s : State, ∃ w : Word, access (.read 0x004 .word) s = .next { s with busRdata := w } ∧
    w.getLsbD 0 = s.pktComplete ∧ w.getLsbD 1 = (s.isFree .a || s.isFree .b) ∧ w.getLsbD 2 = s.trackEn ∧
    w.getLsbD 3 = s.isFree .a ∧ w.getLsbD 4 = s.isFree .b ∧ (w.getLsbD 5 = true ↔ s.idlePolicy = .loop) ∧
    w.getLsbD 6 = s.dbgOut ∧ w.getLsbD 7 = s.evtPending ∧
    w.extractLsb' 8 2 = (match s.curBuf with
      | .slotA => 0
      | .slotB => 1
      | .idle => 2) ∧
    w.extractLsb' 10 6 = 0 ∧ w.extractLsb' 16 7 = s.curIdx ∧ w.extractLsb' 23 8 = 0 ∧
    (w.getLsbD 31 = true ↔ s.fault ≠ 0) ∧
    ∀ v, access (.write 0x004 .word v) s = .next s

/-- R55: a STAGE word reads back as written, every other STAGE word as before, and nothing else changes; the word at +0xC
reads 0 and ignores writes. -/
def Obligations.StageWordsReadBack : Prop :=
  ∀ (s : State) (i f : Nat) (v : Word), i < 80 → f < 4 →
    (f < 3 → ∃ t, access (.write (BitVec.ofNat 12 (0x100 + 16 * i + 4 * f)) .word v) s = .next t ∧
      t = { s with stage := t.stage } ∧
      access (.read (BitVec.ofNat 12 (0x100 + 16 * i + 4 * f)) .word) t = .next { t with busRdata := v } ∧
      ∀ j g, j < 80 → g < 3 → (j ≠ i ∨ g ≠ f) → ∃ u,
        access (.read (BitVec.ofNat 12 (0x100 + 16 * j + 4 * g)) .word) s = .next { s with busRdata := u } ∧
        access (.read (BitVec.ofNat 12 (0x100 + 16 * j + 4 * g)) .word) t = .next { t with busRdata := u }) ∧
    (f = 3 → access (.write (BitVec.ofNat 12 (0x100 + 16 * i + 4 * f)) .word v) s = .next s ∧
      access (.read (BitVec.ofNat 12 (0x100 + 16 * i + 4 * f)) .word) s = .next { s with busRdata := 0 })

/-- R62: a read of any offset and size, if it completes, changes nothing but the data returned. -/
def Obligations.ReadsHaveNoSideEffect : Prop :=
  ∀ (s t : State) (off : BitVec 12) (size : AccessSize), access (.read off size) s = .next t →
    t = { s with busRdata := t.busRdata }

/-! The commands. -/

/-- R103: CONFIGURE, all it writes and nothing else. -/
def Obligations.ConfigureReinitialises : Prop :=
  ∀ (pol : IdlePolicy) (s : State), ∃ t, exec (.configure pol) s = .next t ∧
    t = { s with
      slotA := t.slotA, slotB := t.slotB, idle := t.idle, trackEn := false, evtPending := false,
      tmrP := (t.cell .idle 0).period, tmrQ := (t.cell .idle 0).pulse, tmrR := (t.cell .idle 0).rep, tmrWr := true,
      curBuf := .idle, curIdx := 1, scopeCnt := s.cfg.scopeOffset, dbgOut := false, pktComplete := true,
      idlePolicy := pol, result := .ok } ∧
    (∀ (sl : Slot) (i : Nat), t.cell sl.buf i = BitCell.zero) ∧
    ∀ i, i < 6 → t.cell .idle i =
      if i < s.cfg.idleCells.length then s.cfg.idleCells.getD i BitCell.zero else BitCell.zero

/-- R101: the order of the result codes, and that a failing command changes RESULT only. -/
def Obligations.ResultCodesInOrder : Prop :=
  ∀ (n : Nat) (s : State),
    (∀ w, (∀ i, decodeWord w ≠ .ok i) → s.fault = 0 → cmdWrite w s = .next { s with result := .illegalCommand }) ∧
    ((n < 2 ∨ 79 < n) → exec (.loadPattern n) s = .next { s with result := .invalidLength }) ∧
    (2 ≤ n → n ≤ 79 → (∃ i, i < n ∧ validCell (s.stage.read i) = false) →
      exec (.loadPattern n) s = .next { s with result := .invalidCell }) ∧
    (2 ≤ n → n ≤ 79 → (∀ i, i < n → validCell (s.stage.read i) = true) → s.isFree .a = false → s.isFree .b = false →
      exec (.loadPattern n) s = .next { s with result := .bufferUnavailable })

/-- R107: LOAD_PATTERN with PKT_COMPLETE 0 leaves the packet queued: the claimed slot filled, RESULT OK, nothing else. -/
def Obligations.LoadPatternQueues : Prop :=
  ∀ (n : Nat) (s : State) (sl : Slot), 2 ≤ n → n ≤ 79 → (∀ i, i < n → validCell (s.stage.read i) = true) →
    s.Claims sl → s.pktComplete = false →
    ∃ t, exec (.loadPattern n) s = .next t ∧
      t = { s with slotA := t.slotA, slotB := t.slotB, result := .ok } ∧
      (∀ i, t.cell sl.buf i = if i < n then s.stage.read i else if i = n then BitCell.zero else s.cell sl.buf i) ∧
      (∀ b i, b ≠ sl.buf → t.cell b i = s.cell b i) ∧
      (s.SpecInvariants → t.isQueued sl = true)

/-- R106, R108: LOAD_PATTERN with PKT_COMPLETE 1 fills the claimed slot and hands its first cell to the timer. -/
def Obligations.LoadPatternHandsOff : Prop :=
  ∀ (n : Nat) (s : State) (sl : Slot), 2 ≤ n → n ≤ 79 → (∀ i, i < n → validCell (s.stage.read i) = true) →
    s.Claims sl → s.pktComplete = true →
    ∃ t, exec (.loadPattern n) s = .next t ∧
      t = { s with
        slotA := t.slotA, slotB := t.slotB, result := .ok,
        tmrP := (s.stage.read 0).period, tmrQ := (s.stage.read 0).pulse, tmrR := (s.stage.read 0).rep, tmrWr := true,
        curBuf := sl.buf, curIdx := 1, scopeCnt := s.cfg.scopeOffset, pktComplete := false, trackEn := true,
        evtPending := t.evtPending, act := t.act, freeIdx := t.freeIdx } ∧
      (∀ i, t.cell sl.buf i = if i < n then s.stage.read i else if i = n then BitCell.zero else s.cell sl.buf i) ∧
      (∀ b i, b ≠ sl.buf → t.cell b i = s.cell b i) ∧
      (s.trackEn = true → t.evtPending = s.evtPending ∧ t.act = s.act) ∧
      (s.trackEn = false → s.cfg.enableForcesUpdate = true → t.evtPending = true ∧ t.act = s.stage.read 0) ∧
      (s.trackEn = false → s.cfg.enableForcesUpdate = false → t.evtPending = s.evtPending)

/-- R110, R202: ENABLE_TRACK, with what a rising edge does; with the track already on, only RESULT changes. -/
def Obligations.EnableTrackRaisesTrack : Prop :=
  ∀ s : State, ∃ t, exec .enableTrack s = .next t ∧
    t = { s with
      trackEn := true, result := .ok, evtPending := t.evtPending, act := t.act, freeIdx := t.freeIdx } ∧
    (s.trackEn = true → t = { s with result := .ok }) ∧
    (s.trackEn = false → s.cfg.enableForcesUpdate = true →
      t.evtPending = true ∧ t.act = ⟨s.tmrP, s.tmrQ, s.tmrR⟩) ∧
    (s.trackEn = false → s.cfg.enableForcesUpdate = false → t.evtPending = s.evtPending)

/-- R111: DISABLE_TRACK changes TRACK_EN, EVT_PENDING and RESULT, and nothing else. -/
def Obligations.DisableTrackStopsOutput : Prop :=
  ∀ s : State, exec .disableTrack s = .next { s with trackEn := false, evtPending := false, result := .ok }

/-- R34, R195, R197: FAULT is sticky; a host access never changes it, a scheduler step sets bits 0 and 1 only, a boundary
bit 2 only. -/
def Obligations.FaultBitsAreSticky : Prop :=
  ∀ s t : State, step s = .next t →
    (s.nextMove ≠ .rst → ∀ k, s.fault.getLsbD k = true → t.fault.getLsbD k = true) ∧
    (s.nextMove = .host → t.fault = s.fault) ∧
    (s.nextMove = .sched → t.fault.getLsbD 2 = s.fault.getLsbD 2) ∧
    (s.nextMove = .timer → ∀ k, k ≠ 2 → t.fault.getLsbD k = s.fault.getLsbD k) ∧
    (s.nextMove = .rst → t.fault = 0)

/-- R33, R53: RESULT changes at a command write that runs, or at reset, and nowhere else. -/
def Obligations.ResultWrittenByCommandsOnly : Prop :=
  ∀ s t : State, step s = .next t → t.result ≠ s.result →
    s.nextMove = .rst ∨ ∃ w rest, s.Presents w rest

/-- R32, R51: STAGE changes at a host write of a STAGE word, or at reset, and nowhere else. -/
def Obligations.StageWrittenByHostOnly : Prop :=
  ∀ s t : State, step s = .next t → t.stage ≠ s.stage →
    s.nextMove = .rst ∨
      (s.nextMove = .host ∧ ∃ off v rest, s.host = .write off .word v :: rest ∧ 0x100 ≤ off.toNat ∧ off.toNat ≤ 0x5FF)

/-! The scheduler step. -/

/-- R133, R134, R141: a step that raises no fault writes the cell at the cursor to the timer, counts the scope counter down
(a swap then resets it) with DBG_OUT from the count before any reset, and clears EVT_PENDING. -/
def Obligations.SchedStepWritesTimer : Prop :=
  ∀ s : State, s.Playable → ∃ t, exec .schedStep s = .next t ∧
    t.tmrP = (s.cell s.curBuf s.curIdx.toNat).period ∧ t.tmrQ = (s.cell s.curBuf s.curIdx.toNat).pulse ∧
    t.tmrR = (s.cell s.curBuf s.curIdx.toNat).rep ∧ t.tmrWr = true ∧
    (s.AtBoundary → (∃ sl, s.SwapsTo sl) → t.scopeCnt = s.cfg.scopeOffset) ∧
    (¬ (s.AtBoundary ∧ ∃ sl, s.SwapsTo sl) → t.scopeCnt = s.scopeCnt - 1) ∧
    (t.dbgOut = true ↔ s.scopeCnt = 1) ∧ t.evtPending = false

/-- R135, R136: a step within a packet moves the cursor one cell on in the same buffer and writes nothing else. -/
def Obligations.SchedStepWithinPacket : Prop :=
  ∀ s : State, s.Playable → ¬ s.AtBoundary → ∃ t, exec .schedStep s = .next t ∧
    t = { s with
      tmrP := t.tmrP, tmrQ := t.tmrQ, tmrR := t.tmrR, tmrWr := true, scopeCnt := s.scopeCnt - 1, dbgOut := t.dbgOut,
      curIdx := t.curIdx, evtPending := false } ∧
    t.curIdx.toNat = s.curIdx.toNat + 1

/-- R137, R138, R139: at a boundary with a slot queued, the drained slot is freed, the cursor goes to cell 0 of the queued
slot (A before B) and the scope counter is reset; PKT_COMPLETE and TRACK_EN stay. -/
def Obligations.SchedStepSwaps : Prop :=
  ∀ (s : State) (sl : Slot), s.Playable → s.AtBoundary → s.SwapsTo sl → ∃ t, exec .schedStep s = .next t ∧
    t = { s with
      slotA := t.slotA, slotB := t.slotB, tmrP := t.tmrP, tmrQ := t.tmrQ, tmrR := t.tmrR, tmrWr := true,
      scopeCnt := s.cfg.scopeOffset, dbgOut := t.dbgOut, curBuf := sl.buf, curIdx := 0, evtPending := false } ∧
    ∀ b i, t.cell b i = if b = s.curBuf ∧ b ≠ .idle ∧ i = 0 then BitCell.zero else s.cell b i

/-- R140: at a boundary with no slot queued, the idle packet is re-armed under LOOP, the track disabled with the cursor at
the sentinel under DISABLE, and the packet complete either way. -/
def Obligations.SchedStepWithoutQueue : Prop :=
  ∀ s : State, s.Playable → s.AtBoundary → s.NoneQueued → ∃ t, exec .schedStep s = .next t ∧
    t = { s with
      slotA := t.slotA, slotB := t.slotB, tmrP := t.tmrP, tmrQ := t.tmrQ, tmrR := t.tmrR, tmrWr := true,
      scopeCnt := s.scopeCnt - 1, dbgOut := t.dbgOut, curBuf := t.curBuf, curIdx := t.curIdx, trackEn := t.trackEn,
      pktComplete := true, evtPending := false } ∧
    (∀ b i, t.cell b i = if b = s.curBuf ∧ b ≠ .idle ∧ i = 0 then BitCell.zero else s.cell b i) ∧
    (s.idlePolicy = .loop → t.curBuf = .idle ∧ t.curIdx = 0 ∧ t.trackEn = s.trackEn) ∧
    (s.idlePolicy = .disable →
      t.trackEn = false ∧ t.curBuf = s.curBuf ∧ t.curIdx.toNat = s.curIdx.toNat + 1)

/-- R132, R135: a step with the cursor on a sentinel, and one whose advance would leave the buffer, raise their faults and
change nothing else; the sentinel check comes first. A raised fault is a next state (log 3). -/
def Obligations.SchedStepFaults : Prop :=
  ∀ s : State,
    (s.curIdx.toNat < s.curBuf.cap → isSentinel (s.cell s.curBuf s.curIdx.toNat) = true →
      exec .schedStep s = .next { s with fault := s.fault ||| 0b001, trackEn := false, evtPending := false }) ∧
    (s.curIdx.toNat + 1 = s.curBuf.cap → isSentinel (s.cell s.curBuf s.curIdx.toNat) = false →
      exec .schedStep s = .next { s with fault := s.fault ||| 0b010, trackEn := false, evtPending := false })

/-- R51 with log 10: an index outside the buffer is never read; the step raises CURSOR_OVERRUN, a next state (log 3). -/
def Obligations.SchedStepOutsideBufferFaults : Prop :=
  ∀ s : State, s.curBuf.cap ≤ s.curIdx.toNat →
    exec .schedStep s = .next { s with fault := s.fault ||| 0b010, trackEn := false, evtPending := false }

/-- R51, R130: the frame of SCHED_STEP, on every path: the fields it may write, and of the cells only cell 0 of the slot the
cursor is in. -/
def Obligations.SchedStepFrame : Prop :=
  ∀ s t : State, exec .schedStep s = .next t →
    t = { s with
      slotA := t.slotA, slotB := t.slotB, curBuf := t.curBuf, curIdx := t.curIdx, scopeCnt := t.scopeCnt,
      pktComplete := t.pktComplete, trackEn := t.trackEn, dbgOut := t.dbgOut, evtPending := false,
      fault := t.fault, tmrP := t.tmrP, tmrQ := t.tmrQ, tmrR := t.tmrR, tmrWr := t.tmrWr } ∧
    (∀ b i, ¬ (b = s.curBuf ∧ b ≠ .idle ∧ i = 0) → t.cell b i = s.cell b i) ∧
    (s.trackEn = false → t.trackEn = false)

/-- R32: the scheduler never reads STAGE: its step is the same whatever STAGE holds. -/
def Obligations.SchedulerNeverReadsStage : Prop :=
  ∀ (s t : State) (m : Memory), exec .schedStep s = .next t →
    exec .schedStep { s with stage := m } = .next { t with stage := m }

/-- R143: a slot of `n` cells drains in `n` steps from cell 0 and in `n - 1` from cell 1, its cells written in order, and is
freed by no earlier step. -/
def Obligations.PacketDrainsInItsLength : Prop :=
  ∀ (s : State) (sl : Slot) (n start : Nat), s.Holds sl n → start ≤ 1 → start < n → s.curBuf = sl.buf →
    s.curIdx.toNat = start → s.isFree sl.other = true →
    (∀ j, j < n - start → ∃ u, schedSteps (j + 1) s = .next u ∧
      (⟨u.tmrP, u.tmrQ, u.tmrR⟩ : BitCell) = s.cell sl.buf (start + j) ∧
      (j + 1 < n - start → u.isFree sl = false ∧ u.pktComplete = s.pktComplete)) ∧
    ∃ t, schedSteps (n - start) s = .next t ∧ t.isFree sl = true ∧ t.pktComplete = true ∧ t.fault = s.fault ∧
      (s.idlePolicy = .disable → t.trackEn = false ∧ t.curBuf = sl.buf ∧ t.curIdx.toNat = n) ∧
      (s.idlePolicy = .loop → t.trackEn = s.trackEn ∧ t.curBuf = .idle ∧ t.curIdx = 0)

/-- R144: at the last cell of the active slot with the other slot queued, one step writes that cell and the next writes the
queued slot's cell 0: none dropped, none duplicated. -/
def Obligations.SwapLosesNoCell : Prop :=
  ∀ (s : State) (sl : Slot), s.Playable → s.AtBoundary → s.curBuf = sl.buf → s.isFree sl.other = false →
    ∃ t u, exec .schedStep s = .next t ∧ exec .schedStep t = .next u ∧
      (⟨t.tmrP, t.tmrQ, t.tmrR⟩ : BitCell) = s.cell sl.buf s.curIdx.toNat ∧
      (⟨u.tmrP, u.tmrQ, u.tmrR⟩ : BitCell) = s.cell sl.other.buf 0 ∧
      t.curBuf = sl.other.buf ∧ t.curIdx = 0 ∧ t.isFree sl = true ∧ u.fault = s.fault

/-- R247: with SCOPE_OFFSET `m` at least 1, DBG_OUT is 1 during the step that writes cell `m - 1` of a slot packet started by
a swap (cursor on cell 0), and cell `m` of one started by a handoff (cursor on cell 1). -/
def Obligations.ScopeTriggerMarksOneCell : Prop :=
  ∀ (s : State) (sl : Slot) (n start j : Nat), s.Holds sl n → start ≤ 1 → s.curBuf = sl.buf →
    s.curIdx.toNat = start → s.scopeCnt = s.cfg.scopeOffset → 1 ≤ s.cfg.scopeOffset.toNat → start + j < n →
    ∃ u, schedSteps (j + 1) s = .next u ∧ (⟨u.tmrP, u.tmrQ, u.tmrR⟩ : BitCell) = s.cell sl.buf (start + j) ∧
      (u.dbgOut = true ↔ start + j + 1 = s.cfg.scopeOffset.toNat + start)

/-- R243: after the step that turns the track off at a boundary, ENABLE_TRACK makes the next step fault, which is a next state
(log 3). -/
def Obligations.EnableAfterDisableBoundaryFaults : Prop :=
  ∀ s t : State, s.fault = 0 → s.trackEn = true → exec .schedStep s = .next t → t.trackEn = false → t.fault = 0 →
    ∃ u v, exec .enableTrack t = .next u ∧ exec .schedStep u = .next v ∧ v.fault = 0b001 ∧ v.trackEn = false ∧
      v.evtPending = false ∧ v.tmrP = t.tmrP ∧ v.tmrQ = t.tmrQ ∧ v.tmrR = t.tmrR

/-- R145: how SCHED_STEP moves between the phases: a packet in play stays in play within it and across a swap; a boundary
with no slot queued leaves "Idle", and under DISABLE, and only there, the rest state "SlotExhausted". -/
def Obligations.SchedStepMovesBetweenPhases : Prop :=
  ∀ s : State, s.Playable → s.trackEn = true →
    (s.pktComplete = false → (¬ s.AtBoundary ∨ ∃ sl, s.SwapsTo sl) →
      ∃ t, exec .schedStep s = .next t ∧ t.isPlaying = true ∧ t.isIdle = false) ∧
    (s.AtBoundary → s.NoneQueued →
      ∃ t, exec .schedStep s = .next t ∧ t.isIdle = true ∧ t.isPlaying = false ∧
        (t.isExhausted = true ↔ s.idlePolicy = .disable))

/-! The timer and reset. -/

/-- R201: the reload boundary: when it is enabled, what it does, and that it does nothing otherwise (log 5). The overrun is
a next state (log 3). -/
def Obligations.BoundaryReloadsAndRaises : Prop :=
  ∀ s : State, s.nextMove = .timer →
    ((s.trackEn = false ∨ (s.cfg.assumeDeadline = true ∧ s.evtPending = true)) →
      step s = .next { s with agenda := s.agenda.tail, tmrWr := false }) ∧
    (s.trackEn = true → s.evtPending = false → step s = .next { s with
      agenda := s.agenda.tail, tmrWr := false, act := ⟨s.tmrP, s.tmrQ, s.tmrR⟩, evtPending := true }) ∧
    (s.trackEn = true → s.evtPending = true → s.cfg.assumeDeadline = false → step s = .next { s with
      agenda := s.agenda.tail, tmrWr := false, act := ⟨s.tmrP, s.tmrQ, s.tmrR⟩, fault := s.fault ||| 0b100,
      trackEn := false, evtPending := false })

/-- R142, R203: the timer's active cell changes at a boundary, at a rising edge of TRACK_EN or at reset, and never in a
scheduler step: a TimerWrite is not on the wire in the step that performs it. -/
def Obligations.ActiveCellLagsTheWrite : Prop :=
  (∀ s t : State, exec .schedStep s = .next t → t.act = s.act) ∧
  (∀ s t : State, step s = .next t → t.act ≠ s.act →
    (s.nextMove = .timer ∧ t.act = ⟨s.tmrP, s.tmrQ, s.tmrR⟩) ∨ s.nextMove = .rst ∨
      (s.nextMove = .host ∧ s.trackEn = false ∧ t.trackEn = true))

/-- R230: reset leaves the state the rule gives, from every state; it is the state CONFIGURE(DISABLE) produces, with STAGE,
RESULT and FAULT cleared. Neither the timer's active cell, which reset leaves unspecified (R231), nor port `bus_rdata`, for
which the spec gives no value, nor what stands outside the block is spoken of. -/
def Obligations.ResetRestoresEveryElement : Prop :=
  (∀ s : State, s.nextMove = .rst → ∃ t u, step s = .next t ∧ t.AtReset ∧ exec (.configure .disable) s = .next u ∧
    t = { u with
      stage := [], result := .ok, fault := 0, busRdata := t.busRdata, act := t.act, host := t.host, agenda := t.agenda,
      freeIdx := t.freeIdx }) ∧
  State.reset.AtReset

/-- R215, R217: which states are the end of a run, and that no agent's move changes such a state but in the turn used up and
`tmr_wr` (logs 4 and 5). -/
def Obligations.EndedRunStaysEnded : Prop :=
  (∀ s : State, s.runOver = true ↔ s.idlePolicy = .disable ∧ s.trackEn = false ∧ s.evtPending = false ∧
    s.pktComplete = true ∧ s.fault = 0 ∧ s.host = []) ∧
  (∀ s : State, s.runOver = true → s.nextMove ≠ .rst →
    step s = .next { s with agenda := s.agenda.tail, tmrWr := false })

/-! Invariants. -/

/-- Every step keeps every buffer in canonical form (log 7). -/
def Obligations.StepKeepsCanonicalMemory : Prop :=
  ∀ s t : State, s.wfMemory = true → step s = .next t → t.wfMemory = true

/-- Two buffers in canonical form that hold the same cells are the same data (log 7). -/
def Obligations.CanonicalBuffersAreUnique : Prop :=
  ∀ (cap : Nat) (m m' : Memory), m.wf cap = true → m'.wf cap = true → (∀ i, i < cap → m.read i = m'.read i) → m = m'

/-- R39 and R195, R196: every step keeps the invariant, from every state that meets it. -/
def Obligations.StepKeepsInvariant : Prop :=
  ∀ s t : State, s.Inv → step s = .next t → t.Inv

/-- The reset state meets the invariant, on every platform. -/
def Obligations.ResetMeetsInvariant : Prop :=
  State.reset.Inv ∧ ∀ (cfg : Config) (act : BitCell) (k : Nat), cfg.wf = true → (State.resetWith cfg act k).Inv

/-- R39: INV1 to INV6 in every state a run can reach, and the consequence the rule draws from INV1. -/
def Obligations.ReachableStatesMeetSpecInvariants : Prop :=
  ∀ s : State, Reachable s → s.SpecInvariants ∧
    (∀ sl, s.isQueued sl = true → s.isActive sl.other = true) ∧
    (s.curBuf = .idle → ∀ sl, s.isQueued sl = false)

/-- R195: CURSOR_OVERRUN is never reached, and EVENT_OVERRUN only when ASSUME_DEADLINE is false. -/
def Obligations.OverrunFaultsNotReached : Prop :=
  ∀ s : State, Reachable s → s.fault.getLsbD 1 = false ∧
    (s.cfg.assumeDeadline = true → s.fault.getLsbD 2 = false)

/-- R9: the parameters are arguments of the model: no step changes one (log 1). -/
def Obligations.ParametersNeverChange : Prop :=
  ∀ s t : State, step s = .next t → t.cfg = s.cfg

/-! The host encoder. -/

/-- R160, R161, R164: when buildPacket succeeds, with which error it fails otherwise, and that every packet it builds passes
the checks of LOAD_PATTERN. -/
def Obligations.BuildPacketSucceedsOrNamesError : Prop :=
  ∀ (cfg : Config) (bytes : List Byte) (w : Widths),
    ((bytes.length < 1 ∨ 6 < bytes.length) → buildPacket cfg bytes w = .error .invalidLength) ∧
    (1 ≤ bytes.length → bytes.length ≤ 6 →
      ¬ (scales cfg w.one ∧ scales cfg w.zeroTotal ∧ scales cfg w.zeroHalf ∧
        w.zeroHalf * cfg.ticksPerUs ≤ w.zeroTotal * cfg.ticksPerUs) →
      buildPacket cfg bytes w = .error .invalidCell) ∧
    (1 ≤ bytes.length → bytes.length ≤ 6 → scales cfg w.one → scales cfg w.zeroTotal → scales cfg w.zeroHalf →
      w.zeroHalf * cfg.ticksPerUs ≤ w.zeroTotal * cfg.ticksPerUs →
      ∃ cells, buildPacket cfg bytes w = .ok cells ∧ cells.length = 19 + 9 * bytes.length ∧
        lengthOk cells.length = true ∧ ∀ c ∈ cells, validCell c = true)

/-- R161, R162, R164: which cell stands where in a packet: 18 one-cells, a gap, and for each byte its bits, least
significant first, and a gap. -/
def Obligations.PacketCellsFollowTheBits : Prop :=
  ∀ (cfg : Config) (bytes : List Byte) (w : Widths) (cells : List BitCell), buildPacket cfg bytes w = .ok cells →
    (∀ i, i < 18 → cells[i]? =
      some ⟨BitVec.ofNat 32 (w.one * cfg.ticksPerUs), BitVec.ofNat 32 (w.one * cfg.ticksPerUs / 2), cfg.encRepeat⟩) ∧
    cells[18]? = some ⟨BitVec.ofNat 32 (w.zeroTotal * cfg.ticksPerUs), BitVec.ofNat 32 (w.zeroHalf * cfg.ticksPerUs),
      cfg.encRepeat⟩ ∧
    ∀ j b, bytes[j]? = some b →
      (∀ k, k < 8 → cells[19 + 9 * j + k]? = if b.getLsbD k = true then cells[0]? else cells[18]?) ∧
      cells[19 + 9 * j + 8]? = cells[18]?

/-- R165: buildPacketRepeatedByte checks its count first, and is then buildPacket of the repeated byte. -/
def Obligations.RepeatedByteIsThePacket : Prop :=
  ∀ (cfg : Config) (b : Byte) (n : Nat) (w : Widths),
    ((n < 1 ∨ 6 < n) → buildPacketRepeatedByte cfg b n w = .error .invalidLength) ∧
    (1 ≤ n → n ≤ 6 → buildPacketRepeatedByte cfg b n w = buildPacket cfg (List.replicate n b) w)

/-- R160, R161, R166, R167: when the stretched packets are built, with which error they fail otherwise, and that they pass
the checks of LOAD_PATTERN. -/
def Obligations.StretchedPacketsSucceedOrNameError : Prop :=
  ∀ (cfg : Config) (b : Byte) (w : Widths) (s1 s2 : Stretch),
    (scales cfg w.one → shapes cfg w.zeroTotal w.zeroHalf → shapes cfg s1.total s1.half →
      (∃ cells, buildPacketWithStretchedZero1 cfg b w s1 = .ok cells ∧ lengthOk cells.length = true ∧
        ∀ c ∈ cells, validCell c = true) ∧
      (shapes cfg s2.total s2.half → ∃ cells, buildPacketWithStretchedZero2 cfg b w s1 s2 = .ok cells ∧
        lengthOk cells.length = true ∧ ∀ c ∈ cells, validCell c = true)) ∧
    (¬ (scales cfg w.one ∧ shapes cfg w.zeroTotal w.zeroHalf ∧ shapes cfg s1.total s1.half) →
      buildPacketWithStretchedZero1 cfg b w s1 = .error .invalidCell) ∧
    (¬ (scales cfg w.one ∧ shapes cfg w.zeroTotal w.zeroHalf ∧ shapes cfg s1.total s1.half ∧
        shapes cfg s2.total s2.half) →
      buildPacketWithStretchedZero2 cfg b w s1 s2 = .error .invalidCell)

/-- R161, R162, R166, R167: which cell stands where in a stretched packet; and that its stretched positions are not examined:
bytes that agree above them give the same result. -/
def Obligations.StretchedBitsNotExamined : Prop :=
  ∀ (cfg : Config) (b b' : Byte) (w : Widths) (s1 s2 : Stretch),
    ((∀ k, 1 ≤ k → k < 8 → b.getLsbD k = b'.getLsbD k) →
      buildPacketWithStretchedZero1 cfg b w s1 = buildPacketWithStretchedZero1 cfg b' w s1) ∧
    ((∀ k, 2 ≤ k → k < 8 → b.getLsbD k = b'.getLsbD k) →
      buildPacketWithStretchedZero2 cfg b w s1 s2 = buildPacketWithStretchedZero2 cfg b' w s1 s2) ∧
    (∀ cells, buildPacketWithStretchedZero1 cfg b w s1 = .ok cells → StretchedLayout cfg b w [s1] cells) ∧
    (∀ cells, buildPacketWithStretchedZero2 cfg b w s1 s2 = .ok cells → StretchedLayout cfg b w [s1, s2] cells)

/-- R90, R168, R169: QUEUE of 2 to 79 valid cells has its accesses, three for each cell and one command; run one by one, with
no other agent's move between them, they leave the cells in the claimed slot, handed to the timer if the packet was complete
and queued otherwise. "No other agent's move" is said of the model's agenda (log 5): it names no agent but the host, or is
empty, where the default order of log 5 gives the host its turns because no event is pending. -/
def Obligations.QueueLoadsThePattern : Prop :=
  ∀ cells : List BitCell, 2 ≤ cells.length → cells.length ≤ 79 → (∀ c ∈ cells, validCell c = true) →
    ∃ accs, queue cells = .ok accs ∧ accs.length = 3 * cells.length + 1 ∧
    ∀ (s : State) (sl : Slot), s.host = accs → (∀ m ∈ s.agenda, m = .host) → s.evtPending = false → s.fault = 0 →
      s.Claims sl →
    ∃ t, runSteps (3 * cells.length + 1) s = .next t ∧ t.host = [] ∧ t.result = .ok ∧ t.fault = 0 ∧
      (∀ i, i < cells.length → t.cell sl.buf i = cells.getD i BitCell.zero) ∧
      t.cell sl.buf cells.length = BitCell.zero ∧
      (s.pktComplete = true → t.curBuf = sl.buf ∧ t.curIdx = 1 ∧ t.trackEn = true ∧ t.pktComplete = false ∧
        (⟨t.tmrP, t.tmrQ, t.tmrR⟩ : BitCell) = cells.getD 0 BitCell.zero) ∧
      (s.pktComplete = false → t.curBuf = s.curBuf ∧ t.curIdx = s.curIdx ∧ t.trackEn = s.trackEn ∧
        t.pktComplete = false ∧ t.tmrP = s.tmrP ∧ t.tmrQ = s.tmrQ ∧ t.tmrR = s.tmrR)

/-- R90, R113: a read of POLL_AVAIL completes in every state and changes nothing but the data returned, and the host leaves
the loop after it iff a slot is free. -/
def Obligations.PollEndsWhenASlotIsFree : Prop :=
  ∀ (s : State) (rest : List Access), ∃ t, access pollRead s = .next t ∧ t = { s with busRdata := t.busRdata } ∧
    ((s.isFree .a = true ∨ s.isFree .b = true) → pollNext t.busRdata rest = rest) ∧
    (s.isFree .a = false → s.isFree .b = false → pollNext t.busRdata rest = pollRead :: rest)

/-- R89, R90, R168: QUEUE of up to 127 cells is three writes for each cell, at the offsets and in the order of STAGE, then the
command word of `LOAD_PATTERN n`; the bus accepts those of the 80 cells that STAGE holds and refuses those of any cell beyond
(R55, R59). With more cells there is no `LOAD_PATTERN n`, and the result is INVALID_LENGTH (log 11). `loadPrebuiltPattern` is
QUEUE. -/
def Obligations.QueueExpandsByLength : Prop :=
  ∀ cells : List BitCell, loadPrebuiltPattern cells = queue cells ∧
    (cells.length ≤ 127 → ∃ accs, queue cells = .ok accs ∧ accs.length = 3 * cells.length + 1 ∧
      accs[3 * cells.length]? = some (.write 0x000 .word (BitVec.ofNat 32 (16 * cells.length + 2))) ∧
      ∀ i c, cells[i]? = some c →
        (accs[3 * i]? = some (.write (BitVec.ofNat 12 (0x100 + 16 * i)) .word c.period) ∧
          accs[3 * i + 1]? = some (.write (BitVec.ofNat 12 (0x104 + 16 * i)) .word c.pulse) ∧
          accs[3 * i + 2]? = some (.write (BitVec.ofNat 12 (0x108 + 16 * i)) .word c.rep)) ∧
        ∀ a j, accs[3 * i + j]? = some a → j < 3 →
          (i < 80 → ∃ r, a.target = .ok r) ∧ (80 ≤ i → a.target = .error .unmappedAccess)) ∧
    (127 < cells.length → queue cells = .error .invalidLength)
end

