-- ==== Sys2Proof/Laws/Encoder.lean ====
section
/-! SUPPORT. What each function of the host encoder can do (R160 to R168), said once. -/

namespace Sys2Proof.Machine

theorem ticks_ok {cfg : Config} {u : Nat} (h : scales cfg u) :
    ticks cfg u = .ok (BitVec.ofNat 32 (u * cfg.ticksPerUs)) := by
  unfold scales at h
  unfold ticks
  rw [if_neg (by omega)]

theorem ticks_error {cfg : Config} {u : Nat} (h : ¬ scales cfg u) : ticks cfg u = .error .invalidCell := by
  unfold scales at h
  unfold ticks
  rw [if_pos (by omega)]

/-- A width that scales is not cut off by its 32 bits. -/
theorem toNat_ticks {cfg : Config} {u : Nat} (h : scales cfg u) :
    (BitVec.ofNat 32 (u * cfg.ticksPerUs)).toNat = u * cfg.ticksPerUs := by
  rw [BitVec.toNat_ofNat]
  exact Nat.mod_eq_of_lt h.2

theorem oneCell_ok {cfg : Config} {u : Nat} (h : scales cfg u) :
    oneCell cfg u =
      .ok ⟨BitVec.ofNat 32 (u * cfg.ticksPerUs), BitVec.ofNat 32 (u * cfg.ticksPerUs / 2), cfg.encRepeat⟩ := by
  unfold oneCell
  rw [ticks_ok h]
  simp only [toNat_ticks h]

theorem oneCell_error {cfg : Config} {u : Nat} (h : ¬ scales cfg u) : oneCell cfg u = .error .invalidCell := by
  unfold oneCell
  rw [ticks_error h]

theorem shapeCell_ok {cfg : Config} {total half : Nat} (h : shapes cfg total half) :
    shapeCell cfg total half = .ok (tickCell cfg total half) := by
  unfold shapeCell
  rw [ticks_ok h.1, ticks_ok h.2.1]
  simp only [toNat_ticks h.1, toNat_ticks h.2.1]
  rw [if_pos h.2.2]
  rfl

theorem shapeCell_error {cfg : Config} {total half : Nat} (h : ¬ shapes cfg total half) :
    shapeCell cfg total half = .error .invalidCell := by
  unfold shapeCell
  by_cases ht : scales cfg total
  · by_cases hh : scales cfg half
    · rw [ticks_ok ht, ticks_ok hh]
      simp only [toNat_ticks ht, toNat_ticks hh]
      rw [if_neg fun hle => h ⟨ht, hh, hle⟩]
    · rw [ticks_error hh]
      split
      · contradiction
      · rfl
  · rw [ticks_error ht]

/-- A cell whose period is a width that scales is valid if its pulse is no wider. -/
theorem validCell_ticks {cfg : Config} {u : Nat} {q r : Word} (h : scales cfg u) (hq : q.toNat ≤ u * cfg.ticksPerUs) :
    validCell ⟨BitVec.ofNat 32 (u * cfg.ticksPerUs), q, r⟩ = true := by
  have hne : BitVec.ofNat 32 (u * cfg.ticksPerUs) ≠ (0 : Word) := fun he => by
    have h0 : u * cfg.ticksPerUs = 0 := (toNat_ticks h).symm.trans (congrArg BitVec.toNat he)
    exact absurd h.1 (by omega)
  simp only [validCell, toNat_ticks h, Bool.and_eq_true, bne_iff_ne, decide_eq_true_eq]
  exact ⟨hne, hq⟩

@[simp] theorem bitCells_length (b : Byte) (p : Nat) (one zero : BitCell) : (bitCells b p one zero).length = 8 - p := by
  simp [bitCells]

theorem bitCells_getElem? {b : Byte} {p k : Nat} (one zero : BitCell) (h : p + k < 8) :
    (bitCells b p one zero)[k]? = some (if b.getLsbD (p + k) = true then one else zero) := by
  simp [bitCells, show k < 8 - p by omega]

theorem bitCells_mem {b : Byte} {p : Nat} {one zero c : BitCell} (h : c ∈ bitCells b p one zero) : c = one ∨ c = zero := by
  simp only [bitCells, List.mem_map] at h
  obtain ⟨j, _, rfl⟩ := h
  split
  · exact .inl rfl
  · exact .inr rfl

@[simp] theorem byteCells_length (one zero : BitCell) (bs : List Byte) :
    (byteCells one zero bs).length = 9 * bs.length := by
  induction bs with
  | nil => rfl
  | cons b bs ih => simp [byteCells, ih]; omega

theorem byteCells_mem {one zero c : BitCell} {bs : List Byte} (h : c ∈ byteCells one zero bs) : c = one ∨ c = zero := by
  induction bs with
  | nil => simp [byteCells] at h
  | cons b bs ih =>
    rcases List.mem_append.mp h with h | h
    · exact bitCells_mem h
    · rcases List.mem_cons.mp h with h | h
      · exact .inr h
      · exact ih h

/-! The host accesses of R90. -/

theorem stageAccesses_some {i : Nat} (c : BitCell) (h : i < 240) :
    stageAccesses i c = some [.write (BitVec.ofNat 12 (0x100 + 16 * i)) .word c.period,
      .write (BitVec.ofNat 12 (0x104 + 16 * i)) .word c.pulse, .write (BitVec.ofNat 12 (0x108 + 16 * i)) .word c.rep] := by
  unfold stageAccesses
  rw [if_pos (by omega)]

theorem stageAccesses_none {i : Nat} (c : BitCell) (h : 240 ≤ i) : stageAccesses i c = none := by
  unfold stageAccesses
  rw [if_neg (by omega)]

/-- The word at byte distance `16 * i + d` from the start of STAGE is of cell `i`, and its field is that of `d`. -/
theorem busDecode_stage {i d : Nat} (hi : i < slotCap) (hd : d < 16) (h4 : d % 4 = 0) :
    busDecode (BitVec.ofNat 12 (0x100 + d + 16 * i)) .word = .ok (stageReg (16 * i + d)) := by
  unfold slotCap at hi
  have hn : (BitVec.ofNat 12 (0x100 + d + 16 * i)).toNat = 0x100 + d + 16 * i := by
    rw [BitVec.toNat_ofNat]
    exact Nat.mod_eq_of_lt (by omega)
  have hr : regAt (0x100 + d + 16 * i) = some (stageReg (16 * i + d)) := by
    unfold regAt
    rw [if_neg (by omega), if_pos (by omega), show 0x100 + d + 16 * i - 0x100 = 16 * i + d by omega]
  unfold busDecode
  rw [if_neg (by simp), hn, if_neg (by omega), hr]

/-- `STAGE i` reaches the three words of staging cell `i`, and nothing else. -/
theorem stageAccesses_targets {i : Nat} {c : BitCell} {accs : List Access} (hi : i < slotCap)
    (h : stageAccesses i c = some accs) :
    accs.map Access.target = [.ok (.stage i .period), .ok (.stage i .pulse), .ok (.stage i .rep)] := by
  rw [stageAccesses_some c (by unfold slotCap at hi; omega)] at h
  cases h
  have h0 : stageReg (16 * i + 0) = .stage i .period := by
    unfold stageReg
    rw [show (16 * i + 0) % 16 / 4 = 0 by omega, show (16 * i + 0) / 16 = i by omega]
    rfl
  have h4 : stageReg (16 * i + 4) = .stage i .pulse := by
    unfold stageReg
    rw [show (16 * i + 4) % 16 / 4 = 1 by omega, show (16 * i + 4) / 16 = i by omega]
    rfl
  have h8 : stageReg (16 * i + 8) = .stage i .rep := by
    unfold stageReg
    rw [show (16 * i + 8) % 16 / 4 = 2 by omega, show (16 * i + 8) / 16 = i by omega]
    rfl
  have b0 := busDecode_stage hi (d := 0) (by omega) rfl
  have b4 := busDecode_stage hi (d := 4) (by omega) rfl
  have b8 := busDecode_stage hi (d := 8) (by omega) rfl
  rw [h0] at b0
  rw [h4] at b4
  rw [h8] at b8
  show [busDecode _ _, busDecode _ _, busDecode _ _] = _
  rw [b0, b4, b8]

/-- A pattern whose cells lie in the window has its accesses, three for each cell. -/
theorem stagePattern_some {i : Nat} {cells : List BitCell} (h : i + cells.length ≤ 240) :
    ∃ ws, stagePattern i cells = some ws ∧ ws.length = 3 * cells.length := by
  induction cells generalizing i with
  | nil => exact ⟨[], rfl, rfl⟩
  | cons c cs ih =>
    rw [List.length_cons] at h
    obtain ⟨rest, hr, hl⟩ := ih (i := i + 1) (by omega)
    refine ⟨_, by unfold stagePattern; rw [stageAccesses_some c (by omega), hr], ?_⟩
    simp [hl]
    omega

/-- What stands at each place of a pattern's accesses. -/
theorem stagePattern_get {i k j : Nat} {cells : List BitCell} {ws : List Access} {c : BitCell}
    (h : stagePattern i cells = some ws) (hk : cells[k]? = some c) (hj : j < 3) :
    ∃ cs, stageAccesses (i + k) c = some cs ∧ ws[3 * k + j]? = cs[j]? := by
  induction cells generalizing i k ws with
  | nil => simp at hk
  | cons d ds ih =>
    unfold stagePattern at h
    split at h
    · rename_i xs rest hx hr
      cases h
      have hl : xs.length = 3 := by
        unfold stageAccesses at hx
        split at hx
        · cases hx; rfl
        · cases hx
      cases k with
      | zero =>
        cases hk
        exact ⟨xs, hx, by rw [List.getElem?_append_left (by omega)]; congr 1; omega⟩
      | succ k =>
        obtain ⟨cs, h1, h2⟩ := ih hr hk
        refine ⟨cs, by rw [← h1]; congr 1; omega, ?_⟩
        rw [List.getElem?_append_right (by omega), ← h2]
        congr 1
        omega
    · cases h

/-- `QUEUE` of cells that a `LOAD_PATTERN n` can name has its expansion (R90). -/
theorem queue_some {cells : List BitCell} (h : cells.length < 128) :
    ∃ ws, stagePattern 0 cells = some ws ∧ ws.length = 3 * cells.length ∧
      queue cells = .ok (ws ++ [.write 0x000 .word (place (BitVec.ofNat 7 cells.length) 4 ||| 0x2)]) := by
  obtain ⟨ws, hw, hl⟩ := stagePattern_some (i := 0) (cells := cells) (by omega)
  exact ⟨ws, hw, hl, by simp [queue, commandAccess, encode, hw, h]⟩

/-- Past the field `N`, `QUEUE` has no expansion (log 11). -/
theorem queue_none {cells : List BitCell} (h : 128 ≤ cells.length) : queue cells = .error .invalidLength := by
  have : commandAccess (.loadPattern cells.length) = none := by simp [commandAccess, encode]; omega
  unfold queue
  rw [this]
  split <;> simp_all

/-- The staging writes of a cell that STAGE does not hold are outside the mapped offsets (R59). -/
theorem stageAccesses_unmapped {i : Nat} {c : BitCell} {accs : List Access} (hi : slotCap ≤ i)
    (h : stageAccesses i c = some accs) : ∀ a ∈ accs, a.target = .error .unmappedAccess := by
  have key : ∀ d, d < 16 → d % 4 = 0 → 0x100 + d + 16 * i < 0x1000 →
      busDecode (BitVec.ofNat 12 (0x100 + d + 16 * i)) .word = .error .unmappedAccess := by
    intro d hd h4 hlt
    unfold slotCap at hi
    have hn : (BitVec.ofNat 12 (0x100 + d + 16 * i)).toNat = 0x100 + d + 16 * i := by
      rw [BitVec.toNat_ofNat]
      exact Nat.mod_eq_of_lt (by omega)
    have hr : regAt (0x100 + d + 16 * i) = none := by
      unfold regAt
      rw [if_neg (by omega), if_neg (by omega)]
    unfold busDecode
    rw [if_neg (by simp), hn, if_neg (by omega), hr]
  unfold stageAccesses at h
  split at h
  · cases h
    have k0 := key 0 (by omega) rfl (by omega)
    have k4 := key 4 (by omega) rfl (by omega)
    have k8 := key 8 (by omega) rfl (by omega)
    intro a ha
    simp only [List.mem_cons, List.not_mem_nil, or_false] at ha
    rcases ha with rfl | rfl | rfl
    · exact k0
    · exact k4
    · exact k8
  · cases h

/-- What follows a read of `POLL_AVAIL` that returned STATUS. -/
theorem pollAgain_iff {w : Word} : pollAgain w = true ↔ w.getLsbD 1 = false := by simp [pollAgain]

end Sys2Proof.Machine
end

