-- ==== Sys2Proof/Laws/Memory.lean ====
section
/-! SUPPORT. The laws of a cell buffer: reads after writes, and the canonical form kept by every operation. -/

namespace Sys2Proof.Machine

@[simp] theorem Memory.read_nil (i : Nat) : Memory.read [] i = BitCell.zero := rfl

theorem Memory.read_cons (k : Nat) (c : BitCell) (m : Memory) (i : Nat) :
    Memory.read ((k, c) :: m) i = if i = k then c else m.read i := by
  simp only [Memory.read, eq_comm]

theorem Memory.read_erase (m : Memory) (i j : Nat) :
    (m.erase i).read j = if j = i then BitCell.zero else m.read j := by
  induction m with
  | nil => simp [Memory.erase]
  | cons e m ih =>
    obtain ⟨k, c⟩ := e
    by_cases hk : k = i
    · simp only [Memory.erase, hk, if_pos, ih, Memory.read_cons]
      by_cases hj : j = i <;> simp [hj]
    · simp only [Memory.erase, hk, if_false, Memory.read_cons, ih]
      by_cases hj : j = i
      · subst hj; simp [Ne.symm hk]
      · simp [hj]

/-- An entry of a fresh index can be put in anywhere. -/
theorem Memory.read_insert (m : Memory) (i j : Nat) (v : BitCell) (h : ∀ e ∈ m, e.1 ≠ i) :
    (m.insert i v).read j = if j = i then v else m.read j := by
  induction m with
  | nil => simp [Memory.insert, Memory.read_cons]
  | cons e m ih =>
    obtain ⟨k, c⟩ := e
    have hk : k ≠ i := h (k, c) (by simp)
    have ih := ih fun e he => h e (by simp [he])
    by_cases hlt : i < k
    · simp only [Memory.insert, hlt, if_pos, Memory.read_cons]
    · simp only [Memory.insert, hlt, if_false, Memory.read_cons, ih]
      by_cases hj : j = i
      · subst hj; simp [Ne.symm hk]
      · simp [hj]

theorem Memory.mem_erase {m : Memory} {i : Nat} {e : Nat × BitCell} : e ∈ m.erase i ↔ e ∈ m ∧ e.1 ≠ i := by
  induction m with
  | nil => simp [Memory.erase]
  | cons d m ih =>
    obtain ⟨k, c⟩ := d
    by_cases hk : k = i
    · simp only [Memory.erase, hk, if_pos, ih, List.mem_cons]
      constructor
      · rintro ⟨h, hn⟩; exact ⟨.inr h, hn⟩
      · rintro ⟨rfl | h, hn⟩
        · exact absurd rfl hn
        · exact ⟨h, hn⟩
    · simp only [Memory.erase, hk, if_false, List.mem_cons, ih]
      constructor
      · rintro (rfl | ⟨h, hn⟩)
        · exact ⟨.inl rfl, hk⟩
        · exact ⟨.inr h, hn⟩
      · rintro ⟨rfl | h, hn⟩
        · exact .inl rfl
        · exact .inr ⟨h, hn⟩

/-- A read after a write gives the cell written at its index, and what stood there before at every other. -/
@[simp] theorem Memory.read_write (m : Memory) (i j : Nat) (v : BitCell) :
    (m.write i v).read j = if j = i then v else m.read j := by
  by_cases hv : v = BitCell.zero
  · simp [Memory.write, hv, Memory.read_erase]
  · rw [Memory.write, if_neg hv, Memory.read_insert _ _ _ _ fun e he => (Memory.mem_erase.mp he).2, Memory.read_erase]
    by_cases hj : j = i <;> simp [hj]

@[simp] theorem Memory.read_copy (src dst : Memory) (n j : Nat) :
    (Memory.copy src dst n).read j = if j < n then src.read j else dst.read j := by
  induction n with
  | zero => simp [Memory.copy]
  | succ n ih =>
    simp only [Memory.copy, Memory.read_write, ih]
    by_cases hj : j = n
    · simp [hj]
    · by_cases hlt : j < n
      · simp [hj, hlt, Nat.lt_succ_of_lt hlt]
      · simp [hj, hlt, show ¬ j < n + 1 by omega]

theorem Memory.read_ofCells (cs : List BitCell) (i j : Nat) :
    (Memory.ofCells i cs).read j = if i ≤ j then cs.getD (j - i) BitCell.zero else BitCell.zero := by
  induction cs generalizing i with
  | nil => simp [Memory.ofCells]
  | cons c cs ih =>
    have h0 : (Memory.ofCells i (c :: cs)).read j = if j = i then c else (Memory.ofCells (i + 1) cs).read j := by
      by_cases hc : c = BitCell.zero
      · simp only [Memory.ofCells, hc, if_pos]
        by_cases hj : j = i
        · subst hj; simp [ih]
        · simp [hj]
      · simp only [Memory.ofCells, hc, if_false, Memory.read_cons]
    rw [h0, ih]
    by_cases hj : j = i
    · simp [hj]
    · by_cases hle : i ≤ j
      · obtain ⟨d, rfl⟩ : ∃ d, j = i + 1 + d := ⟨j - (i + 1), by omega⟩
        simp [show i + 1 + d - i = d + 1 by omega, show i ≤ i + 1 + d by omega, hj]
      · simp [hj, hle, show ¬ i + 1 ≤ j by omega]

/-! The canonical form. -/

theorem Memory.wf_iff {cap : Nat} {m : Memory} :
    m.wf cap = true ↔ m.rising 0 = true ∧ ∀ e ∈ m, e.1 < cap ∧ e.2 ≠ BitCell.zero := by
  simp [Memory.wf]

@[simp] theorem Memory.wf_nil (cap : Nat) : Memory.wf cap [] = true := rfl

theorem Memory.rising_cons {lo k : Nat} {c : BitCell} {m : Memory} :
    Memory.rising lo ((k, c) :: m) = true ↔ lo ≤ k ∧ m.rising (k + 1) = true := by
  simp [Memory.rising]

theorem Memory.rising_mono {lo lo' : Nat} {m : Memory} (h : m.rising lo = true) (hl : lo' ≤ lo) :
    m.rising lo' = true := by
  cases m with
  | nil => rfl
  | cons e m => exact Memory.rising_cons.mpr ⟨le_trans hl (Memory.rising_cons.mp h).1, (Memory.rising_cons.mp h).2⟩

theorem Memory.rising_mem {lo : Nat} {m : Memory} (h : m.rising lo = true) : ∀ e ∈ m, lo ≤ e.1 := by
  induction m generalizing lo with
  | nil => simp
  | cons d m ih =>
    obtain ⟨hk, hm⟩ := Memory.rising_cons.mp h
    intro e he
    rcases List.mem_cons.mp he with rfl | he
    · exact hk
    · exact le_trans (Nat.le_succ_of_le hk) (ih hm e he)

theorem Memory.rising_erase {lo : Nat} {m : Memory} (i : Nat) (h : m.rising lo = true) :
    (m.erase i).rising lo = true := by
  induction m generalizing lo with
  | nil => rfl
  | cons d m ih =>
    obtain ⟨hk, hm⟩ := Memory.rising_cons.mp h
    by_cases hd : d.1 = i
    · simp only [Memory.erase, hd, if_pos]
      exact Memory.rising_mono (ih hm) (Nat.le_succ_of_le hk)
    · simp only [Memory.erase, hd, if_false]
      exact Memory.rising_cons.mpr ⟨hk, ih hm⟩

theorem Memory.rising_insert {lo i : Nat} {m : Memory} (v : BitCell) (h : m.rising lo = true) (hi : lo ≤ i)
    (hne : ∀ e ∈ m, e.1 ≠ i) : (m.insert i v).rising lo = true := by
  induction m generalizing lo with
  | nil => exact Memory.rising_cons.mpr ⟨hi, rfl⟩
  | cons d m ih =>
    obtain ⟨hk, hm⟩ := Memory.rising_cons.mp h
    have hd : d.1 ≠ i := hne d (by simp)
    by_cases hlt : i < d.1
    · simp only [Memory.insert, hlt, if_pos]
      exact Memory.rising_cons.mpr ⟨hi, Memory.rising_cons.mpr ⟨hlt, hm⟩⟩
    · simp only [Memory.insert, hlt, if_false]
      exact Memory.rising_cons.mpr ⟨hk, ih hm (by omega) fun e he => hne e (by simp [he])⟩

theorem Memory.mem_insert {m : Memory} {i : Nat} {v : BitCell} {e : Nat × BitCell} :
    e ∈ m.insert i v ↔ e = (i, v) ∨ e ∈ m := by
  induction m with
  | nil => simp [Memory.insert]
  | cons d m ih =>
    by_cases hlt : i < d.1
    · simp [Memory.insert, hlt]
    · simp only [Memory.insert, hlt, if_false, List.mem_cons, ih]
      exact or_left_comm

/-- Writing an index of the buffer keeps the canonical form. -/
theorem Memory.wf_write {cap i : Nat} {m : Memory} (v : BitCell) (h : m.wf cap = true) (hi : i < cap) :
    (m.write i v).wf cap = true := by
  obtain ⟨hr, hm⟩ := Memory.wf_iff.mp h
  by_cases hv : v = BitCell.zero
  · rw [Memory.write, if_pos hv]
    exact Memory.wf_iff.mpr ⟨Memory.rising_erase i hr, fun e he => hm e (Memory.mem_erase.mp he).1⟩
  · rw [Memory.write, if_neg hv]
    refine Memory.wf_iff.mpr ⟨Memory.rising_insert v (Memory.rising_erase i hr) (Nat.zero_le i)
      fun e he => (Memory.mem_erase.mp he).2, fun e he => ?_⟩
    rcases Memory.mem_insert.mp he with rfl | he
    · exact ⟨hi, hv⟩
    · exact hm e (Memory.mem_erase.mp he).1

/-- Copying cells of one buffer over indices of another keeps the other's canonical form. -/
theorem Memory.wf_copy {cap : Nat} (src : Memory) {dst : Memory} {n : Nat} (h : dst.wf cap = true) (hn : n ≤ cap) :
    (Memory.copy src dst n).wf cap = true := by
  induction n with
  | zero => exact h
  | succ n ih => exact Memory.wf_write _ (ih (by omega)) (by omega)

theorem Memory.rising_ofCells (cs : List BitCell) (i : Nat) : (Memory.ofCells i cs).rising i = true := by
  induction cs generalizing i with
  | nil => rfl
  | cons c cs ih =>
    by_cases hc : c = BitCell.zero
    · simp only [Memory.ofCells, hc, if_pos]
      exact Memory.rising_mono (ih (i + 1)) (Nat.le_succ i)
    · simp only [Memory.ofCells, hc, if_false]
      exact Memory.rising_cons.mpr ⟨le_refl i, ih (i + 1)⟩

theorem Memory.mem_ofCells {cs : List BitCell} {i : Nat} :
    ∀ e ∈ Memory.ofCells i cs, e.1 < i + cs.length ∧ e.2 ≠ BitCell.zero := by
  induction cs generalizing i with
  | nil => simp [Memory.ofCells]
  | cons c cs ih =>
    intro e he
    by_cases hc : c = BitCell.zero
    · simp only [Memory.ofCells, hc, if_pos] at he
      have := ih e he
      exact ⟨by simp; omega, this.2⟩
    · simp only [Memory.ofCells, hc, if_false, List.mem_cons] at he
      rcases he with rfl | he
      · exact ⟨by simp, hc⟩
      · have := ih e he
        exact ⟨by simp; omega, this.2⟩

/-- A list of cells that fits the buffer is laid out in canonical form. -/
theorem Memory.wf_ofCells {cap : Nat} {cs : List BitCell} (h : cs.length ≤ cap) :
    (Memory.ofCells 0 cs).wf cap = true :=
  Memory.wf_iff.mpr ⟨Memory.rising_ofCells cs 0, fun e he =>
    ⟨by have := (Memory.mem_ofCells e he).1; omega, (Memory.mem_ofCells e he).2⟩⟩

/-- An index below the first entry reads as an unlisted one. -/
theorem Memory.read_below {lo i : Nat} {m : Memory} (h : m.rising lo = true) (hi : i < lo) :
    m.read i = BitCell.zero := by
  induction m generalizing lo with
  | nil => rfl
  | cons d m ih =>
    obtain ⟨hk, hm⟩ := Memory.rising_cons.mp h
    rw [Memory.read_cons, if_neg (by omega)]
    exact ih hm (by omega)

/-- An index at or above the capacity is listed by no canonical buffer. -/
theorem Memory.read_above {cap i : Nat} {m : Memory} (h : m.wf cap = true) (hi : cap ≤ i) :
    m.read i = BitCell.zero := by
  have hm := (Memory.wf_iff.mp h).2
  clear h
  induction m with
  | nil => rfl
  | cons d m ih =>
    have := (hm d (by simp)).1
    rw [Memory.read_cons, if_neg (by omega)]
    exact ih fun e he => hm e (by simp [he])

end Sys2Proof.Machine
end

