-- ==== Sys2Proof/Laws/State.lean ====
section
/-! SUPPORT. One lemma per field per named update of the state, so that no later proof unfolds a record update. -/

namespace Sys2Proof.Machine

/-! setSlot -/

@[simp] theorem State.setSlot_cfg (s : State) (sl : Slot) (m : Memory) : (s.setSlot sl m).cfg = s.cfg := rfl
@[simp] theorem State.setSlot_idle (s : State) (sl : Slot) (m : Memory) : (s.setSlot sl m).idle = s.idle := rfl
@[simp] theorem State.setSlot_stage (s : State) (sl : Slot) (m : Memory) : (s.setSlot sl m).stage = s.stage := rfl
@[simp] theorem State.setSlot_curBuf (s : State) (sl : Slot) (m : Memory) : (s.setSlot sl m).curBuf = s.curBuf := rfl
@[simp] theorem State.setSlot_curIdx (s : State) (sl : Slot) (m : Memory) : (s.setSlot sl m).curIdx = s.curIdx := rfl
@[simp] theorem State.setSlot_scopeCnt (s : State) (sl : Slot) (m : Memory) : (s.setSlot sl m).scopeCnt = s.scopeCnt := rfl
@[simp] theorem State.setSlot_pktComplete (s : State) (sl : Slot) (m : Memory) : (s.setSlot sl m).pktComplete = s.pktComplete := rfl
@[simp] theorem State.setSlot_trackEn (s : State) (sl : Slot) (m : Memory) : (s.setSlot sl m).trackEn = s.trackEn := rfl
@[simp] theorem State.setSlot_dbgOut (s : State) (sl : Slot) (m : Memory) : (s.setSlot sl m).dbgOut = s.dbgOut := rfl
@[simp] theorem State.setSlot_evtPending (s : State) (sl : Slot) (m : Memory) : (s.setSlot sl m).evtPending = s.evtPending := rfl
@[simp] theorem State.setSlot_idlePolicy (s : State) (sl : Slot) (m : Memory) : (s.setSlot sl m).idlePolicy = s.idlePolicy := rfl
@[simp] theorem State.setSlot_result (s : State) (sl : Slot) (m : Memory) : (s.setSlot sl m).result = s.result := rfl
@[simp] theorem State.setSlot_fault (s : State) (sl : Slot) (m : Memory) : (s.setSlot sl m).fault = s.fault := rfl
@[simp] theorem State.setSlot_tmrP (s : State) (sl : Slot) (m : Memory) : (s.setSlot sl m).tmrP = s.tmrP := rfl
@[simp] theorem State.setSlot_tmrQ (s : State) (sl : Slot) (m : Memory) : (s.setSlot sl m).tmrQ = s.tmrQ := rfl
@[simp] theorem State.setSlot_tmrR (s : State) (sl : Slot) (m : Memory) : (s.setSlot sl m).tmrR = s.tmrR := rfl
@[simp] theorem State.setSlot_tmrWr (s : State) (sl : Slot) (m : Memory) : (s.setSlot sl m).tmrWr = s.tmrWr := rfl
@[simp] theorem State.setSlot_busRdata (s : State) (sl : Slot) (m : Memory) : (s.setSlot sl m).busRdata = s.busRdata := rfl
@[simp] theorem State.setSlot_act (s : State) (sl : Slot) (m : Memory) : (s.setSlot sl m).act = s.act := rfl
@[simp] theorem State.setSlot_host (s : State) (sl : Slot) (m : Memory) : (s.setSlot sl m).host = s.host := rfl
@[simp] theorem State.setSlot_agenda (s : State) (sl : Slot) (m : Memory) : (s.setSlot sl m).agenda = s.agenda := rfl
@[simp] theorem State.setSlot_freeIdx (s : State) (sl : Slot) (m : Memory) : (s.setSlot sl m).freeIdx = s.freeIdx := rfl
@[simp] theorem State.setSlot_pre (s : State) (sl : Slot) (m : Memory) : (s.setSlot sl m).pre = s.pre := rfl
@[simp] theorem State.setSlot_halted (s : State) (sl : Slot) (m : Memory) : (s.setSlot sl m).halted = s.halted := rfl

/-! setCursor -/

@[simp] theorem State.setCursor_cfg (s : State) (b : Buf) (i : BitVec 7) : (s.setCursor b i).cfg = s.cfg := rfl
@[simp] theorem State.setCursor_slotA (s : State) (b : Buf) (i : BitVec 7) : (s.setCursor b i).slotA = s.slotA := rfl
@[simp] theorem State.setCursor_slotB (s : State) (b : Buf) (i : BitVec 7) : (s.setCursor b i).slotB = s.slotB := rfl
@[simp] theorem State.setCursor_idle (s : State) (b : Buf) (i : BitVec 7) : (s.setCursor b i).idle = s.idle := rfl
@[simp] theorem State.setCursor_stage (s : State) (b : Buf) (i : BitVec 7) : (s.setCursor b i).stage = s.stage := rfl
@[simp] theorem State.setCursor_curBuf (s : State) (b : Buf) (i : BitVec 7) : (s.setCursor b i).curBuf = b := rfl
@[simp] theorem State.setCursor_curIdx (s : State) (b : Buf) (i : BitVec 7) : (s.setCursor b i).curIdx = i := rfl
@[simp] theorem State.setCursor_scopeCnt (s : State) (b : Buf) (i : BitVec 7) : (s.setCursor b i).scopeCnt = s.scopeCnt := rfl
@[simp] theorem State.setCursor_pktComplete (s : State) (b : Buf) (i : BitVec 7) : (s.setCursor b i).pktComplete = s.pktComplete := rfl
@[simp] theorem State.setCursor_trackEn (s : State) (b : Buf) (i : BitVec 7) : (s.setCursor b i).trackEn = s.trackEn := rfl
@[simp] theorem State.setCursor_dbgOut (s : State) (b : Buf) (i : BitVec 7) : (s.setCursor b i).dbgOut = s.dbgOut := rfl
@[simp] theorem State.setCursor_evtPending (s : State) (b : Buf) (i : BitVec 7) : (s.setCursor b i).evtPending = s.evtPending := rfl
@[simp] theorem State.setCursor_idlePolicy (s : State) (b : Buf) (i : BitVec 7) : (s.setCursor b i).idlePolicy = s.idlePolicy := rfl
@[simp] theorem State.setCursor_result (s : State) (b : Buf) (i : BitVec 7) : (s.setCursor b i).result = s.result := rfl
@[simp] theorem State.setCursor_fault (s : State) (b : Buf) (i : BitVec 7) : (s.setCursor b i).fault = s.fault := rfl
@[simp] theorem State.setCursor_tmrP (s : State) (b : Buf) (i : BitVec 7) : (s.setCursor b i).tmrP = s.tmrP := rfl
@[simp] theorem State.setCursor_tmrQ (s : State) (b : Buf) (i : BitVec 7) : (s.setCursor b i).tmrQ = s.tmrQ := rfl
@[simp] theorem State.setCursor_tmrR (s : State) (b : Buf) (i : BitVec 7) : (s.setCursor b i).tmrR = s.tmrR := rfl
@[simp] theorem State.setCursor_tmrWr (s : State) (b : Buf) (i : BitVec 7) : (s.setCursor b i).tmrWr = s.tmrWr := rfl
@[simp] theorem State.setCursor_busRdata (s : State) (b : Buf) (i : BitVec 7) : (s.setCursor b i).busRdata = s.busRdata := rfl
@[simp] theorem State.setCursor_act (s : State) (b : Buf) (i : BitVec 7) : (s.setCursor b i).act = s.act := rfl
@[simp] theorem State.setCursor_host (s : State) (b : Buf) (i : BitVec 7) : (s.setCursor b i).host = s.host := rfl
@[simp] theorem State.setCursor_agenda (s : State) (b : Buf) (i : BitVec 7) : (s.setCursor b i).agenda = s.agenda := rfl
@[simp] theorem State.setCursor_freeIdx (s : State) (b : Buf) (i : BitVec 7) : (s.setCursor b i).freeIdx = s.freeIdx := rfl
@[simp] theorem State.setCursor_buffer (s : State) (b : Buf) (i : BitVec 7) (bf : Buf) : (s.setCursor b i).buffer bf = s.buffer bf := rfl
@[simp] theorem State.setCursor_cell (s : State) (b : Buf) (i : BitVec 7) (bf : Buf) (k : Nat) : (s.setCursor b i).cell bf k = s.cell bf k := rfl
@[simp] theorem State.setCursor_isFree (s : State) (b : Buf) (i : BitVec 7) (x : Slot) : (s.setCursor b i).isFree x = s.isFree x := rfl
@[simp] theorem State.setCursor_pre (s : State) (b : Buf) (i : BitVec 7) : (s.setCursor b i).pre = s.pre := rfl
@[simp] theorem State.setCursor_halted (s : State) (b : Buf) (i : BitVec 7) : (s.setCursor b i).halted = s.halted := rfl

/-! setResult -/

@[simp] theorem State.setResult_cfg (s : State) (r : ResultCode) : (s.setResult r).cfg = s.cfg := rfl
@[simp] theorem State.setResult_slotA (s : State) (r : ResultCode) : (s.setResult r).slotA = s.slotA := rfl
@[simp] theorem State.setResult_slotB (s : State) (r : ResultCode) : (s.setResult r).slotB = s.slotB := rfl
@[simp] theorem State.setResult_idle (s : State) (r : ResultCode) : (s.setResult r).idle = s.idle := rfl
@[simp] theorem State.setResult_stage (s : State) (r : ResultCode) : (s.setResult r).stage = s.stage := rfl
@[simp] theorem State.setResult_curBuf (s : State) (r : ResultCode) : (s.setResult r).curBuf = s.curBuf := rfl
@[simp] theorem State.setResult_curIdx (s : State) (r : ResultCode) : (s.setResult r).curIdx = s.curIdx := rfl
@[simp] theorem State.setResult_scopeCnt (s : State) (r : ResultCode) : (s.setResult r).scopeCnt = s.scopeCnt := rfl
@[simp] theorem State.setResult_pktComplete (s : State) (r : ResultCode) : (s.setResult r).pktComplete = s.pktComplete := rfl
@[simp] theorem State.setResult_trackEn (s : State) (r : ResultCode) : (s.setResult r).trackEn = s.trackEn := rfl
@[simp] theorem State.setResult_dbgOut (s : State) (r : ResultCode) : (s.setResult r).dbgOut = s.dbgOut := rfl
@[simp] theorem State.setResult_evtPending (s : State) (r : ResultCode) : (s.setResult r).evtPending = s.evtPending := rfl
@[simp] theorem State.setResult_idlePolicy (s : State) (r : ResultCode) : (s.setResult r).idlePolicy = s.idlePolicy := rfl
@[simp] theorem State.setResult_result (s : State) (r : ResultCode) : (s.setResult r).result = r := rfl
@[simp] theorem State.setResult_fault (s : State) (r : ResultCode) : (s.setResult r).fault = s.fault := rfl
@[simp] theorem State.setResult_tmrP (s : State) (r : ResultCode) : (s.setResult r).tmrP = s.tmrP := rfl
@[simp] theorem State.setResult_tmrQ (s : State) (r : ResultCode) : (s.setResult r).tmrQ = s.tmrQ := rfl
@[simp] theorem State.setResult_tmrR (s : State) (r : ResultCode) : (s.setResult r).tmrR = s.tmrR := rfl
@[simp] theorem State.setResult_tmrWr (s : State) (r : ResultCode) : (s.setResult r).tmrWr = s.tmrWr := rfl
@[simp] theorem State.setResult_busRdata (s : State) (r : ResultCode) : (s.setResult r).busRdata = s.busRdata := rfl
@[simp] theorem State.setResult_act (s : State) (r : ResultCode) : (s.setResult r).act = s.act := rfl
@[simp] theorem State.setResult_host (s : State) (r : ResultCode) : (s.setResult r).host = s.host := rfl
@[simp] theorem State.setResult_agenda (s : State) (r : ResultCode) : (s.setResult r).agenda = s.agenda := rfl
@[simp] theorem State.setResult_freeIdx (s : State) (r : ResultCode) : (s.setResult r).freeIdx = s.freeIdx := rfl
@[simp] theorem State.setResult_buffer (s : State) (r : ResultCode) (bf : Buf) : (s.setResult r).buffer bf = s.buffer bf := rfl
@[simp] theorem State.setResult_cell (s : State) (r : ResultCode) (bf : Buf) (k : Nat) : (s.setResult r).cell bf k = s.cell bf k := rfl
@[simp] theorem State.setResult_isFree (s : State) (r : ResultCode) (x : Slot) : (s.setResult r).isFree x = s.isFree x := rfl
@[simp] theorem State.setResult_cursorCell (s : State) (r : ResultCode) : (s.setResult r).cursorCell = s.cursorCell := rfl
@[simp] theorem State.setResult_pre (s : State) (r : ResultCode) : (s.setResult r).pre = s.pre := rfl
@[simp] theorem State.setResult_halted (s : State) (r : ResultCode) : (s.setResult r).halted = s.halted := rfl

/-! timerWrite -/

@[simp] theorem State.timerWrite_cfg (s : State) (c : BitCell) : (s.timerWrite c).cfg = s.cfg := rfl
@[simp] theorem State.timerWrite_slotA (s : State) (c : BitCell) : (s.timerWrite c).slotA = s.slotA := rfl
@[simp] theorem State.timerWrite_slotB (s : State) (c : BitCell) : (s.timerWrite c).slotB = s.slotB := rfl
@[simp] theorem State.timerWrite_idle (s : State) (c : BitCell) : (s.timerWrite c).idle = s.idle := rfl
@[simp] theorem State.timerWrite_stage (s : State) (c : BitCell) : (s.timerWrite c).stage = s.stage := rfl
@[simp] theorem State.timerWrite_curBuf (s : State) (c : BitCell) : (s.timerWrite c).curBuf = s.curBuf := rfl
@[simp] theorem State.timerWrite_curIdx (s : State) (c : BitCell) : (s.timerWrite c).curIdx = s.curIdx := rfl
@[simp] theorem State.timerWrite_scopeCnt (s : State) (c : BitCell) : (s.timerWrite c).scopeCnt = s.scopeCnt := rfl
@[simp] theorem State.timerWrite_pktComplete (s : State) (c : BitCell) : (s.timerWrite c).pktComplete = s.pktComplete := rfl
@[simp] theorem State.timerWrite_trackEn (s : State) (c : BitCell) : (s.timerWrite c).trackEn = s.trackEn := rfl
@[simp] theorem State.timerWrite_dbgOut (s : State) (c : BitCell) : (s.timerWrite c).dbgOut = s.dbgOut := rfl
@[simp] theorem State.timerWrite_evtPending (s : State) (c : BitCell) : (s.timerWrite c).evtPending = s.evtPending := rfl
@[simp] theorem State.timerWrite_idlePolicy (s : State) (c : BitCell) : (s.timerWrite c).idlePolicy = s.idlePolicy := rfl
@[simp] theorem State.timerWrite_result (s : State) (c : BitCell) : (s.timerWrite c).result = s.result := rfl
@[simp] theorem State.timerWrite_fault (s : State) (c : BitCell) : (s.timerWrite c).fault = s.fault := rfl
@[simp] theorem State.timerWrite_tmrP (s : State) (c : BitCell) : (s.timerWrite c).tmrP = c.period := rfl
@[simp] theorem State.timerWrite_tmrQ (s : State) (c : BitCell) : (s.timerWrite c).tmrQ = c.pulse := rfl
@[simp] theorem State.timerWrite_tmrR (s : State) (c : BitCell) : (s.timerWrite c).tmrR = c.rep := rfl
@[simp] theorem State.timerWrite_tmrWr (s : State) (c : BitCell) : (s.timerWrite c).tmrWr = true := rfl
@[simp] theorem State.timerWrite_busRdata (s : State) (c : BitCell) : (s.timerWrite c).busRdata = s.busRdata := rfl
@[simp] theorem State.timerWrite_act (s : State) (c : BitCell) : (s.timerWrite c).act = s.act := rfl
@[simp] theorem State.timerWrite_host (s : State) (c : BitCell) : (s.timerWrite c).host = s.host := rfl
@[simp] theorem State.timerWrite_agenda (s : State) (c : BitCell) : (s.timerWrite c).agenda = s.agenda := rfl
@[simp] theorem State.timerWrite_freeIdx (s : State) (c : BitCell) : (s.timerWrite c).freeIdx = s.freeIdx := rfl
@[simp] theorem State.timerWrite_buffer (s : State) (c : BitCell) (bf : Buf) : (s.timerWrite c).buffer bf = s.buffer bf := rfl
@[simp] theorem State.timerWrite_cell (s : State) (c : BitCell) (bf : Buf) (k : Nat) : (s.timerWrite c).cell bf k = s.cell bf k := rfl
@[simp] theorem State.timerWrite_isFree (s : State) (c : BitCell) (x : Slot) : (s.timerWrite c).isFree x = s.isFree x := rfl
@[simp] theorem State.timerWrite_cursorCell (s : State) (c : BitCell) : (s.timerWrite c).cursorCell = s.cursorCell := rfl
@[simp] theorem State.timerWrite_halted (s : State) (c : BitCell) : (s.timerWrite c).halted = s.halted := rfl

/-! resetScope -/

@[simp] theorem State.resetScope_cfg (s : State) : (s.resetScope).cfg = s.cfg := rfl
@[simp] theorem State.resetScope_slotA (s : State) : (s.resetScope).slotA = s.slotA := rfl
@[simp] theorem State.resetScope_slotB (s : State) : (s.resetScope).slotB = s.slotB := rfl
@[simp] theorem State.resetScope_idle (s : State) : (s.resetScope).idle = s.idle := rfl
@[simp] theorem State.resetScope_stage (s : State) : (s.resetScope).stage = s.stage := rfl
@[simp] theorem State.resetScope_curBuf (s : State) : (s.resetScope).curBuf = s.curBuf := rfl
@[simp] theorem State.resetScope_curIdx (s : State) : (s.resetScope).curIdx = s.curIdx := rfl
@[simp] theorem State.resetScope_scopeCnt (s : State) : (s.resetScope).scopeCnt = s.cfg.scopeOffset := rfl
@[simp] theorem State.resetScope_pktComplete (s : State) : (s.resetScope).pktComplete = s.pktComplete := rfl
@[simp] theorem State.resetScope_trackEn (s : State) : (s.resetScope).trackEn = s.trackEn := rfl
@[simp] theorem State.resetScope_dbgOut (s : State) : (s.resetScope).dbgOut = s.dbgOut := rfl
@[simp] theorem State.resetScope_evtPending (s : State) : (s.resetScope).evtPending = s.evtPending := rfl
@[simp] theorem State.resetScope_idlePolicy (s : State) : (s.resetScope).idlePolicy = s.idlePolicy := rfl
@[simp] theorem State.resetScope_result (s : State) : (s.resetScope).result = s.result := rfl
@[simp] theorem State.resetScope_fault (s : State) : (s.resetScope).fault = s.fault := rfl
@[simp] theorem State.resetScope_tmrP (s : State) : (s.resetScope).tmrP = s.tmrP := rfl
@[simp] theorem State.resetScope_tmrQ (s : State) : (s.resetScope).tmrQ = s.tmrQ := rfl
@[simp] theorem State.resetScope_tmrR (s : State) : (s.resetScope).tmrR = s.tmrR := rfl
@[simp] theorem State.resetScope_tmrWr (s : State) : (s.resetScope).tmrWr = s.tmrWr := rfl
@[simp] theorem State.resetScope_busRdata (s : State) : (s.resetScope).busRdata = s.busRdata := rfl
@[simp] theorem State.resetScope_act (s : State) : (s.resetScope).act = s.act := rfl
@[simp] theorem State.resetScope_host (s : State) : (s.resetScope).host = s.host := rfl
@[simp] theorem State.resetScope_agenda (s : State) : (s.resetScope).agenda = s.agenda := rfl
@[simp] theorem State.resetScope_freeIdx (s : State) : (s.resetScope).freeIdx = s.freeIdx := rfl
@[simp] theorem State.resetScope_buffer (s : State) (bf : Buf) : (s.resetScope).buffer bf = s.buffer bf := rfl
@[simp] theorem State.resetScope_cell (s : State) (bf : Buf) (k : Nat) : (s.resetScope).cell bf k = s.cell bf k := rfl
@[simp] theorem State.resetScope_isFree (s : State) (x : Slot) : (s.resetScope).isFree x = s.isFree x := rfl
@[simp] theorem State.resetScope_cursorCell (s : State) : (s.resetScope).cursorCell = s.cursorCell := rfl
@[simp] theorem State.resetScope_pre (s : State) : (s.resetScope).pre = s.pre := rfl
@[simp] theorem State.resetScope_halted (s : State) : (s.resetScope).halted = s.halted := rfl

/-! setComplete -/

@[simp] theorem State.setComplete_cfg (s : State) (v : Bool) : (s.setComplete v).cfg = s.cfg := rfl
@[simp] theorem State.setComplete_slotA (s : State) (v : Bool) : (s.setComplete v).slotA = s.slotA := rfl
@[simp] theorem State.setComplete_slotB (s : State) (v : Bool) : (s.setComplete v).slotB = s.slotB := rfl
@[simp] theorem State.setComplete_idle (s : State) (v : Bool) : (s.setComplete v).idle = s.idle := rfl
@[simp] theorem State.setComplete_stage (s : State) (v : Bool) : (s.setComplete v).stage = s.stage := rfl
@[simp] theorem State.setComplete_curBuf (s : State) (v : Bool) : (s.setComplete v).curBuf = s.curBuf := rfl
@[simp] theorem State.setComplete_curIdx (s : State) (v : Bool) : (s.setComplete v).curIdx = s.curIdx := rfl
@[simp] theorem State.setComplete_scopeCnt (s : State) (v : Bool) : (s.setComplete v).scopeCnt = s.scopeCnt := rfl
@[simp] theorem State.setComplete_pktComplete (s : State) (v : Bool) : (s.setComplete v).pktComplete = v := rfl
@[simp] theorem State.setComplete_trackEn (s : State) (v : Bool) : (s.setComplete v).trackEn = s.trackEn := rfl
@[simp] theorem State.setComplete_dbgOut (s : State) (v : Bool) : (s.setComplete v).dbgOut = s.dbgOut := rfl
@[simp] theorem State.setComplete_evtPending (s : State) (v : Bool) : (s.setComplete v).evtPending = s.evtPending := rfl
@[simp] theorem State.setComplete_idlePolicy (s : State) (v : Bool) : (s.setComplete v).idlePolicy = s.idlePolicy := rfl
@[simp] theorem State.setComplete_result (s : State) (v : Bool) : (s.setComplete v).result = s.result := rfl
@[simp] theorem State.setComplete_fault (s : State) (v : Bool) : (s.setComplete v).fault = s.fault := rfl
@[simp] theorem State.setComplete_tmrP (s : State) (v : Bool) : (s.setComplete v).tmrP = s.tmrP := rfl
@[simp] theorem State.setComplete_tmrQ (s : State) (v : Bool) : (s.setComplete v).tmrQ = s.tmrQ := rfl
@[simp] theorem State.setComplete_tmrR (s : State) (v : Bool) : (s.setComplete v).tmrR = s.tmrR := rfl
@[simp] theorem State.setComplete_tmrWr (s : State) (v : Bool) : (s.setComplete v).tmrWr = s.tmrWr := rfl
@[simp] theorem State.setComplete_busRdata (s : State) (v : Bool) : (s.setComplete v).busRdata = s.busRdata := rfl
@[simp] theorem State.setComplete_act (s : State) (v : Bool) : (s.setComplete v).act = s.act := rfl
@[simp] theorem State.setComplete_host (s : State) (v : Bool) : (s.setComplete v).host = s.host := rfl
@[simp] theorem State.setComplete_agenda (s : State) (v : Bool) : (s.setComplete v).agenda = s.agenda := rfl
@[simp] theorem State.setComplete_freeIdx (s : State) (v : Bool) : (s.setComplete v).freeIdx = s.freeIdx := rfl
@[simp] theorem State.setComplete_buffer (s : State) (v : Bool) (bf : Buf) : (s.setComplete v).buffer bf = s.buffer bf := rfl
@[simp] theorem State.setComplete_cell (s : State) (v : Bool) (bf : Buf) (k : Nat) : (s.setComplete v).cell bf k = s.cell bf k := rfl
@[simp] theorem State.setComplete_isFree (s : State) (v : Bool) (x : Slot) : (s.setComplete v).isFree x = s.isFree x := rfl
@[simp] theorem State.setComplete_cursorCell (s : State) (v : Bool) : (s.setComplete v).cursorCell = s.cursorCell := rfl
@[simp] theorem State.setComplete_pre (s : State) (v : Bool) : (s.setComplete v).pre = s.pre := rfl
@[simp] theorem State.setComplete_halted (s : State) (v : Bool) : (s.setComplete v).halted = s.halted := rfl

/-! trackOff -/

@[simp] theorem State.trackOff_cfg (s : State) : (s.trackOff).cfg = s.cfg := rfl
@[simp] theorem State.trackOff_slotA (s : State) : (s.trackOff).slotA = s.slotA := rfl
@[simp] theorem State.trackOff_slotB (s : State) : (s.trackOff).slotB = s.slotB := rfl
@[simp] theorem State.trackOff_idle (s : State) : (s.trackOff).idle = s.idle := rfl
@[simp] theorem State.trackOff_stage (s : State) : (s.trackOff).stage = s.stage := rfl
@[simp] theorem State.trackOff_curBuf (s : State) : (s.trackOff).curBuf = s.curBuf := rfl
@[simp] theorem State.trackOff_curIdx (s : State) : (s.trackOff).curIdx = s.curIdx := rfl
@[simp] theorem State.trackOff_scopeCnt (s : State) : (s.trackOff).scopeCnt = s.scopeCnt := rfl
@[simp] theorem State.trackOff_pktComplete (s : State) : (s.trackOff).pktComplete = s.pktComplete := rfl
@[simp] theorem State.trackOff_trackEn (s : State) : (s.trackOff).trackEn = false := rfl
@[simp] theorem State.trackOff_dbgOut (s : State) : (s.trackOff).dbgOut = s.dbgOut := rfl
@[simp] theorem State.trackOff_evtPending (s : State) : (s.trackOff).evtPending = s.evtPending := rfl
@[simp] theorem State.trackOff_idlePolicy (s : State) : (s.trackOff).idlePolicy = s.idlePolicy := rfl
@[simp] theorem State.trackOff_result (s : State) : (s.trackOff).result = s.result := rfl
@[simp] theorem State.trackOff_fault (s : State) : (s.trackOff).fault = s.fault := rfl
@[simp] theorem State.trackOff_tmrP (s : State) : (s.trackOff).tmrP = s.tmrP := rfl
@[simp] theorem State.trackOff_tmrQ (s : State) : (s.trackOff).tmrQ = s.tmrQ := rfl
@[simp] theorem State.trackOff_tmrR (s : State) : (s.trackOff).tmrR = s.tmrR := rfl
@[simp] theorem State.trackOff_tmrWr (s : State) : (s.trackOff).tmrWr = s.tmrWr := rfl
@[simp] theorem State.trackOff_busRdata (s : State) : (s.trackOff).busRdata = s.busRdata := rfl
@[simp] theorem State.trackOff_act (s : State) : (s.trackOff).act = s.act := rfl
@[simp] theorem State.trackOff_host (s : State) : (s.trackOff).host = s.host := rfl
@[simp] theorem State.trackOff_agenda (s : State) : (s.trackOff).agenda = s.agenda := rfl
@[simp] theorem State.trackOff_freeIdx (s : State) : (s.trackOff).freeIdx = s.freeIdx := rfl
@[simp] theorem State.trackOff_buffer (s : State) (bf : Buf) : (s.trackOff).buffer bf = s.buffer bf := rfl
@[simp] theorem State.trackOff_cell (s : State) (bf : Buf) (k : Nat) : (s.trackOff).cell bf k = s.cell bf k := rfl
@[simp] theorem State.trackOff_isFree (s : State) (x : Slot) : (s.trackOff).isFree x = s.isFree x := rfl
@[simp] theorem State.trackOff_cursorCell (s : State) : (s.trackOff).cursorCell = s.cursorCell := rfl
@[simp] theorem State.trackOff_pre (s : State) : (s.trackOff).pre = s.pre := rfl
@[simp] theorem State.trackOff_halted (s : State) : (s.trackOff).halted = s.halted := rfl

/-! ackEvent -/

@[simp] theorem State.ackEvent_cfg (s : State) : (s.ackEvent).cfg = s.cfg := rfl
@[simp] theorem State.ackEvent_slotA (s : State) : (s.ackEvent).slotA = s.slotA := rfl
@[simp] theorem State.ackEvent_slotB (s : State) : (s.ackEvent).slotB = s.slotB := rfl
@[simp] theorem State.ackEvent_idle (s : State) : (s.ackEvent).idle = s.idle := rfl
@[simp] theorem State.ackEvent_stage (s : State) : (s.ackEvent).stage = s.stage := rfl
@[simp] theorem State.ackEvent_curBuf (s : State) : (s.ackEvent).curBuf = s.curBuf := rfl
@[simp] theorem State.ackEvent_curIdx (s : State) : (s.ackEvent).curIdx = s.curIdx := rfl
@[simp] theorem State.ackEvent_scopeCnt (s : State) : (s.ackEvent).scopeCnt = s.scopeCnt := rfl
@[simp] theorem State.ackEvent_pktComplete (s : State) : (s.ackEvent).pktComplete = s.pktComplete := rfl
@[simp] theorem State.ackEvent_trackEn (s : State) : (s.ackEvent).trackEn = s.trackEn := rfl
@[simp] theorem State.ackEvent_dbgOut (s : State) : (s.ackEvent).dbgOut = s.dbgOut := rfl
@[simp] theorem State.ackEvent_evtPending (s : State) : (s.ackEvent).evtPending = false := rfl
@[simp] theorem State.ackEvent_idlePolicy (s : State) : (s.ackEvent).idlePolicy = s.idlePolicy := rfl
@[simp] theorem State.ackEvent_result (s : State) : (s.ackEvent).result = s.result := rfl
@[simp] theorem State.ackEvent_fault (s : State) : (s.ackEvent).fault = s.fault := rfl
@[simp] theorem State.ackEvent_tmrP (s : State) : (s.ackEvent).tmrP = s.tmrP := rfl
@[simp] theorem State.ackEvent_tmrQ (s : State) : (s.ackEvent).tmrQ = s.tmrQ := rfl
@[simp] theorem State.ackEvent_tmrR (s : State) : (s.ackEvent).tmrR = s.tmrR := rfl
@[simp] theorem State.ackEvent_tmrWr (s : State) : (s.ackEvent).tmrWr = s.tmrWr := rfl
@[simp] theorem State.ackEvent_busRdata (s : State) : (s.ackEvent).busRdata = s.busRdata := rfl
@[simp] theorem State.ackEvent_act (s : State) : (s.ackEvent).act = s.act := rfl
@[simp] theorem State.ackEvent_host (s : State) : (s.ackEvent).host = s.host := rfl
@[simp] theorem State.ackEvent_agenda (s : State) : (s.ackEvent).agenda = s.agenda := rfl
@[simp] theorem State.ackEvent_freeIdx (s : State) : (s.ackEvent).freeIdx = s.freeIdx := rfl
@[simp] theorem State.ackEvent_buffer (s : State) (bf : Buf) : (s.ackEvent).buffer bf = s.buffer bf := rfl
@[simp] theorem State.ackEvent_cell (s : State) (bf : Buf) (k : Nat) : (s.ackEvent).cell bf k = s.cell bf k := rfl
@[simp] theorem State.ackEvent_isFree (s : State) (x : Slot) : (s.ackEvent).isFree x = s.isFree x := rfl
@[simp] theorem State.ackEvent_cursorCell (s : State) : (s.ackEvent).cursorCell = s.cursorCell := rfl
@[simp] theorem State.ackEvent_pre (s : State) : (s.ackEvent).pre = s.pre := rfl
@[simp] theorem State.ackEvent_halted (s : State) : (s.ackEvent).halted = s.halted := rfl

/-! trackOn -/

@[simp] theorem State.trackOn_cfg (s : State) : (s.trackOn).cfg = s.cfg := rfl
@[simp] theorem State.trackOn_slotA (s : State) : (s.trackOn).slotA = s.slotA := rfl
@[simp] theorem State.trackOn_slotB (s : State) : (s.trackOn).slotB = s.slotB := rfl
@[simp] theorem State.trackOn_idle (s : State) : (s.trackOn).idle = s.idle := rfl
@[simp] theorem State.trackOn_stage (s : State) : (s.trackOn).stage = s.stage := rfl
@[simp] theorem State.trackOn_curBuf (s : State) : (s.trackOn).curBuf = s.curBuf := rfl
@[simp] theorem State.trackOn_curIdx (s : State) : (s.trackOn).curIdx = s.curIdx := rfl
@[simp] theorem State.trackOn_scopeCnt (s : State) : (s.trackOn).scopeCnt = s.scopeCnt := rfl
@[simp] theorem State.trackOn_pktComplete (s : State) : (s.trackOn).pktComplete = s.pktComplete := rfl
@[simp] theorem State.trackOn_trackEn (s : State) : (s.trackOn).trackEn = true := rfl
@[simp] theorem State.trackOn_dbgOut (s : State) : (s.trackOn).dbgOut = s.dbgOut := rfl
@[simp] theorem State.trackOn_evtPending (s : State) : (s.trackOn).evtPending = (s.evtPending || (!s.trackEn && s.cfg.enableForcesUpdate)) := rfl
@[simp] theorem State.trackOn_idlePolicy (s : State) : (s.trackOn).idlePolicy = s.idlePolicy := rfl
@[simp] theorem State.trackOn_result (s : State) : (s.trackOn).result = s.result := rfl
@[simp] theorem State.trackOn_fault (s : State) : (s.trackOn).fault = s.fault := rfl
@[simp] theorem State.trackOn_tmrP (s : State) : (s.trackOn).tmrP = s.tmrP := rfl
@[simp] theorem State.trackOn_tmrQ (s : State) : (s.trackOn).tmrQ = s.tmrQ := rfl
@[simp] theorem State.trackOn_tmrR (s : State) : (s.trackOn).tmrR = s.tmrR := rfl
@[simp] theorem State.trackOn_tmrWr (s : State) : (s.trackOn).tmrWr = s.tmrWr := rfl
@[simp] theorem State.trackOn_busRdata (s : State) : (s.trackOn).busRdata = s.busRdata := rfl
@[simp] theorem State.trackOn_act (s : State) : (s.trackOn).act = if s.trackEn then s.act else if s.cfg.enableForcesUpdate then s.pre else Config.freeCell s.freeIdx := rfl
@[simp] theorem State.trackOn_host (s : State) : (s.trackOn).host = s.host := rfl
@[simp] theorem State.trackOn_agenda (s : State) : (s.trackOn).agenda = s.agenda := rfl
@[simp] theorem State.trackOn_freeIdx (s : State) : (s.trackOn).freeIdx = if s.trackEn || s.cfg.enableForcesUpdate then s.freeIdx else s.freeIdx + 1 := rfl
@[simp] theorem State.trackOn_buffer (s : State) (bf : Buf) : (s.trackOn).buffer bf = s.buffer bf := rfl
@[simp] theorem State.trackOn_cell (s : State) (bf : Buf) (k : Nat) : (s.trackOn).cell bf k = s.cell bf k := rfl
@[simp] theorem State.trackOn_isFree (s : State) (x : Slot) : (s.trackOn).isFree x = s.isFree x := rfl
@[simp] theorem State.trackOn_cursorCell (s : State) : (s.trackOn).cursorCell = s.cursorCell := rfl
@[simp] theorem State.trackOn_pre (s : State) : (s.trackOn).pre = s.pre := rfl
@[simp] theorem State.trackOn_halted (s : State) : (s.trackOn).halted = s.halted := rfl

/-! raiseFault -/

@[simp] theorem State.raiseFault_cfg (s : State) (f : Fault) : (s.raiseFault f).cfg = s.cfg := rfl
@[simp] theorem State.raiseFault_slotA (s : State) (f : Fault) : (s.raiseFault f).slotA = s.slotA := rfl
@[simp] theorem State.raiseFault_slotB (s : State) (f : Fault) : (s.raiseFault f).slotB = s.slotB := rfl
@[simp] theorem State.raiseFault_idle (s : State) (f : Fault) : (s.raiseFault f).idle = s.idle := rfl
@[simp] theorem State.raiseFault_stage (s : State) (f : Fault) : (s.raiseFault f).stage = s.stage := rfl
@[simp] theorem State.raiseFault_curBuf (s : State) (f : Fault) : (s.raiseFault f).curBuf = s.curBuf := rfl
@[simp] theorem State.raiseFault_curIdx (s : State) (f : Fault) : (s.raiseFault f).curIdx = s.curIdx := rfl
@[simp] theorem State.raiseFault_scopeCnt (s : State) (f : Fault) : (s.raiseFault f).scopeCnt = s.scopeCnt := rfl
@[simp] theorem State.raiseFault_pktComplete (s : State) (f : Fault) : (s.raiseFault f).pktComplete = s.pktComplete := rfl
@[simp] theorem State.raiseFault_trackEn (s : State) (f : Fault) : (s.raiseFault f).trackEn = false := rfl
@[simp] theorem State.raiseFault_dbgOut (s : State) (f : Fault) : (s.raiseFault f).dbgOut = s.dbgOut := rfl
@[simp] theorem State.raiseFault_evtPending (s : State) (f : Fault) : (s.raiseFault f).evtPending = false := rfl
@[simp] theorem State.raiseFault_idlePolicy (s : State) (f : Fault) : (s.raiseFault f).idlePolicy = s.idlePolicy := rfl
@[simp] theorem State.raiseFault_result (s : State) (f : Fault) : (s.raiseFault f).result = s.result := rfl
@[simp] theorem State.raiseFault_fault (s : State) (f : Fault) : (s.raiseFault f).fault = s.fault ||| f.bit := rfl
@[simp] theorem State.raiseFault_tmrP (s : State) (f : Fault) : (s.raiseFault f).tmrP = s.tmrP := rfl
@[simp] theorem State.raiseFault_tmrQ (s : State) (f : Fault) : (s.raiseFault f).tmrQ = s.tmrQ := rfl
@[simp] theorem State.raiseFault_tmrR (s : State) (f : Fault) : (s.raiseFault f).tmrR = s.tmrR := rfl
@[simp] theorem State.raiseFault_tmrWr (s : State) (f : Fault) : (s.raiseFault f).tmrWr = s.tmrWr := rfl
@[simp] theorem State.raiseFault_busRdata (s : State) (f : Fault) : (s.raiseFault f).busRdata = s.busRdata := rfl
@[simp] theorem State.raiseFault_act (s : State) (f : Fault) : (s.raiseFault f).act = s.act := rfl
@[simp] theorem State.raiseFault_host (s : State) (f : Fault) : (s.raiseFault f).host = s.host := rfl
@[simp] theorem State.raiseFault_agenda (s : State) (f : Fault) : (s.raiseFault f).agenda = s.agenda := rfl
@[simp] theorem State.raiseFault_freeIdx (s : State) (f : Fault) : (s.raiseFault f).freeIdx = s.freeIdx := rfl
@[simp] theorem State.raiseFault_buffer (s : State) (f : Fault) (bf : Buf) : (s.raiseFault f).buffer bf = s.buffer bf := rfl
@[simp] theorem State.raiseFault_cell (s : State) (f : Fault) (bf : Buf) (k : Nat) : (s.raiseFault f).cell bf k = s.cell bf k := rfl
@[simp] theorem State.raiseFault_isFree (s : State) (f : Fault) (x : Slot) : (s.raiseFault f).isFree x = s.isFree x := rfl
@[simp] theorem State.raiseFault_cursorCell (s : State) (f : Fault) : (s.raiseFault f).cursorCell = s.cursorCell := rfl
@[simp] theorem State.raiseFault_pre (s : State) (f : Fault) : (s.raiseFault f).pre = s.pre := rfl

/-! rebuildBuffers -/

@[simp] theorem State.rebuildBuffers_cfg (s : State) : (s.rebuildBuffers).cfg = s.cfg := rfl
@[simp] theorem State.rebuildBuffers_slotA (s : State) : (s.rebuildBuffers).slotA = [] := rfl
@[simp] theorem State.rebuildBuffers_slotB (s : State) : (s.rebuildBuffers).slotB = [] := rfl
@[simp] theorem State.rebuildBuffers_idle (s : State) : (s.rebuildBuffers).idle = idleImage s.cfg := rfl
@[simp] theorem State.rebuildBuffers_stage (s : State) : (s.rebuildBuffers).stage = s.stage := rfl
@[simp] theorem State.rebuildBuffers_curBuf (s : State) : (s.rebuildBuffers).curBuf = s.curBuf := rfl
@[simp] theorem State.rebuildBuffers_curIdx (s : State) : (s.rebuildBuffers).curIdx = s.curIdx := rfl
@[simp] theorem State.rebuildBuffers_scopeCnt (s : State) : (s.rebuildBuffers).scopeCnt = s.scopeCnt := rfl
@[simp] theorem State.rebuildBuffers_pktComplete (s : State) : (s.rebuildBuffers).pktComplete = s.pktComplete := rfl
@[simp] theorem State.rebuildBuffers_trackEn (s : State) : (s.rebuildBuffers).trackEn = s.trackEn := rfl
@[simp] theorem State.rebuildBuffers_dbgOut (s : State) : (s.rebuildBuffers).dbgOut = s.dbgOut := rfl
@[simp] theorem State.rebuildBuffers_evtPending (s : State) : (s.rebuildBuffers).evtPending = s.evtPending := rfl
@[simp] theorem State.rebuildBuffers_idlePolicy (s : State) : (s.rebuildBuffers).idlePolicy = s.idlePolicy := rfl
@[simp] theorem State.rebuildBuffers_result (s : State) : (s.rebuildBuffers).result = s.result := rfl
@[simp] theorem State.rebuildBuffers_fault (s : State) : (s.rebuildBuffers).fault = s.fault := rfl
@[simp] theorem State.rebuildBuffers_tmrP (s : State) : (s.rebuildBuffers).tmrP = s.tmrP := rfl
@[simp] theorem State.rebuildBuffers_tmrQ (s : State) : (s.rebuildBuffers).tmrQ = s.tmrQ := rfl
@[simp] theorem State.rebuildBuffers_tmrR (s : State) : (s.rebuildBuffers).tmrR = s.tmrR := rfl
@[simp] theorem State.rebuildBuffers_tmrWr (s : State) : (s.rebuildBuffers).tmrWr = s.tmrWr := rfl
@[simp] theorem State.rebuildBuffers_busRdata (s : State) : (s.rebuildBuffers).busRdata = s.busRdata := rfl
@[simp] theorem State.rebuildBuffers_act (s : State) : (s.rebuildBuffers).act = s.act := rfl
@[simp] theorem State.rebuildBuffers_host (s : State) : (s.rebuildBuffers).host = s.host := rfl
@[simp] theorem State.rebuildBuffers_agenda (s : State) : (s.rebuildBuffers).agenda = s.agenda := rfl
@[simp] theorem State.rebuildBuffers_freeIdx (s : State) : (s.rebuildBuffers).freeIdx = s.freeIdx := rfl
@[simp] theorem State.rebuildBuffers_pre (s : State) : (s.rebuildBuffers).pre = s.pre := rfl
@[simp] theorem State.rebuildBuffers_halted (s : State) : (s.rebuildBuffers).halted = s.halted := rfl

/-! setPolicy -/

@[simp] theorem State.setPolicy_cfg (s : State) (pol : IdlePolicy) : (s.setPolicy pol).cfg = s.cfg := rfl
@[simp] theorem State.setPolicy_slotA (s : State) (pol : IdlePolicy) : (s.setPolicy pol).slotA = s.slotA := rfl
@[simp] theorem State.setPolicy_slotB (s : State) (pol : IdlePolicy) : (s.setPolicy pol).slotB = s.slotB := rfl
@[simp] theorem State.setPolicy_idle (s : State) (pol : IdlePolicy) : (s.setPolicy pol).idle = s.idle := rfl
@[simp] theorem State.setPolicy_stage (s : State) (pol : IdlePolicy) : (s.setPolicy pol).stage = s.stage := rfl
@[simp] theorem State.setPolicy_curBuf (s : State) (pol : IdlePolicy) : (s.setPolicy pol).curBuf = s.curBuf := rfl
@[simp] theorem State.setPolicy_curIdx (s : State) (pol : IdlePolicy) : (s.setPolicy pol).curIdx = s.curIdx := rfl
@[simp] theorem State.setPolicy_scopeCnt (s : State) (pol : IdlePolicy) : (s.setPolicy pol).scopeCnt = s.scopeCnt := rfl
@[simp] theorem State.setPolicy_pktComplete (s : State) (pol : IdlePolicy) : (s.setPolicy pol).pktComplete = s.pktComplete := rfl
@[simp] theorem State.setPolicy_trackEn (s : State) (pol : IdlePolicy) : (s.setPolicy pol).trackEn = s.trackEn := rfl
@[simp] theorem State.setPolicy_dbgOut (s : State) (pol : IdlePolicy) : (s.setPolicy pol).dbgOut = false := rfl
@[simp] theorem State.setPolicy_evtPending (s : State) (pol : IdlePolicy) : (s.setPolicy pol).evtPending = s.evtPending := rfl
@[simp] theorem State.setPolicy_idlePolicy (s : State) (pol : IdlePolicy) : (s.setPolicy pol).idlePolicy = pol := rfl
@[simp] theorem State.setPolicy_result (s : State) (pol : IdlePolicy) : (s.setPolicy pol).result = s.result := rfl
@[simp] theorem State.setPolicy_fault (s : State) (pol : IdlePolicy) : (s.setPolicy pol).fault = s.fault := rfl
@[simp] theorem State.setPolicy_tmrP (s : State) (pol : IdlePolicy) : (s.setPolicy pol).tmrP = s.tmrP := rfl
@[simp] theorem State.setPolicy_tmrQ (s : State) (pol : IdlePolicy) : (s.setPolicy pol).tmrQ = s.tmrQ := rfl
@[simp] theorem State.setPolicy_tmrR (s : State) (pol : IdlePolicy) : (s.setPolicy pol).tmrR = s.tmrR := rfl
@[simp] theorem State.setPolicy_tmrWr (s : State) (pol : IdlePolicy) : (s.setPolicy pol).tmrWr = s.tmrWr := rfl
@[simp] theorem State.setPolicy_busRdata (s : State) (pol : IdlePolicy) : (s.setPolicy pol).busRdata = s.busRdata := rfl
@[simp] theorem State.setPolicy_act (s : State) (pol : IdlePolicy) : (s.setPolicy pol).act = s.act := rfl
@[simp] theorem State.setPolicy_host (s : State) (pol : IdlePolicy) : (s.setPolicy pol).host = s.host := rfl
@[simp] theorem State.setPolicy_agenda (s : State) (pol : IdlePolicy) : (s.setPolicy pol).agenda = s.agenda := rfl
@[simp] theorem State.setPolicy_freeIdx (s : State) (pol : IdlePolicy) : (s.setPolicy pol).freeIdx = s.freeIdx := rfl
@[simp] theorem State.setPolicy_buffer (s : State) (pol : IdlePolicy) (bf : Buf) : (s.setPolicy pol).buffer bf = s.buffer bf := rfl
@[simp] theorem State.setPolicy_cell (s : State) (pol : IdlePolicy) (bf : Buf) (k : Nat) : (s.setPolicy pol).cell bf k = s.cell bf k := rfl
@[simp] theorem State.setPolicy_isFree (s : State) (pol : IdlePolicy) (x : Slot) : (s.setPolicy pol).isFree x = s.isFree x := rfl
@[simp] theorem State.setPolicy_cursorCell (s : State) (pol : IdlePolicy) : (s.setPolicy pol).cursorCell = s.cursorCell := rfl
@[simp] theorem State.setPolicy_pre (s : State) (pol : IdlePolicy) : (s.setPolicy pol).pre = s.pre := rfl
@[simp] theorem State.setPolicy_halted (s : State) (pol : IdlePolicy) : (s.setPolicy pol).halted = s.halted := rfl

/-! scopeTick -/

@[simp] theorem State.scopeTick_cfg (s : State) : (s.scopeTick).cfg = s.cfg := rfl
@[simp] theorem State.scopeTick_slotA (s : State) : (s.scopeTick).slotA = s.slotA := rfl
@[simp] theorem State.scopeTick_slotB (s : State) : (s.scopeTick).slotB = s.slotB := rfl
@[simp] theorem State.scopeTick_idle (s : State) : (s.scopeTick).idle = s.idle := rfl
@[simp] theorem State.scopeTick_stage (s : State) : (s.scopeTick).stage = s.stage := rfl
@[simp] theorem State.scopeTick_curBuf (s : State) : (s.scopeTick).curBuf = s.curBuf := rfl
@[simp] theorem State.scopeTick_curIdx (s : State) : (s.scopeTick).curIdx = s.curIdx := rfl
@[simp] theorem State.scopeTick_scopeCnt (s : State) : (s.scopeTick).scopeCnt = scopeNext s.scopeCnt := rfl
@[simp] theorem State.scopeTick_pktComplete (s : State) : (s.scopeTick).pktComplete = s.pktComplete := rfl
@[simp] theorem State.scopeTick_trackEn (s : State) : (s.scopeTick).trackEn = s.trackEn := rfl
@[simp] theorem State.scopeTick_dbgOut (s : State) : (s.scopeTick).dbgOut = scopeTrigger (scopeNext s.scopeCnt) := rfl
@[simp] theorem State.scopeTick_evtPending (s : State) : (s.scopeTick).evtPending = s.evtPending := rfl
@[simp] theorem State.scopeTick_idlePolicy (s : State) : (s.scopeTick).idlePolicy = s.idlePolicy := rfl
@[simp] theorem State.scopeTick_result (s : State) : (s.scopeTick).result = s.result := rfl
@[simp] theorem State.scopeTick_fault (s : State) : (s.scopeTick).fault = s.fault := rfl
@[simp] theorem State.scopeTick_tmrP (s : State) : (s.scopeTick).tmrP = s.tmrP := rfl
@[simp] theorem State.scopeTick_tmrQ (s : State) : (s.scopeTick).tmrQ = s.tmrQ := rfl
@[simp] theorem State.scopeTick_tmrR (s : State) : (s.scopeTick).tmrR = s.tmrR := rfl
@[simp] theorem State.scopeTick_tmrWr (s : State) : (s.scopeTick).tmrWr = s.tmrWr := rfl
@[simp] theorem State.scopeTick_busRdata (s : State) : (s.scopeTick).busRdata = s.busRdata := rfl
@[simp] theorem State.scopeTick_act (s : State) : (s.scopeTick).act = s.act := rfl
@[simp] theorem State.scopeTick_host (s : State) : (s.scopeTick).host = s.host := rfl
@[simp] theorem State.scopeTick_agenda (s : State) : (s.scopeTick).agenda = s.agenda := rfl
@[simp] theorem State.scopeTick_freeIdx (s : State) : (s.scopeTick).freeIdx = s.freeIdx := rfl
@[simp] theorem State.scopeTick_buffer (s : State) (bf : Buf) : (s.scopeTick).buffer bf = s.buffer bf := rfl
@[simp] theorem State.scopeTick_cell (s : State) (bf : Buf) (k : Nat) : (s.scopeTick).cell bf k = s.cell bf k := rfl
@[simp] theorem State.scopeTick_isFree (s : State) (x : Slot) : (s.scopeTick).isFree x = s.isFree x := rfl
@[simp] theorem State.scopeTick_cursorCell (s : State) : (s.scopeTick).cursorCell = s.cursorCell := rfl
@[simp] theorem State.scopeTick_pre (s : State) : (s.scopeTick).pre = s.pre := rfl
@[simp] theorem State.scopeTick_halted (s : State) : (s.scopeTick).halted = s.halted := rfl

/-! advance -/

@[simp] theorem State.advance_cfg (s : State) : (s.advance).cfg = s.cfg := rfl
@[simp] theorem State.advance_slotA (s : State) : (s.advance).slotA = s.slotA := rfl
@[simp] theorem State.advance_slotB (s : State) : (s.advance).slotB = s.slotB := rfl
@[simp] theorem State.advance_idle (s : State) : (s.advance).idle = s.idle := rfl
@[simp] theorem State.advance_stage (s : State) : (s.advance).stage = s.stage := rfl
@[simp] theorem State.advance_curBuf (s : State) : (s.advance).curBuf = s.curBuf := rfl
@[simp] theorem State.advance_curIdx (s : State) : (s.advance).curIdx = s.curIdx + 1 := rfl
@[simp] theorem State.advance_scopeCnt (s : State) : (s.advance).scopeCnt = s.scopeCnt := rfl
@[simp] theorem State.advance_pktComplete (s : State) : (s.advance).pktComplete = s.pktComplete := rfl
@[simp] theorem State.advance_trackEn (s : State) : (s.advance).trackEn = s.trackEn := rfl
@[simp] theorem State.advance_dbgOut (s : State) : (s.advance).dbgOut = s.dbgOut := rfl
@[simp] theorem State.advance_evtPending (s : State) : (s.advance).evtPending = s.evtPending := rfl
@[simp] theorem State.advance_idlePolicy (s : State) : (s.advance).idlePolicy = s.idlePolicy := rfl
@[simp] theorem State.advance_result (s : State) : (s.advance).result = s.result := rfl
@[simp] theorem State.advance_fault (s : State) : (s.advance).fault = s.fault := rfl
@[simp] theorem State.advance_tmrP (s : State) : (s.advance).tmrP = s.tmrP := rfl
@[simp] theorem State.advance_tmrQ (s : State) : (s.advance).tmrQ = s.tmrQ := rfl
@[simp] theorem State.advance_tmrR (s : State) : (s.advance).tmrR = s.tmrR := rfl
@[simp] theorem State.advance_tmrWr (s : State) : (s.advance).tmrWr = s.tmrWr := rfl
@[simp] theorem State.advance_busRdata (s : State) : (s.advance).busRdata = s.busRdata := rfl
@[simp] theorem State.advance_act (s : State) : (s.advance).act = s.act := rfl
@[simp] theorem State.advance_host (s : State) : (s.advance).host = s.host := rfl
@[simp] theorem State.advance_agenda (s : State) : (s.advance).agenda = s.agenda := rfl
@[simp] theorem State.advance_freeIdx (s : State) : (s.advance).freeIdx = s.freeIdx := rfl
@[simp] theorem State.advance_buffer (s : State) (bf : Buf) : (s.advance).buffer bf = s.buffer bf := rfl
@[simp] theorem State.advance_cell (s : State) (bf : Buf) (k : Nat) : (s.advance).cell bf k = s.cell bf k := rfl
@[simp] theorem State.advance_isFree (s : State) (x : Slot) : (s.advance).isFree x = s.isFree x := rfl
@[simp] theorem State.advance_pre (s : State) : (s.advance).pre = s.pre := rfl
@[simp] theorem State.advance_halted (s : State) : (s.advance).halted = s.halted := rfl

/-! writeStage -/

@[simp] theorem State.writeStage_cfg (s : State) (i : Nat) (f : CellField) (v : Word) : (s.writeStage i f v).cfg = s.cfg := rfl
@[simp] theorem State.writeStage_slotA (s : State) (i : Nat) (f : CellField) (v : Word) : (s.writeStage i f v).slotA = s.slotA := rfl
@[simp] theorem State.writeStage_slotB (s : State) (i : Nat) (f : CellField) (v : Word) : (s.writeStage i f v).slotB = s.slotB := rfl
@[simp] theorem State.writeStage_idle (s : State) (i : Nat) (f : CellField) (v : Word) : (s.writeStage i f v).idle = s.idle := rfl
@[simp] theorem State.writeStage_stage (s : State) (i : Nat) (f : CellField) (v : Word) : (s.writeStage i f v).stage = s.stage.write i (BitCell.set (s.stage.read i) v f) := rfl
@[simp] theorem State.writeStage_curBuf (s : State) (i : Nat) (f : CellField) (v : Word) : (s.writeStage i f v).curBuf = s.curBuf := rfl
@[simp] theorem State.writeStage_curIdx (s : State) (i : Nat) (f : CellField) (v : Word) : (s.writeStage i f v).curIdx = s.curIdx := rfl
@[simp] theorem State.writeStage_scopeCnt (s : State) (i : Nat) (f : CellField) (v : Word) : (s.writeStage i f v).scopeCnt = s.scopeCnt := rfl
@[simp] theorem State.writeStage_pktComplete (s : State) (i : Nat) (f : CellField) (v : Word) : (s.writeStage i f v).pktComplete = s.pktComplete := rfl
@[simp] theorem State.writeStage_trackEn (s : State) (i : Nat) (f : CellField) (v : Word) : (s.writeStage i f v).trackEn = s.trackEn := rfl
@[simp] theorem State.writeStage_dbgOut (s : State) (i : Nat) (f : CellField) (v : Word) : (s.writeStage i f v).dbgOut = s.dbgOut := rfl
@[simp] theorem State.writeStage_evtPending (s : State) (i : Nat) (f : CellField) (v : Word) : (s.writeStage i f v).evtPending = s.evtPending := rfl
@[simp] theorem State.writeStage_idlePolicy (s : State) (i : Nat) (f : CellField) (v : Word) : (s.writeStage i f v).idlePolicy = s.idlePolicy := rfl
@[simp] theorem State.writeStage_result (s : State) (i : Nat) (f : CellField) (v : Word) : (s.writeStage i f v).result = s.result := rfl
@[simp] theorem State.writeStage_fault (s : State) (i : Nat) (f : CellField) (v : Word) : (s.writeStage i f v).fault = s.fault := rfl
@[simp] theorem State.writeStage_tmrP (s : State) (i : Nat) (f : CellField) (v : Word) : (s.writeStage i f v).tmrP = s.tmrP := rfl
@[simp] theorem State.writeStage_tmrQ (s : State) (i : Nat) (f : CellField) (v : Word) : (s.writeStage i f v).tmrQ = s.tmrQ := rfl
@[simp] theorem State.writeStage_tmrR (s : State) (i : Nat) (f : CellField) (v : Word) : (s.writeStage i f v).tmrR = s.tmrR := rfl
@[simp] theorem State.writeStage_tmrWr (s : State) (i : Nat) (f : CellField) (v : Word) : (s.writeStage i f v).tmrWr = s.tmrWr := rfl
@[simp] theorem State.writeStage_busRdata (s : State) (i : Nat) (f : CellField) (v : Word) : (s.writeStage i f v).busRdata = s.busRdata := rfl
@[simp] theorem State.writeStage_act (s : State) (i : Nat) (f : CellField) (v : Word) : (s.writeStage i f v).act = s.act := rfl
@[simp] theorem State.writeStage_host (s : State) (i : Nat) (f : CellField) (v : Word) : (s.writeStage i f v).host = s.host := rfl
@[simp] theorem State.writeStage_agenda (s : State) (i : Nat) (f : CellField) (v : Word) : (s.writeStage i f v).agenda = s.agenda := rfl
@[simp] theorem State.writeStage_freeIdx (s : State) (i : Nat) (f : CellField) (v : Word) : (s.writeStage i f v).freeIdx = s.freeIdx := rfl
@[simp] theorem State.writeStage_buffer (s : State) (i : Nat) (f : CellField) (v : Word) (bf : Buf) : (s.writeStage i f v).buffer bf = s.buffer bf := rfl
@[simp] theorem State.writeStage_cell (s : State) (i : Nat) (f : CellField) (v : Word) (bf : Buf) (k : Nat) : (s.writeStage i f v).cell bf k = s.cell bf k := rfl
@[simp] theorem State.writeStage_isFree (s : State) (i : Nat) (f : CellField) (v : Word) (x : Slot) : (s.writeStage i f v).isFree x = s.isFree x := rfl
@[simp] theorem State.writeStage_cursorCell (s : State) (i : Nat) (f : CellField) (v : Word) : (s.writeStage i f v).cursorCell = s.cursorCell := rfl
@[simp] theorem State.writeStage_pre (s : State) (i : Nat) (f : CellField) (v : Word) : (s.writeStage i f v).pre = s.pre := rfl
@[simp] theorem State.writeStage_halted (s : State) (i : Nat) (f : CellField) (v : Word) : (s.writeStage i f v).halted = s.halted := rfl

/-! returnData -/

@[simp] theorem State.returnData_cfg (s : State) (v : Word) : (s.returnData v).cfg = s.cfg := rfl
@[simp] theorem State.returnData_slotA (s : State) (v : Word) : (s.returnData v).slotA = s.slotA := rfl
@[simp] theorem State.returnData_slotB (s : State) (v : Word) : (s.returnData v).slotB = s.slotB := rfl
@[simp] theorem State.returnData_idle (s : State) (v : Word) : (s.returnData v).idle = s.idle := rfl
@[simp] theorem State.returnData_stage (s : State) (v : Word) : (s.returnData v).stage = s.stage := rfl
@[simp] theorem State.returnData_curBuf (s : State) (v : Word) : (s.returnData v).curBuf = s.curBuf := rfl
@[simp] theorem State.returnData_curIdx (s : State) (v : Word) : (s.returnData v).curIdx = s.curIdx := rfl
@[simp] theorem State.returnData_scopeCnt (s : State) (v : Word) : (s.returnData v).scopeCnt = s.scopeCnt := rfl
@[simp] theorem State.returnData_pktComplete (s : State) (v : Word) : (s.returnData v).pktComplete = s.pktComplete := rfl
@[simp] theorem State.returnData_trackEn (s : State) (v : Word) : (s.returnData v).trackEn = s.trackEn := rfl
@[simp] theorem State.returnData_dbgOut (s : State) (v : Word) : (s.returnData v).dbgOut = s.dbgOut := rfl
@[simp] theorem State.returnData_evtPending (s : State) (v : Word) : (s.returnData v).evtPending = s.evtPending := rfl
@[simp] theorem State.returnData_idlePolicy (s : State) (v : Word) : (s.returnData v).idlePolicy = s.idlePolicy := rfl
@[simp] theorem State.returnData_result (s : State) (v : Word) : (s.returnData v).result = s.result := rfl
@[simp] theorem State.returnData_fault (s : State) (v : Word) : (s.returnData v).fault = s.fault := rfl
@[simp] theorem State.returnData_tmrP (s : State) (v : Word) : (s.returnData v).tmrP = s.tmrP := rfl
@[simp] theorem State.returnData_tmrQ (s : State) (v : Word) : (s.returnData v).tmrQ = s.tmrQ := rfl
@[simp] theorem State.returnData_tmrR (s : State) (v : Word) : (s.returnData v).tmrR = s.tmrR := rfl
@[simp] theorem State.returnData_tmrWr (s : State) (v : Word) : (s.returnData v).tmrWr = s.tmrWr := rfl
@[simp] theorem State.returnData_busRdata (s : State) (v : Word) : (s.returnData v).busRdata = v := rfl
@[simp] theorem State.returnData_act (s : State) (v : Word) : (s.returnData v).act = s.act := rfl
@[simp] theorem State.returnData_host (s : State) (v : Word) : (s.returnData v).host = s.host := rfl
@[simp] theorem State.returnData_agenda (s : State) (v : Word) : (s.returnData v).agenda = s.agenda := rfl
@[simp] theorem State.returnData_freeIdx (s : State) (v : Word) : (s.returnData v).freeIdx = s.freeIdx := rfl
@[simp] theorem State.returnData_buffer (s : State) (v : Word) (bf : Buf) : (s.returnData v).buffer bf = s.buffer bf := rfl
@[simp] theorem State.returnData_cell (s : State) (v : Word) (bf : Buf) (k : Nat) : (s.returnData v).cell bf k = s.cell bf k := rfl
@[simp] theorem State.returnData_isFree (s : State) (v : Word) (x : Slot) : (s.returnData v).isFree x = s.isFree x := rfl
@[simp] theorem State.returnData_cursorCell (s : State) (v : Word) : (s.returnData v).cursorCell = s.cursorCell := rfl
@[simp] theorem State.returnData_pre (s : State) (v : Word) : (s.returnData v).pre = s.pre := rfl
@[simp] theorem State.returnData_halted (s : State) (v : Word) : (s.returnData v).halted = s.halted := rfl

/-! reload -/

@[simp] theorem State.reload_cfg (s : State) : (s.reload).cfg = s.cfg := rfl
@[simp] theorem State.reload_slotA (s : State) : (s.reload).slotA = s.slotA := rfl
@[simp] theorem State.reload_slotB (s : State) : (s.reload).slotB = s.slotB := rfl
@[simp] theorem State.reload_idle (s : State) : (s.reload).idle = s.idle := rfl
@[simp] theorem State.reload_stage (s : State) : (s.reload).stage = s.stage := rfl
@[simp] theorem State.reload_curBuf (s : State) : (s.reload).curBuf = s.curBuf := rfl
@[simp] theorem State.reload_curIdx (s : State) : (s.reload).curIdx = s.curIdx := rfl
@[simp] theorem State.reload_scopeCnt (s : State) : (s.reload).scopeCnt = s.scopeCnt := rfl
@[simp] theorem State.reload_pktComplete (s : State) : (s.reload).pktComplete = s.pktComplete := rfl
@[simp] theorem State.reload_trackEn (s : State) : (s.reload).trackEn = s.trackEn := rfl
@[simp] theorem State.reload_dbgOut (s : State) : (s.reload).dbgOut = s.dbgOut := rfl
@[simp] theorem State.reload_evtPending (s : State) : (s.reload).evtPending = s.evtPending := rfl
@[simp] theorem State.reload_idlePolicy (s : State) : (s.reload).idlePolicy = s.idlePolicy := rfl
@[simp] theorem State.reload_result (s : State) : (s.reload).result = s.result := rfl
@[simp] theorem State.reload_fault (s : State) : (s.reload).fault = s.fault := rfl
@[simp] theorem State.reload_tmrP (s : State) : (s.reload).tmrP = s.tmrP := rfl
@[simp] theorem State.reload_tmrQ (s : State) : (s.reload).tmrQ = s.tmrQ := rfl
@[simp] theorem State.reload_tmrR (s : State) : (s.reload).tmrR = s.tmrR := rfl
@[simp] theorem State.reload_tmrWr (s : State) : (s.reload).tmrWr = s.tmrWr := rfl
@[simp] theorem State.reload_busRdata (s : State) : (s.reload).busRdata = s.busRdata := rfl
@[simp] theorem State.reload_act (s : State) : (s.reload).act = s.pre := rfl
@[simp] theorem State.reload_host (s : State) : (s.reload).host = s.host := rfl
@[simp] theorem State.reload_agenda (s : State) : (s.reload).agenda = s.agenda := rfl
@[simp] theorem State.reload_freeIdx (s : State) : (s.reload).freeIdx = s.freeIdx := rfl
@[simp] theorem State.reload_buffer (s : State) (bf : Buf) : (s.reload).buffer bf = s.buffer bf := rfl
@[simp] theorem State.reload_cell (s : State) (bf : Buf) (k : Nat) : (s.reload).cell bf k = s.cell bf k := rfl
@[simp] theorem State.reload_isFree (s : State) (x : Slot) : (s.reload).isFree x = s.isFree x := rfl
@[simp] theorem State.reload_cursorCell (s : State) : (s.reload).cursorCell = s.cursorCell := rfl
@[simp] theorem State.reload_pre (s : State) : (s.reload).pre = s.pre := rfl
@[simp] theorem State.reload_halted (s : State) : (s.reload).halted = s.halted := rfl

/-! raiseEvent -/

@[simp] theorem State.raiseEvent_cfg (s : State) : (s.raiseEvent).cfg = s.cfg := rfl
@[simp] theorem State.raiseEvent_slotA (s : State) : (s.raiseEvent).slotA = s.slotA := rfl
@[simp] theorem State.raiseEvent_slotB (s : State) : (s.raiseEvent).slotB = s.slotB := rfl
@[simp] theorem State.raiseEvent_idle (s : State) : (s.raiseEvent).idle = s.idle := rfl
@[simp] theorem State.raiseEvent_stage (s : State) : (s.raiseEvent).stage = s.stage := rfl
@[simp] theorem State.raiseEvent_curBuf (s : State) : (s.raiseEvent).curBuf = s.curBuf := rfl
@[simp] theorem State.raiseEvent_curIdx (s : State) : (s.raiseEvent).curIdx = s.curIdx := rfl
@[simp] theorem State.raiseEvent_scopeCnt (s : State) : (s.raiseEvent).scopeCnt = s.scopeCnt := rfl
@[simp] theorem State.raiseEvent_pktComplete (s : State) : (s.raiseEvent).pktComplete = s.pktComplete := rfl
@[simp] theorem State.raiseEvent_trackEn (s : State) : (s.raiseEvent).trackEn = s.trackEn := rfl
@[simp] theorem State.raiseEvent_dbgOut (s : State) : (s.raiseEvent).dbgOut = s.dbgOut := rfl
@[simp] theorem State.raiseEvent_evtPending (s : State) : (s.raiseEvent).evtPending = true := rfl
@[simp] theorem State.raiseEvent_idlePolicy (s : State) : (s.raiseEvent).idlePolicy = s.idlePolicy := rfl
@[simp] theorem State.raiseEvent_result (s : State) : (s.raiseEvent).result = s.result := rfl
@[simp] theorem State.raiseEvent_fault (s : State) : (s.raiseEvent).fault = s.fault := rfl
@[simp] theorem State.raiseEvent_tmrP (s : State) : (s.raiseEvent).tmrP = s.tmrP := rfl
@[simp] theorem State.raiseEvent_tmrQ (s : State) : (s.raiseEvent).tmrQ = s.tmrQ := rfl
@[simp] theorem State.raiseEvent_tmrR (s : State) : (s.raiseEvent).tmrR = s.tmrR := rfl
@[simp] theorem State.raiseEvent_tmrWr (s : State) : (s.raiseEvent).tmrWr = s.tmrWr := rfl
@[simp] theorem State.raiseEvent_busRdata (s : State) : (s.raiseEvent).busRdata = s.busRdata := rfl
@[simp] theorem State.raiseEvent_act (s : State) : (s.raiseEvent).act = s.act := rfl
@[simp] theorem State.raiseEvent_host (s : State) : (s.raiseEvent).host = s.host := rfl
@[simp] theorem State.raiseEvent_agenda (s : State) : (s.raiseEvent).agenda = s.agenda := rfl
@[simp] theorem State.raiseEvent_freeIdx (s : State) : (s.raiseEvent).freeIdx = s.freeIdx := rfl
@[simp] theorem State.raiseEvent_buffer (s : State) (bf : Buf) : (s.raiseEvent).buffer bf = s.buffer bf := rfl
@[simp] theorem State.raiseEvent_cell (s : State) (bf : Buf) (k : Nat) : (s.raiseEvent).cell bf k = s.cell bf k := rfl
@[simp] theorem State.raiseEvent_isFree (s : State) (x : Slot) : (s.raiseEvent).isFree x = s.isFree x := rfl
@[simp] theorem State.raiseEvent_cursorCell (s : State) : (s.raiseEvent).cursorCell = s.cursorCell := rfl
@[simp] theorem State.raiseEvent_pre (s : State) : (s.raiseEvent).pre = s.pre := rfl
@[simp] theorem State.raiseEvent_halted (s : State) : (s.raiseEvent).halted = s.halted := rfl

/-! beginMove -/

@[simp] theorem State.beginMove_cfg (s : State) : (s.beginMove).cfg = s.cfg := rfl
@[simp] theorem State.beginMove_slotA (s : State) : (s.beginMove).slotA = s.slotA := rfl
@[simp] theorem State.beginMove_slotB (s : State) : (s.beginMove).slotB = s.slotB := rfl
@[simp] theorem State.beginMove_idle (s : State) : (s.beginMove).idle = s.idle := rfl
@[simp] theorem State.beginMove_stage (s : State) : (s.beginMove).stage = s.stage := rfl
@[simp] theorem State.beginMove_curBuf (s : State) : (s.beginMove).curBuf = s.curBuf := rfl
@[simp] theorem State.beginMove_curIdx (s : State) : (s.beginMove).curIdx = s.curIdx := rfl
@[simp] theorem State.beginMove_scopeCnt (s : State) : (s.beginMove).scopeCnt = s.scopeCnt := rfl
@[simp] theorem State.beginMove_pktComplete (s : State) : (s.beginMove).pktComplete = s.pktComplete := rfl
@[simp] theorem State.beginMove_trackEn (s : State) : (s.beginMove).trackEn = s.trackEn := rfl
@[simp] theorem State.beginMove_dbgOut (s : State) : (s.beginMove).dbgOut = s.dbgOut := rfl
@[simp] theorem State.beginMove_evtPending (s : State) : (s.beginMove).evtPending = s.evtPending := rfl
@[simp] theorem State.beginMove_idlePolicy (s : State) : (s.beginMove).idlePolicy = s.idlePolicy := rfl
@[simp] theorem State.beginMove_result (s : State) : (s.beginMove).result = s.result := rfl
@[simp] theorem State.beginMove_fault (s : State) : (s.beginMove).fault = s.fault := rfl
@[simp] theorem State.beginMove_tmrP (s : State) : (s.beginMove).tmrP = s.tmrP := rfl
@[simp] theorem State.beginMove_tmrQ (s : State) : (s.beginMove).tmrQ = s.tmrQ := rfl
@[simp] theorem State.beginMove_tmrR (s : State) : (s.beginMove).tmrR = s.tmrR := rfl
@[simp] theorem State.beginMove_tmrWr (s : State) : (s.beginMove).tmrWr = false := rfl
@[simp] theorem State.beginMove_busRdata (s : State) : (s.beginMove).busRdata = s.busRdata := rfl
@[simp] theorem State.beginMove_act (s : State) : (s.beginMove).act = s.act := rfl
@[simp] theorem State.beginMove_host (s : State) : (s.beginMove).host = s.host := rfl
@[simp] theorem State.beginMove_agenda (s : State) : (s.beginMove).agenda = s.agenda.tail := rfl
@[simp] theorem State.beginMove_freeIdx (s : State) : (s.beginMove).freeIdx = s.freeIdx := rfl
@[simp] theorem State.beginMove_buffer (s : State) (bf : Buf) : (s.beginMove).buffer bf = s.buffer bf := rfl
@[simp] theorem State.beginMove_cell (s : State) (bf : Buf) (k : Nat) : (s.beginMove).cell bf k = s.cell bf k := rfl
@[simp] theorem State.beginMove_isFree (s : State) (x : Slot) : (s.beginMove).isFree x = s.isFree x := rfl
@[simp] theorem State.beginMove_cursorCell (s : State) : (s.beginMove).cursorCell = s.cursorCell := rfl
@[simp] theorem State.beginMove_pre (s : State) : (s.beginMove).pre = s.pre := rfl
@[simp] theorem State.beginMove_halted (s : State) : (s.beginMove).halted = s.halted := rfl

/-! popAccess -/

@[simp] theorem State.popAccess_cfg (s : State) : (s.popAccess).cfg = s.cfg := rfl
@[simp] theorem State.popAccess_slotA (s : State) : (s.popAccess).slotA = s.slotA := rfl
@[simp] theorem State.popAccess_slotB (s : State) : (s.popAccess).slotB = s.slotB := rfl
@[simp] theorem State.popAccess_idle (s : State) : (s.popAccess).idle = s.idle := rfl
@[simp] theorem State.popAccess_stage (s : State) : (s.popAccess).stage = s.stage := rfl
@[simp] theorem State.popAccess_curBuf (s : State) : (s.popAccess).curBuf = s.curBuf := rfl
@[simp] theorem State.popAccess_curIdx (s : State) : (s.popAccess).curIdx = s.curIdx := rfl
@[simp] theorem State.popAccess_scopeCnt (s : State) : (s.popAccess).scopeCnt = s.scopeCnt := rfl
@[simp] theorem State.popAccess_pktComplete (s : State) : (s.popAccess).pktComplete = s.pktComplete := rfl
@[simp] theorem State.popAccess_trackEn (s : State) : (s.popAccess).trackEn = s.trackEn := rfl
@[simp] theorem State.popAccess_dbgOut (s : State) : (s.popAccess).dbgOut = s.dbgOut := rfl
@[simp] theorem State.popAccess_evtPending (s : State) : (s.popAccess).evtPending = s.evtPending := rfl
@[simp] theorem State.popAccess_idlePolicy (s : State) : (s.popAccess).idlePolicy = s.idlePolicy := rfl
@[simp] theorem State.popAccess_result (s : State) : (s.popAccess).result = s.result := rfl
@[simp] theorem State.popAccess_fault (s : State) : (s.popAccess).fault = s.fault := rfl
@[simp] theorem State.popAccess_tmrP (s : State) : (s.popAccess).tmrP = s.tmrP := rfl
@[simp] theorem State.popAccess_tmrQ (s : State) : (s.popAccess).tmrQ = s.tmrQ := rfl
@[simp] theorem State.popAccess_tmrR (s : State) : (s.popAccess).tmrR = s.tmrR := rfl
@[simp] theorem State.popAccess_tmrWr (s : State) : (s.popAccess).tmrWr = s.tmrWr := rfl
@[simp] theorem State.popAccess_busRdata (s : State) : (s.popAccess).busRdata = s.busRdata := rfl
@[simp] theorem State.popAccess_act (s : State) : (s.popAccess).act = s.act := rfl
@[simp] theorem State.popAccess_host (s : State) : (s.popAccess).host = s.host.tail := rfl
@[simp] theorem State.popAccess_agenda (s : State) : (s.popAccess).agenda = s.agenda := rfl
@[simp] theorem State.popAccess_freeIdx (s : State) : (s.popAccess).freeIdx = s.freeIdx := rfl
@[simp] theorem State.popAccess_buffer (s : State) (bf : Buf) : (s.popAccess).buffer bf = s.buffer bf := rfl
@[simp] theorem State.popAccess_cell (s : State) (bf : Buf) (k : Nat) : (s.popAccess).cell bf k = s.cell bf k := rfl
@[simp] theorem State.popAccess_isFree (s : State) (x : Slot) : (s.popAccess).isFree x = s.isFree x := rfl
@[simp] theorem State.popAccess_cursorCell (s : State) : (s.popAccess).cursorCell = s.cursorCell := rfl
@[simp] theorem State.popAccess_pre (s : State) : (s.popAccess).pre = s.pre := rfl
@[simp] theorem State.popAccess_halted (s : State) : (s.popAccess).halted = s.halted := rfl

/-! submit -/

@[simp] theorem State.submit_cfg (s : State) (accs : List Access) : (s.submit accs).cfg = s.cfg := rfl
@[simp] theorem State.submit_slotA (s : State) (accs : List Access) : (s.submit accs).slotA = s.slotA := rfl
@[simp] theorem State.submit_slotB (s : State) (accs : List Access) : (s.submit accs).slotB = s.slotB := rfl
@[simp] theorem State.submit_idle (s : State) (accs : List Access) : (s.submit accs).idle = s.idle := rfl
@[simp] theorem State.submit_stage (s : State) (accs : List Access) : (s.submit accs).stage = s.stage := rfl
@[simp] theorem State.submit_curBuf (s : State) (accs : List Access) : (s.submit accs).curBuf = s.curBuf := rfl
@[simp] theorem State.submit_curIdx (s : State) (accs : List Access) : (s.submit accs).curIdx = s.curIdx := rfl
@[simp] theorem State.submit_scopeCnt (s : State) (accs : List Access) : (s.submit accs).scopeCnt = s.scopeCnt := rfl
@[simp] theorem State.submit_pktComplete (s : State) (accs : List Access) : (s.submit accs).pktComplete = s.pktComplete := rfl
@[simp] theorem State.submit_trackEn (s : State) (accs : List Access) : (s.submit accs).trackEn = s.trackEn := rfl
@[simp] theorem State.submit_dbgOut (s : State) (accs : List Access) : (s.submit accs).dbgOut = s.dbgOut := rfl
@[simp] theorem State.submit_evtPending (s : State) (accs : List Access) : (s.submit accs).evtPending = s.evtPending := rfl
@[simp] theorem State.submit_idlePolicy (s : State) (accs : List Access) : (s.submit accs).idlePolicy = s.idlePolicy := rfl
@[simp] theorem State.submit_result (s : State) (accs : List Access) : (s.submit accs).result = s.result := rfl
@[simp] theorem State.submit_fault (s : State) (accs : List Access) : (s.submit accs).fault = s.fault := rfl
@[simp] theorem State.submit_tmrP (s : State) (accs : List Access) : (s.submit accs).tmrP = s.tmrP := rfl
@[simp] theorem State.submit_tmrQ (s : State) (accs : List Access) : (s.submit accs).tmrQ = s.tmrQ := rfl
@[simp] theorem State.submit_tmrR (s : State) (accs : List Access) : (s.submit accs).tmrR = s.tmrR := rfl
@[simp] theorem State.submit_tmrWr (s : State) (accs : List Access) : (s.submit accs).tmrWr = s.tmrWr := rfl
@[simp] theorem State.submit_busRdata (s : State) (accs : List Access) : (s.submit accs).busRdata = s.busRdata := rfl
@[simp] theorem State.submit_act (s : State) (accs : List Access) : (s.submit accs).act = s.act := rfl
@[simp] theorem State.submit_host (s : State) (accs : List Access) : (s.submit accs).host = s.host ++ accs := rfl
@[simp] theorem State.submit_agenda (s : State) (accs : List Access) : (s.submit accs).agenda = s.agenda := rfl
@[simp] theorem State.submit_freeIdx (s : State) (accs : List Access) : (s.submit accs).freeIdx = s.freeIdx := rfl
@[simp] theorem State.submit_buffer (s : State) (accs : List Access) (bf : Buf) : (s.submit accs).buffer bf = s.buffer bf := rfl
@[simp] theorem State.submit_cell (s : State) (accs : List Access) (bf : Buf) (k : Nat) : (s.submit accs).cell bf k = s.cell bf k := rfl
@[simp] theorem State.submit_isFree (s : State) (accs : List Access) (x : Slot) : (s.submit accs).isFree x = s.isFree x := rfl
@[simp] theorem State.submit_cursorCell (s : State) (accs : List Access) : (s.submit accs).cursorCell = s.cursorCell := rfl
@[simp] theorem State.submit_pre (s : State) (accs : List Access) : (s.submit accs).pre = s.pre := rfl
@[simp] theorem State.submit_halted (s : State) (accs : List Access) : (s.submit accs).halted = s.halted := rfl

@[simp] theorem State.timerWrite_pre (s : State) (c : BitCell) : (s.timerWrite c).pre = c := rfl

@[simp] theorem State.setCursor_cursorCell (s : State) (b : Buf) (i : BitVec 7) :
    (s.setCursor b i).cursorCell = s.cell b i.toNat := rfl

@[simp] theorem State.setSlot_buffer (s : State) (sl : Slot) (m : Memory) (b : Buf) :
    (s.setSlot sl m).buffer b = if b = sl.buf then m else s.buffer b := by
  cases sl <;> cases b <;> rfl

@[simp] theorem State.setSlot_cell (s : State) (sl : Slot) (m : Memory) (b : Buf) (i : Nat) :
    (s.setSlot sl m).cell b i = if b = sl.buf then m.read i else s.cell b i := by
  cases sl <;> cases b <;> rfl

@[simp] theorem State.rebuildBuffers_cell (s : State) (b : Buf) (i : Nat) :
    (s.rebuildBuffers).cell b i = if b = .idle then (idleImage s.cfg).read i else BitCell.zero := by
  cases b <;> rfl

end Sys2Proof.Machine
end

