-- ==== Sys2Proof/Laws/Ops.lean ====
section
/-! SUPPORT. For each shared operation, what it does and what it leaves alone, said once. -/

namespace Sys2Proof.Machine

@[simp] theorem Slot.buf_inj {x y : Slot} : x.buf = y.buf ↔ x = y := by cases x <;> cases y <;> decide

@[simp] theorem Slot.buf_ne_idle (x : Slot) : x.buf ≠ Buf.idle := by cases x <;> decide

@[simp] theorem Slot.buf_cap (x : Slot) : x.buf.cap = 80 := by cases x <;> rfl

@[simp] theorem isSentinel_zero : isSentinel BitCell.zero = true := rfl

theorem validCell_not_sentinel {c : BitCell} (h : validCell c = true) : isSentinel c = false := by
  simp_all [validCell, isSentinel]

theorem Memory.allValid_iff {m : Memory} {n : Nat} :
    m.allValid n = true ↔ ∀ i, i < n → validCell (m.read i) = true := by
  induction n with
  | zero => simp [Memory.allValid]
  | succ n ih =>
    simp only [Memory.allValid, Bool.and_eq_true, ih]
    exact Nat.forall_lt_succ_right.symm

theorem lengthOk_iff {n : Nat} : lengthOk n = true ↔ 2 ≤ n ∧ n ≤ 79 := by simp [lengthOk]

/-- A before B, and only a free slot (R105). -/
theorem State.firstFreeSlot_some {s : State} {sl : Slot} :
    s.firstFreeSlot = some sl ↔
      (sl = .a ∧ s.isFree .a = true) ∨ (sl = .b ∧ s.isFree .a = false ∧ s.isFree .b = true) := by
  unfold State.firstFreeSlot
  cases sl <;> split_ifs <;> simp_all

theorem State.firstFreeSlot_none {s : State} :
    s.firstFreeSlot = none ↔ s.isFree .a = false ∧ s.isFree .b = false := by
  unfold State.firstFreeSlot
  split_ifs <;> simp_all

theorem State.firstFreeSlot_isFree {s : State} {sl : Slot} (h : s.firstFreeSlot = some sl) : s.isFree sl = true := by
  rcases State.firstFreeSlot_some.mp h with ⟨rfl, hf⟩ | ⟨rfl, _, hf⟩ <;> exact hf

@[simp] theorem State.setSlot_isFree (s : State) (sl x : Slot) (m : Memory) :
    (s.setSlot sl m).isFree x = if x = sl then isSentinel (m.read 0) else s.isFree x := by
  unfold State.isFree
  rw [State.setSlot_cell]
  by_cases h : x = sl <;> simp [h]

@[simp] theorem State.fillSlot_cell (s : State) (sl : Slot) (n : Nat) (b : Buf) (i : Nat) :
    (s.fillSlot sl n).cell b i =
      if b = sl.buf then (if i < n then s.stage.read i else if i = n then BitCell.zero else s.cell b i)
      else s.cell b i := by
  unfold State.fillSlot
  rw [State.setSlot_cell]
  by_cases hb : b = sl.buf
  · subst hb
    simp only [if_true, Memory.read_write, Memory.read_copy]
    by_cases hi : i = n
    · simp [hi]
    · simp [hi, State.cell]
  · simp [hb]

/-- The buffer of a slot, or the idle buffer: every buffer is one of these. -/
theorem Buf.slot_or_idle (b : Buf) : b = .idle ∨ ∃ sl : Slot, b = sl.buf := by
  cases b
  · exact .inr ⟨.a, rfl⟩
  · exact .inr ⟨.b, rfl⟩
  · exact .inl rfl

/-- Mark free writes the sentinel into cell 0 of the slot the cursor is in, and nothing else (R137). -/
@[simp] theorem State.markFree_cell (s : State) (b : Buf) (i : Nat) :
    s.markFree.cell b i = if b = s.curBuf ∧ b ≠ .idle ∧ i = 0 then BitCell.zero else s.cell b i := by
  unfold State.markFree
  cases hc : s.curBuf <;> cases b <;> simp [Slot.buf] <;> by_cases hi : i = 0 <;> simp [hi, State.cell, State.buffer]

/-- After R137 the drained slot is free, and the other slot as it was. -/
@[simp] theorem State.markFree_isFree (s : State) (x : Slot) :
    s.markFree.isFree x = (decide (x.buf = s.curBuf) || s.isFree x) := by
  unfold State.isFree
  rw [State.markFree_cell]
  by_cases h : x.buf = s.curBuf
  · rw [if_pos ⟨h, Slot.buf_ne_idle x, rfl⟩]
    simp [h]
  · simp [h]

/-- The three outcomes of the choice at a boundary (R138, R140). -/
theorem State.selectNext_cases (s : State) :
    (s.isFree .a = false ∧ s.selectNext = s.swapTo .a) ∨
      (s.isFree .a = true ∧ s.isFree .b = false ∧ s.selectNext = s.swapTo .b) ∨
      (s.isFree .a = true ∧ s.isFree .b = true ∧ s.selectNext = s.noQueued) := by
  unfold State.selectNext
  cases s.isFree .a <;> cases s.isFree .b <;> simp

/-! What markFree leaves alone. -/

@[simp] theorem State.markFree_cfg (s : State) : (s.markFree).cfg = s.cfg := by
  unfold State.markFree; split <;> rfl
@[simp] theorem State.markFree_idle (s : State) : (s.markFree).idle = s.idle := by
  unfold State.markFree; split <;> rfl
@[simp] theorem State.markFree_stage (s : State) : (s.markFree).stage = s.stage := by
  unfold State.markFree; split <;> rfl
@[simp] theorem State.markFree_curBuf (s : State) : (s.markFree).curBuf = s.curBuf := by
  unfold State.markFree; split <;> rfl
@[simp] theorem State.markFree_curIdx (s : State) : (s.markFree).curIdx = s.curIdx := by
  unfold State.markFree; split <;> rfl
@[simp] theorem State.markFree_scopeCnt (s : State) : (s.markFree).scopeCnt = s.scopeCnt := by
  unfold State.markFree; split <;> rfl
@[simp] theorem State.markFree_pktComplete (s : State) : (s.markFree).pktComplete = s.pktComplete := by
  unfold State.markFree; split <;> rfl
@[simp] theorem State.markFree_trackEn (s : State) : (s.markFree).trackEn = s.trackEn := by
  unfold State.markFree; split <;> rfl
@[simp] theorem State.markFree_dbgOut (s : State) : (s.markFree).dbgOut = s.dbgOut := by
  unfold State.markFree; split <;> rfl
@[simp] theorem State.markFree_evtPending (s : State) : (s.markFree).evtPending = s.evtPending := by
  unfold State.markFree; split <;> rfl
@[simp] theorem State.markFree_idlePolicy (s : State) : (s.markFree).idlePolicy = s.idlePolicy := by
  unfold State.markFree; split <;> rfl
@[simp] theorem State.markFree_result (s : State) : (s.markFree).result = s.result := by
  unfold State.markFree; split <;> rfl
@[simp] theorem State.markFree_fault (s : State) : (s.markFree).fault = s.fault := by
  unfold State.markFree; split <;> rfl
@[simp] theorem State.markFree_tmrP (s : State) : (s.markFree).tmrP = s.tmrP := by
  unfold State.markFree; split <;> rfl
@[simp] theorem State.markFree_tmrQ (s : State) : (s.markFree).tmrQ = s.tmrQ := by
  unfold State.markFree; split <;> rfl
@[simp] theorem State.markFree_tmrR (s : State) : (s.markFree).tmrR = s.tmrR := by
  unfold State.markFree; split <;> rfl
@[simp] theorem State.markFree_tmrWr (s : State) : (s.markFree).tmrWr = s.tmrWr := by
  unfold State.markFree; split <;> rfl
@[simp] theorem State.markFree_busRdata (s : State) : (s.markFree).busRdata = s.busRdata := by
  unfold State.markFree; split <;> rfl
@[simp] theorem State.markFree_act (s : State) : (s.markFree).act = s.act := by
  unfold State.markFree; split <;> rfl
@[simp] theorem State.markFree_host (s : State) : (s.markFree).host = s.host := by
  unfold State.markFree; split <;> rfl
@[simp] theorem State.markFree_agenda (s : State) : (s.markFree).agenda = s.agenda := by
  unfold State.markFree; split <;> rfl
@[simp] theorem State.markFree_freeIdx (s : State) : (s.markFree).freeIdx = s.freeIdx := by
  unfold State.markFree; split <;> rfl

/-! What swapTo leaves alone. -/

@[simp] theorem State.swapTo_cfg (s : State) (sl : Slot) : (s.swapTo sl).cfg = s.cfg := by
  rfl
@[simp] theorem State.swapTo_slotA (s : State) (sl : Slot) : (s.swapTo sl).slotA = s.slotA := by
  rfl
@[simp] theorem State.swapTo_slotB (s : State) (sl : Slot) : (s.swapTo sl).slotB = s.slotB := by
  rfl
@[simp] theorem State.swapTo_idle (s : State) (sl : Slot) : (s.swapTo sl).idle = s.idle := by
  rfl
@[simp] theorem State.swapTo_stage (s : State) (sl : Slot) : (s.swapTo sl).stage = s.stage := by
  rfl
@[simp] theorem State.swapTo_pktComplete (s : State) (sl : Slot) : (s.swapTo sl).pktComplete = s.pktComplete := by
  rfl
@[simp] theorem State.swapTo_trackEn (s : State) (sl : Slot) : (s.swapTo sl).trackEn = s.trackEn := by
  rfl
@[simp] theorem State.swapTo_dbgOut (s : State) (sl : Slot) : (s.swapTo sl).dbgOut = s.dbgOut := by
  rfl
@[simp] theorem State.swapTo_evtPending (s : State) (sl : Slot) : (s.swapTo sl).evtPending = s.evtPending := by
  rfl
@[simp] theorem State.swapTo_idlePolicy (s : State) (sl : Slot) : (s.swapTo sl).idlePolicy = s.idlePolicy := by
  rfl
@[simp] theorem State.swapTo_result (s : State) (sl : Slot) : (s.swapTo sl).result = s.result := by
  rfl
@[simp] theorem State.swapTo_fault (s : State) (sl : Slot) : (s.swapTo sl).fault = s.fault := by
  rfl
@[simp] theorem State.swapTo_tmrP (s : State) (sl : Slot) : (s.swapTo sl).tmrP = s.tmrP := by
  rfl
@[simp] theorem State.swapTo_tmrQ (s : State) (sl : Slot) : (s.swapTo sl).tmrQ = s.tmrQ := by
  rfl
@[simp] theorem State.swapTo_tmrR (s : State) (sl : Slot) : (s.swapTo sl).tmrR = s.tmrR := by
  rfl
@[simp] theorem State.swapTo_tmrWr (s : State) (sl : Slot) : (s.swapTo sl).tmrWr = s.tmrWr := by
  rfl
@[simp] theorem State.swapTo_busRdata (s : State) (sl : Slot) : (s.swapTo sl).busRdata = s.busRdata := by
  rfl
@[simp] theorem State.swapTo_act (s : State) (sl : Slot) : (s.swapTo sl).act = s.act := by
  rfl
@[simp] theorem State.swapTo_host (s : State) (sl : Slot) : (s.swapTo sl).host = s.host := by
  rfl
@[simp] theorem State.swapTo_agenda (s : State) (sl : Slot) : (s.swapTo sl).agenda = s.agenda := by
  rfl
@[simp] theorem State.swapTo_freeIdx (s : State) (sl : Slot) : (s.swapTo sl).freeIdx = s.freeIdx := by
  rfl

/-! What noQueued leaves alone. -/

@[simp] theorem State.noQueued_cfg (s : State) : (s.noQueued).cfg = s.cfg := by
  unfold State.noQueued; split <;> rfl
@[simp] theorem State.noQueued_slotA (s : State) : (s.noQueued).slotA = s.slotA := by
  unfold State.noQueued; split <;> rfl
@[simp] theorem State.noQueued_slotB (s : State) : (s.noQueued).slotB = s.slotB := by
  unfold State.noQueued; split <;> rfl
@[simp] theorem State.noQueued_idle (s : State) : (s.noQueued).idle = s.idle := by
  unfold State.noQueued; split <;> rfl
@[simp] theorem State.noQueued_stage (s : State) : (s.noQueued).stage = s.stage := by
  unfold State.noQueued; split <;> rfl
@[simp] theorem State.noQueued_scopeCnt (s : State) : (s.noQueued).scopeCnt = s.scopeCnt := by
  unfold State.noQueued; split <;> rfl
@[simp] theorem State.noQueued_dbgOut (s : State) : (s.noQueued).dbgOut = s.dbgOut := by
  unfold State.noQueued; split <;> rfl
@[simp] theorem State.noQueued_evtPending (s : State) : (s.noQueued).evtPending = s.evtPending := by
  unfold State.noQueued; split <;> rfl
@[simp] theorem State.noQueued_idlePolicy (s : State) : (s.noQueued).idlePolicy = s.idlePolicy := by
  unfold State.noQueued; split <;> rfl
@[simp] theorem State.noQueued_result (s : State) : (s.noQueued).result = s.result := by
  unfold State.noQueued; split <;> rfl
@[simp] theorem State.noQueued_fault (s : State) : (s.noQueued).fault = s.fault := by
  unfold State.noQueued; split <;> rfl
@[simp] theorem State.noQueued_tmrP (s : State) : (s.noQueued).tmrP = s.tmrP := by
  unfold State.noQueued; split <;> rfl
@[simp] theorem State.noQueued_tmrQ (s : State) : (s.noQueued).tmrQ = s.tmrQ := by
  unfold State.noQueued; split <;> rfl
@[simp] theorem State.noQueued_tmrR (s : State) : (s.noQueued).tmrR = s.tmrR := by
  unfold State.noQueued; split <;> rfl
@[simp] theorem State.noQueued_tmrWr (s : State) : (s.noQueued).tmrWr = s.tmrWr := by
  unfold State.noQueued; split <;> rfl
@[simp] theorem State.noQueued_busRdata (s : State) : (s.noQueued).busRdata = s.busRdata := by
  unfold State.noQueued; split <;> rfl
@[simp] theorem State.noQueued_act (s : State) : (s.noQueued).act = s.act := by
  unfold State.noQueued; split <;> rfl
@[simp] theorem State.noQueued_host (s : State) : (s.noQueued).host = s.host := by
  unfold State.noQueued; split <;> rfl
@[simp] theorem State.noQueued_agenda (s : State) : (s.noQueued).agenda = s.agenda := by
  unfold State.noQueued; split <;> rfl
@[simp] theorem State.noQueued_freeIdx (s : State) : (s.noQueued).freeIdx = s.freeIdx := by
  unfold State.noQueued; split <;> rfl

/-! What selectNext leaves alone. -/

@[simp] theorem State.selectNext_cfg (s : State) : (s.selectNext).cfg = s.cfg := by
  unfold State.selectNext; split_ifs <;> simp
@[simp] theorem State.selectNext_slotA (s : State) : (s.selectNext).slotA = s.slotA := by
  unfold State.selectNext; split_ifs <;> simp
@[simp] theorem State.selectNext_slotB (s : State) : (s.selectNext).slotB = s.slotB := by
  unfold State.selectNext; split_ifs <;> simp
@[simp] theorem State.selectNext_idle (s : State) : (s.selectNext).idle = s.idle := by
  unfold State.selectNext; split_ifs <;> simp
@[simp] theorem State.selectNext_stage (s : State) : (s.selectNext).stage = s.stage := by
  unfold State.selectNext; split_ifs <;> simp
@[simp] theorem State.selectNext_dbgOut (s : State) : (s.selectNext).dbgOut = s.dbgOut := by
  unfold State.selectNext; split_ifs <;> simp
@[simp] theorem State.selectNext_evtPending (s : State) : (s.selectNext).evtPending = s.evtPending := by
  unfold State.selectNext; split_ifs <;> simp
@[simp] theorem State.selectNext_idlePolicy (s : State) : (s.selectNext).idlePolicy = s.idlePolicy := by
  unfold State.selectNext; split_ifs <;> simp
@[simp] theorem State.selectNext_result (s : State) : (s.selectNext).result = s.result := by
  unfold State.selectNext; split_ifs <;> simp
@[simp] theorem State.selectNext_fault (s : State) : (s.selectNext).fault = s.fault := by
  unfold State.selectNext; split_ifs <;> simp
@[simp] theorem State.selectNext_tmrP (s : State) : (s.selectNext).tmrP = s.tmrP := by
  unfold State.selectNext; split_ifs <;> simp
@[simp] theorem State.selectNext_tmrQ (s : State) : (s.selectNext).tmrQ = s.tmrQ := by
  unfold State.selectNext; split_ifs <;> simp
@[simp] theorem State.selectNext_tmrR (s : State) : (s.selectNext).tmrR = s.tmrR := by
  unfold State.selectNext; split_ifs <;> simp
@[simp] theorem State.selectNext_tmrWr (s : State) : (s.selectNext).tmrWr = s.tmrWr := by
  unfold State.selectNext; split_ifs <;> simp
@[simp] theorem State.selectNext_busRdata (s : State) : (s.selectNext).busRdata = s.busRdata := by
  unfold State.selectNext; split_ifs <;> simp
@[simp] theorem State.selectNext_act (s : State) : (s.selectNext).act = s.act := by
  unfold State.selectNext; split_ifs <;> simp
@[simp] theorem State.selectNext_host (s : State) : (s.selectNext).host = s.host := by
  unfold State.selectNext; split_ifs <;> simp
@[simp] theorem State.selectNext_agenda (s : State) : (s.selectNext).agenda = s.agenda := by
  unfold State.selectNext; split_ifs <;> simp
@[simp] theorem State.selectNext_freeIdx (s : State) : (s.selectNext).freeIdx = s.freeIdx := by
  unfold State.selectNext; split_ifs <;> simp

/-! What packetBoundary leaves alone. -/

@[simp] theorem State.packetBoundary_cfg (s : State) : (s.packetBoundary).cfg = s.cfg := by
  unfold State.packetBoundary; split <;> simp
@[simp] theorem State.packetBoundary_idle (s : State) : (s.packetBoundary).idle = s.idle := by
  unfold State.packetBoundary; split <;> simp
@[simp] theorem State.packetBoundary_stage (s : State) : (s.packetBoundary).stage = s.stage := by
  unfold State.packetBoundary; split <;> simp
@[simp] theorem State.packetBoundary_dbgOut (s : State) : (s.packetBoundary).dbgOut = s.dbgOut := by
  unfold State.packetBoundary; split <;> simp
@[simp] theorem State.packetBoundary_evtPending (s : State) : (s.packetBoundary).evtPending = s.evtPending := by
  unfold State.packetBoundary; split <;> simp
@[simp] theorem State.packetBoundary_idlePolicy (s : State) : (s.packetBoundary).idlePolicy = s.idlePolicy := by
  unfold State.packetBoundary; split <;> simp
@[simp] theorem State.packetBoundary_result (s : State) : (s.packetBoundary).result = s.result := by
  unfold State.packetBoundary; split <;> simp
@[simp] theorem State.packetBoundary_fault (s : State) : (s.packetBoundary).fault = s.fault := by
  unfold State.packetBoundary; split <;> simp
@[simp] theorem State.packetBoundary_tmrP (s : State) : (s.packetBoundary).tmrP = s.tmrP := by
  unfold State.packetBoundary; split <;> simp
@[simp] theorem State.packetBoundary_tmrQ (s : State) : (s.packetBoundary).tmrQ = s.tmrQ := by
  unfold State.packetBoundary; split <;> simp
@[simp] theorem State.packetBoundary_tmrR (s : State) : (s.packetBoundary).tmrR = s.tmrR := by
  unfold State.packetBoundary; split <;> simp
@[simp] theorem State.packetBoundary_tmrWr (s : State) : (s.packetBoundary).tmrWr = s.tmrWr := by
  unfold State.packetBoundary; split <;> simp
@[simp] theorem State.packetBoundary_busRdata (s : State) : (s.packetBoundary).busRdata = s.busRdata := by
  unfold State.packetBoundary; split <;> simp
@[simp] theorem State.packetBoundary_act (s : State) : (s.packetBoundary).act = s.act := by
  unfold State.packetBoundary; split <;> simp
@[simp] theorem State.packetBoundary_host (s : State) : (s.packetBoundary).host = s.host := by
  unfold State.packetBoundary; split <;> simp
@[simp] theorem State.packetBoundary_agenda (s : State) : (s.packetBoundary).agenda = s.agenda := by
  unfold State.packetBoundary; split <;> simp
@[simp] theorem State.packetBoundary_freeIdx (s : State) : (s.packetBoundary).freeIdx = s.freeIdx := by
  unfold State.packetBoundary; split <;> simp

/-! What playCell leaves alone. -/

@[simp] theorem State.playCell_cfg (s : State) : (s.playCell).cfg = s.cfg := by
  simp [State.playCell]
@[simp] theorem State.playCell_idle (s : State) : (s.playCell).idle = s.idle := by
  simp [State.playCell]
@[simp] theorem State.playCell_stage (s : State) : (s.playCell).stage = s.stage := by
  simp [State.playCell]
@[simp] theorem State.playCell_idlePolicy (s : State) : (s.playCell).idlePolicy = s.idlePolicy := by
  simp [State.playCell]
@[simp] theorem State.playCell_result (s : State) : (s.playCell).result = s.result := by
  simp [State.playCell]
@[simp] theorem State.playCell_fault (s : State) : (s.playCell).fault = s.fault := by
  simp [State.playCell]
@[simp] theorem State.playCell_busRdata (s : State) : (s.playCell).busRdata = s.busRdata := by
  simp [State.playCell]
@[simp] theorem State.playCell_act (s : State) : (s.playCell).act = s.act := by
  simp [State.playCell]
@[simp] theorem State.playCell_host (s : State) : (s.playCell).host = s.host := by
  simp [State.playCell]
@[simp] theorem State.playCell_agenda (s : State) : (s.playCell).agenda = s.agenda := by
  simp [State.playCell]
@[simp] theorem State.playCell_freeIdx (s : State) : (s.playCell).freeIdx = s.freeIdx := by
  simp [State.playCell]

/-! What fillSlot leaves alone. -/

@[simp] theorem State.fillSlot_cfg (s : State) (sl : Slot) (n : Nat) : (s.fillSlot sl n).cfg = s.cfg := by
  rfl
@[simp] theorem State.fillSlot_idle (s : State) (sl : Slot) (n : Nat) : (s.fillSlot sl n).idle = s.idle := by
  rfl
@[simp] theorem State.fillSlot_stage (s : State) (sl : Slot) (n : Nat) : (s.fillSlot sl n).stage = s.stage := by
  rfl
@[simp] theorem State.fillSlot_curBuf (s : State) (sl : Slot) (n : Nat) : (s.fillSlot sl n).curBuf = s.curBuf := by
  rfl
@[simp] theorem State.fillSlot_curIdx (s : State) (sl : Slot) (n : Nat) : (s.fillSlot sl n).curIdx = s.curIdx := by
  rfl
@[simp] theorem State.fillSlot_scopeCnt (s : State) (sl : Slot) (n : Nat) : (s.fillSlot sl n).scopeCnt = s.scopeCnt := by
  rfl
@[simp] theorem State.fillSlot_pktComplete (s : State) (sl : Slot) (n : Nat) : (s.fillSlot sl n).pktComplete = s.pktComplete := by
  rfl
@[simp] theorem State.fillSlot_trackEn (s : State) (sl : Slot) (n : Nat) : (s.fillSlot sl n).trackEn = s.trackEn := by
  rfl
@[simp] theorem State.fillSlot_dbgOut (s : State) (sl : Slot) (n : Nat) : (s.fillSlot sl n).dbgOut = s.dbgOut := by
  rfl
@[simp] theorem State.fillSlot_evtPending (s : State) (sl : Slot) (n : Nat) : (s.fillSlot sl n).evtPending = s.evtPending := by
  rfl
@[simp] theorem State.fillSlot_idlePolicy (s : State) (sl : Slot) (n : Nat) : (s.fillSlot sl n).idlePolicy = s.idlePolicy := by
  rfl
@[simp] theorem State.fillSlot_result (s : State) (sl : Slot) (n : Nat) : (s.fillSlot sl n).result = s.result := by
  rfl
@[simp] theorem State.fillSlot_fault (s : State) (sl : Slot) (n : Nat) : (s.fillSlot sl n).fault = s.fault := by
  rfl
@[simp] theorem State.fillSlot_tmrP (s : State) (sl : Slot) (n : Nat) : (s.fillSlot sl n).tmrP = s.tmrP := by
  rfl
@[simp] theorem State.fillSlot_tmrQ (s : State) (sl : Slot) (n : Nat) : (s.fillSlot sl n).tmrQ = s.tmrQ := by
  rfl
@[simp] theorem State.fillSlot_tmrR (s : State) (sl : Slot) (n : Nat) : (s.fillSlot sl n).tmrR = s.tmrR := by
  rfl
@[simp] theorem State.fillSlot_tmrWr (s : State) (sl : Slot) (n : Nat) : (s.fillSlot sl n).tmrWr = s.tmrWr := by
  rfl
@[simp] theorem State.fillSlot_busRdata (s : State) (sl : Slot) (n : Nat) : (s.fillSlot sl n).busRdata = s.busRdata := by
  rfl
@[simp] theorem State.fillSlot_act (s : State) (sl : Slot) (n : Nat) : (s.fillSlot sl n).act = s.act := by
  rfl
@[simp] theorem State.fillSlot_host (s : State) (sl : Slot) (n : Nat) : (s.fillSlot sl n).host = s.host := by
  rfl
@[simp] theorem State.fillSlot_agenda (s : State) (sl : Slot) (n : Nat) : (s.fillSlot sl n).agenda = s.agenda := by
  rfl
@[simp] theorem State.fillSlot_freeIdx (s : State) (sl : Slot) (n : Nat) : (s.fillSlot sl n).freeIdx = s.freeIdx := by
  rfl

/-! What handoff leaves alone. -/

@[simp] theorem State.handoff_cfg (s : State) (sl : Slot) : (s.handoff sl).cfg = s.cfg := by
  simp [State.handoff]
@[simp] theorem State.handoff_slotA (s : State) (sl : Slot) : (s.handoff sl).slotA = s.slotA := by
  simp [State.handoff]
@[simp] theorem State.handoff_slotB (s : State) (sl : Slot) : (s.handoff sl).slotB = s.slotB := by
  simp [State.handoff]
@[simp] theorem State.handoff_idle (s : State) (sl : Slot) : (s.handoff sl).idle = s.idle := by
  simp [State.handoff]
@[simp] theorem State.handoff_stage (s : State) (sl : Slot) : (s.handoff sl).stage = s.stage := by
  simp [State.handoff]
@[simp] theorem State.handoff_dbgOut (s : State) (sl : Slot) : (s.handoff sl).dbgOut = s.dbgOut := by
  simp [State.handoff]
@[simp] theorem State.handoff_idlePolicy (s : State) (sl : Slot) : (s.handoff sl).idlePolicy = s.idlePolicy := by
  simp [State.handoff]
@[simp] theorem State.handoff_result (s : State) (sl : Slot) : (s.handoff sl).result = s.result := by
  simp [State.handoff]
@[simp] theorem State.handoff_fault (s : State) (sl : Slot) : (s.handoff sl).fault = s.fault := by
  simp [State.handoff]
@[simp] theorem State.handoff_busRdata (s : State) (sl : Slot) : (s.handoff sl).busRdata = s.busRdata := by
  simp [State.handoff]
@[simp] theorem State.handoff_host (s : State) (sl : Slot) : (s.handoff sl).host = s.host := by
  simp [State.handoff]
@[simp] theorem State.handoff_agenda (s : State) (sl : Slot) : (s.handoff sl).agenda = s.agenda := by
  simp [State.handoff]

/-! What loadSlot leaves alone. -/

@[simp] theorem State.loadSlot_cfg (s : State) (sl : Slot) (n : Nat) : (s.loadSlot sl n).cfg = s.cfg := by
  unfold State.loadSlot; split <;> simp
@[simp] theorem State.loadSlot_idle (s : State) (sl : Slot) (n : Nat) : (s.loadSlot sl n).idle = s.idle := by
  unfold State.loadSlot; split <;> simp
@[simp] theorem State.loadSlot_stage (s : State) (sl : Slot) (n : Nat) : (s.loadSlot sl n).stage = s.stage := by
  unfold State.loadSlot; split <;> simp
@[simp] theorem State.loadSlot_dbgOut (s : State) (sl : Slot) (n : Nat) : (s.loadSlot sl n).dbgOut = s.dbgOut := by
  unfold State.loadSlot; split <;> simp
@[simp] theorem State.loadSlot_idlePolicy (s : State) (sl : Slot) (n : Nat) : (s.loadSlot sl n).idlePolicy = s.idlePolicy := by
  unfold State.loadSlot; split <;> simp
@[simp] theorem State.loadSlot_fault (s : State) (sl : Slot) (n : Nat) : (s.loadSlot sl n).fault = s.fault := by
  unfold State.loadSlot; split <;> simp
@[simp] theorem State.loadSlot_busRdata (s : State) (sl : Slot) (n : Nat) : (s.loadSlot sl n).busRdata = s.busRdata := by
  unfold State.loadSlot; split <;> simp
@[simp] theorem State.loadSlot_host (s : State) (sl : Slot) (n : Nat) : (s.loadSlot sl n).host = s.host := by
  unfold State.loadSlot; split <;> simp
@[simp] theorem State.loadSlot_agenda (s : State) (sl : Slot) (n : Nat) : (s.loadSlot sl n).agenda = s.agenda := by
  unfold State.loadSlot; split <;> simp

/-! What boundary leaves alone. -/

@[simp] theorem State.boundary_cfg (s : State) : (s.boundary).cfg = s.cfg := by
  unfold State.boundary; split <;> rfl
@[simp] theorem State.boundary_slotA (s : State) : (s.boundary).slotA = s.slotA := by
  unfold State.boundary; split <;> rfl
@[simp] theorem State.boundary_slotB (s : State) : (s.boundary).slotB = s.slotB := by
  unfold State.boundary; split <;> rfl
@[simp] theorem State.boundary_idle (s : State) : (s.boundary).idle = s.idle := by
  unfold State.boundary; split <;> rfl
@[simp] theorem State.boundary_stage (s : State) : (s.boundary).stage = s.stage := by
  unfold State.boundary; split <;> rfl
@[simp] theorem State.boundary_curBuf (s : State) : (s.boundary).curBuf = s.curBuf := by
  unfold State.boundary; split <;> rfl
@[simp] theorem State.boundary_curIdx (s : State) : (s.boundary).curIdx = s.curIdx := by
  unfold State.boundary; split <;> rfl
@[simp] theorem State.boundary_scopeCnt (s : State) : (s.boundary).scopeCnt = s.scopeCnt := by
  unfold State.boundary; split <;> rfl
@[simp] theorem State.boundary_pktComplete (s : State) : (s.boundary).pktComplete = s.pktComplete := by
  unfold State.boundary; split <;> rfl
@[simp] theorem State.boundary_dbgOut (s : State) : (s.boundary).dbgOut = s.dbgOut := by
  unfold State.boundary; split <;> rfl
@[simp] theorem State.boundary_idlePolicy (s : State) : (s.boundary).idlePolicy = s.idlePolicy := by
  unfold State.boundary; split <;> rfl
@[simp] theorem State.boundary_result (s : State) : (s.boundary).result = s.result := by
  unfold State.boundary; split <;> rfl
@[simp] theorem State.boundary_tmrP (s : State) : (s.boundary).tmrP = s.tmrP := by
  unfold State.boundary; split <;> rfl
@[simp] theorem State.boundary_tmrQ (s : State) : (s.boundary).tmrQ = s.tmrQ := by
  unfold State.boundary; split <;> rfl
@[simp] theorem State.boundary_tmrR (s : State) : (s.boundary).tmrR = s.tmrR := by
  unfold State.boundary; split <;> rfl
@[simp] theorem State.boundary_tmrWr (s : State) : (s.boundary).tmrWr = s.tmrWr := by
  unfold State.boundary; split <;> rfl
@[simp] theorem State.boundary_busRdata (s : State) : (s.boundary).busRdata = s.busRdata := by
  unfold State.boundary; split <;> rfl
@[simp] theorem State.boundary_host (s : State) : (s.boundary).host = s.host := by
  unfold State.boundary; split <;> rfl
@[simp] theorem State.boundary_agenda (s : State) : (s.boundary).agenda = s.agenda := by
  unfold State.boundary; split <;> rfl
@[simp] theorem State.boundary_freeIdx (s : State) : (s.boundary).freeIdx = s.freeIdx := by
  unfold State.boundary; split <;> rfl

/-! What resetBlock leaves alone. -/

@[simp] theorem State.resetBlock_cfg (s : State) : (s.resetBlock).cfg = s.cfg := by
  rfl
@[simp] theorem State.resetBlock_busRdata (s : State) : (s.resetBlock).busRdata = s.busRdata := by
  rfl
@[simp] theorem State.resetBlock_host (s : State) : (s.resetBlock).host = s.host := by
  rfl
@[simp] theorem State.resetBlock_agenda (s : State) : (s.resetBlock).agenda = s.agenda := by
  rfl

theorem State.selectNext_cell (s : State) (b : Buf) (i : Nat) : s.selectNext.cell b i = s.cell b i := by
  have : s.selectNext.buffer b = s.buffer b := by cases b <;> simp [State.buffer]
  simp [State.cell, this]

@[simp] theorem State.onSentinel_eq (s : State) : s.onSentinel = isSentinel s.cursorCell := rfl

/-! The phases of R145. -/

theorem State.isPlaying_iff {s : State} : s.isPlaying = true ↔ s.trackEn = true ∧ s.pktComplete = false := by
  simp [State.isPlaying]

theorem State.isIdle_iff {s : State} :
    s.isIdle = true ↔ s.pktComplete = true ∧
      ((s.idlePolicy = .loop ∧ s.trackEn = true ∧ s.curBuf = .idle) ∨ (s.idlePolicy = .disable ∧ s.trackEn = false)) := by
  unfold State.isIdle
  cases s.idlePolicy <;> simp

theorem State.isExhausted_iff {s : State} :
    s.isExhausted = true ↔ s.idlePolicy = .disable ∧ s.trackEn = false ∧ s.pktComplete = true ∧
      isSentinel s.cursorCell = true := by
  simp [State.isExhausted, and_assoc]

@[simp] theorem State.playCell_evtPending (s : State) : s.playCell.evtPending = false := rfl

@[simp] theorem State.playCell_tmr (s : State) :
    (⟨s.playCell.tmrP, s.playCell.tmrQ, s.playCell.tmrR⟩ : BitCell) = s.cursorCell := by
  simp [State.playCell]

/-- A step writes no cell but cell 0 of the slot the cursor is in, and only the sentinel (R51, R137). -/
theorem State.playCell_cell (s : State) (b : Buf) (i : Nat) :
    s.playCell.cell b i = s.cell b i ∨
      (b = s.curBuf ∧ b ≠ .idle ∧ i = 0 ∧ s.playCell.cell b i = BitCell.zero) := by
  have h : s.playCell.cell b i = ((s.timerWrite s.cursorCell).scopeTick.advance).packetBoundary.cell b i := rfl
  rw [h]
  unfold State.packetBoundary
  split
  · rw [State.selectNext_cell, State.markFree_cell]
    split
    · rename_i hc
      exact .inr ⟨by simpa using hc.1, hc.2.1, hc.2.2, rfl⟩
    · exact .inl (by simp)
  · exact .inl (by simp)

/-! The canonical form, kept by every operation that writes cells. -/

theorem State.wfMemory_iff {s : State} :
    s.wfMemory = true ↔
      s.slotA.wf slotCap = true ∧ s.slotB.wf slotCap = true ∧ s.stage.wf slotCap = true ∧ s.idle.wf idleCap = true := by
  simp [State.wfMemory, and_assoc]

theorem idleImage_wf (cfg : Config) : (idleImage cfg).wf idleCap = true := Memory.wf_ofCells (by simp)

theorem State.setSlot_wfMemory {s : State} {m : Memory} (sl : Slot) (h : s.wfMemory = true) (hm : m.wf slotCap = true) :
    (s.setSlot sl m).wfMemory = true := by
  obtain ⟨ha, hb, hs, hi⟩ := State.wfMemory_iff.mp h
  cases sl
  · exact State.wfMemory_iff.mpr ⟨hm, hb, hs, hi⟩
  · exact State.wfMemory_iff.mpr ⟨ha, hm, hs, hi⟩

theorem State.buffer_wf {s : State} (sl : Slot) (h : s.wfMemory = true) : (s.buffer sl.buf).wf slotCap = true := by
  obtain ⟨ha, hb, _, _⟩ := State.wfMemory_iff.mp h
  cases sl
  · exact ha
  · exact hb

theorem State.markFree_wfMemory {s : State} (h : s.wfMemory = true) : s.markFree.wfMemory = true := by
  unfold State.markFree
  split
  · exact State.setSlot_wfMemory .a h (Memory.wf_write _ (State.buffer_wf .a h) (by decide))
  · exact State.setSlot_wfMemory .b h (Memory.wf_write _ (State.buffer_wf .b h) (by decide))
  · exact h

theorem State.fillSlot_wfMemory {s : State} {n : Nat} (sl : Slot) (h : s.wfMemory = true) (hn : n < slotCap) :
    (s.fillSlot sl n).wfMemory = true :=
  State.setSlot_wfMemory sl h
    (Memory.wf_write _ (Memory.wf_copy _ (State.buffer_wf sl h) (Nat.le_of_lt hn)) hn)

theorem State.writeStage_wfMemory {s : State} {i : Nat} (f : CellField) (v : Word) (h : s.wfMemory = true)
    (hi : i < slotCap) : (s.writeStage i f v).wfMemory = true := by
  obtain ⟨ha, hb, hs, hi'⟩ := State.wfMemory_iff.mp h
  exact State.wfMemory_iff.mpr ⟨ha, hb, Memory.wf_write _ hs hi, hi'⟩

theorem State.rebuildBuffers_wfMemory {s : State} (h : s.wfMemory = true) : s.rebuildBuffers.wfMemory = true := by
  obtain ⟨_, _, hs, _⟩ := State.wfMemory_iff.mp h
  exact State.wfMemory_iff.mpr ⟨rfl, rfl, hs, idleImage_wf s.cfg⟩

/-- A scheduler step plays a cell or raises the fault of R131. -/
theorem execSchedStep_cases (s : State) :
    (∃ f, s.stepFault = some f ∧ execSchedStep s = .next (s.raiseFault f)) ∨
      (s.stepFault = none ∧ execSchedStep s = .next s.playCell) := by
  unfold execSchedStep
  cases h : s.stepFault with
  | none => exact .inr ⟨rfl, rfl⟩
  | some f => exact .inl ⟨f, rfl, rfl⟩

theorem State.stepFault_none {s : State} :
    s.stepFault = none ↔ isSentinel s.cursorCell = false ∧ s.curIdx.toNat + 1 < s.curBuf.cap := by
  unfold State.stepFault
  split_ifs with h1 h2 h3
  · simp; omega
  · simp [h2]
  · simp; omega
  · simp_all

/-! The wire of R204. -/

theorem State.wireLevel_off {s : State} (t : Nat) (h : s.trackEn = false) : s.wireLevel t = none := by
  simp [State.wireLevel, h]

/-- Within a valid cell the level is that of R204, and no free value. -/
theorem State.wireLevel_valid {s : State} {t : Nat} (h : s.trackEn = true) (hv : validCell s.act = true)
    (ht : t < cellTicks s.act) : s.wireLevel t = some (cellLevel s.act t) := by
  simp [State.wireLevel, h, hv, ht]

/-- A LOAD_PATTERN fails with one of its codes, or fills the first free slot (R101, R106). -/
theorem execLoadPattern_cases (n : Nat) (s : State) :
    (∃ r, r ≠ .ok ∧ execLoadPattern n s = .next (s.setResult r)) ∨
      (∃ sl, lengthOk n = true ∧ s.stage.allValid n = true ∧ s.firstFreeSlot = some sl ∧
        execLoadPattern n s = .next (s.loadSlot sl n)) := by
  unfold execLoadPattern
  split_ifs with h1 h2
  · exact .inl ⟨.invalidLength, by decide, rfl⟩
  · exact .inl ⟨.invalidCell, by decide, rfl⟩
  · cases h : s.firstFreeSlot with
    | none => exact .inl ⟨.bufferUnavailable, by decide, rfl⟩
    | some sl => exact .inr ⟨sl, by simpa using h1, by simpa using h2, rfl, rfl⟩

/-- Every instruction answers a next state, in every state. -/
theorem exec_next (i : Instr) (s : State) : ∃ t, exec i s = .next t := by
  cases i with
  | configure pol => exact ⟨_, rfl⟩
  | loadPattern n =>
    rcases execLoadPattern_cases n s with ⟨r, _, h⟩ | ⟨sl, _, _, _, h⟩
    · exact ⟨_, h⟩
    · exact ⟨_, h⟩
  | enableTrack => exact ⟨_, rfl⟩
  | disableTrack => exact ⟨_, rfl⟩
  | schedStep =>
    rcases execSchedStep_cases s with ⟨f, _, h⟩ | ⟨_, h⟩
    · exact ⟨_, h⟩
    · exact ⟨_, h⟩

end Sys2Proof.Machine
end

