-- ==== Sys2Proof/Laws/PerInstr.lean ====
section
/-! SUPPORT. The family TableRow: the encoder's word of an instruction matches that instruction's row of the table (R83). -/

namespace Sys2Proof.Laws.TableRow

/-- The word of an instruction matches its row: `(w & mask) == match`. -/
def Statement (i : Instr) : Prop := ∀ w, encode i = some w → ∃ r, tableRow i = some r ∧ w &&& r.2 = r.1

theorem configure (pol : IdlePolicy) : Statement (.configure pol) := by
  intro w hw
  refine ⟨_, rfl, ?_⟩
  cases Option.some.inj hw
  cases pol <;> decide

theorem loadPattern (n : Nat) : Statement (.loadPattern n) := by
  intro w hw
  refine ⟨_, rfl, ?_⟩
  simp only [encode] at hw
  split_ifs at hw with hn
  cases Option.some.inj hw
  have all : ∀ k : Fin 128, (place (BitVec.ofNat 7 k.val) 4 ||| 0x2) &&& 0xFFFFF80F = (0x00000002 : Word) := by decide
  exact all ⟨n, hn⟩

theorem enableTrack : Statement .enableTrack := by
  intro w hw
  cases Option.some.inj hw
  exact ⟨_, rfl, by decide⟩

theorem disableTrack : Statement .disableTrack := by
  intro w hw
  cases Option.some.inj hw
  exact ⟨_, rfl, by decide⟩

/-- The EVENT row has no word (R87). -/
theorem schedStep : Statement .schedStep := by
  intro w hw
  cases hw

end Sys2Proof.Laws.TableRow
end

