-- ==== Sys2Proof/Laws/Step.lean ====
section
/-! SUPPORT. What one step can do, said once: every invariant is proved by cases on it. -/

namespace Sys2Proof.Machine

/-- Everything a step from `s` to `t` can be. -/
inductive StepCase (s t : State) : Prop where
  /-- A move that is not enabled, or a held command write, or no access left. -/
  | nothing (hm : s.nextMove ≠ .rst) (h : t = s.beginMove)
  /-- A scheduler step (R130). -/
  | sched (hm : s.nextMove = .sched) (he : s.evtPending = true) (hf : s.halted = false)
      (h : exec .schedStep s.beginMove = .next t)
  /-- A read (R62). -/
  | read (hm : s.nextMove = .host) (v : Word) (h : t = s.beginMove.popAccess.returnData v)
  /-- A STAGE write (R55). -/
  | stage (hm : s.nextMove = .host) (i : Nat) (f : CellField) (v : Word) (hi : i < slotCap)
      (h : t = s.beginMove.popAccess.writeStage i f v)
  /-- A write that is ignored (R60), or a command write on a halted block (R53). -/
  | ignored (hm : s.nextMove = .host) (h : t = s.beginMove.popAccess)
  /-- A command (R100). -/
  | command (hm : s.nextMove = .host) (w : Word) (i : Instr) (he : s.evtPending = false) (hf : s.halted = false)
      (hd : decodeWord w = .ok i) (h : exec i s.beginMove.popAccess = .next t)
  /-- An illegal command word (R112). -/
  | illegal (hm : s.nextMove = .host) (w : Word) (e : DecodeError) (he : s.evtPending = false) (hf : s.halted = false)
      (hd : decodeWord w = .error e) (h : t = s.beginMove.popAccess.illegalCommand)
  /-- A reload boundary (R201). -/
  | boundary (hm : s.nextMove = .timer) (he : s.boundaryEnabled = true) (h : t = s.beginMove.boundary)
  /-- The reset input (R230). -/
  | rst (hm : s.nextMove = .rst) (h : t = s.beginMove.resetBlock)

theorem stageReg_index {k i : Nat} {f : CellField} (h : stageReg k = .stage i f) : i = k / 16 := by
  unfold stageReg at h
  split at h <;> simp_all

theorem regAt_stage {off i : Nat} {f : CellField} (h : regAt off = some (.stage i f)) : i < slotCap := by
  unfold regAt at h
  split_ifs at h with h1 h2
  · split at h <;> simp at h
  · have := stageReg_index (Option.some.inj h)
    unfold slotCap
    omega

theorem busDecode_ok {off : BitVec 12} {size : AccessSize} {r : Reg} (h : busDecode off size = .ok r) :
    size = .word ∧ off.toNat % 4 = 0 ∧ regAt off.toNat = some r := by
  unfold busDecode at h
  split_ifs at h with h1 h2
  · split at h
    · rename_i r' hr
      exact ⟨by simpa using h1, by simpa using h2, by rw [hr]; simpa using h⟩
    · simp at h

/-- A command decoded from a word is no EVENT row (R87). -/
theorem decodeWord_ne_schedStep (w : Word) : decodeWord w ≠ .ok .schedStep := by
  unfold decodeWord
  split_ifs <;> simp

theorem hostMove_next {b t : State} (h : hostMove b = .next t) :
    t = b ∨ (∃ v, t = b.popAccess.returnData v) ∨
      (∃ i f v, i < slotCap ∧ t = b.popAccess.writeStage i f v) ∨ t = b.popAccess ∨
      (∃ w, b.evtPending = false ∧ cmdWrite w b.popAccess = .next t) := by
  unfold hostMove at h
  split at h
  · simp at h; exact .inl h.symm
  · rename_i a rest _
    by_cases hh : b.holds a = true
    · rw [if_pos hh] at h; simp at h; exact .inl h.symm
    · rw [if_neg hh] at h
      cases a with
      | read off size =>
        simp only [access] at h
        split at h
        · simp at h; exact .inr (.inl ⟨_, h.symm⟩)
        · simp at h
      | write off size v =>
        simp only [access] at h
        split at h
        · rename_i r hr
          cases r with
          | cmd =>
            refine .inr (.inr (.inr (.inr ⟨v, ?_, h⟩)))
            simpa [State.holds, Access.isCommand, hr] using hh
          | stage i f =>
            simp only [writeReg] at h
            simp at h
            exact .inr (.inr (.inl ⟨i, f, v, regAt_stage (busDecode_ok hr).2.2, h.symm⟩))
          | _ => simp only [writeReg] at h; simp at h; exact .inr (.inr (.inr (.inl h.symm)))
        · simp at h

/-- What a step that answers a next state has done. -/
theorem step_cases {s t : State} (h : step s = .next t) : StepCase s t := by
  unfold step at h
  cases hm : s.nextMove with
  | sched =>
    simp only [hm, runMove] at h
    split at h
    · rename_i he
      have he : s.evtPending = true ∧ s.halted = false := by simpa [State.schedEnabled] using he
      exact .sched hm he.1 he.2 h
    · simp at h; exact .nothing (by simp [hm]) h.symm
  | timer =>
    simp only [hm, runMove] at h
    split at h
    · rename_i he
      simp at h; exact .boundary hm he h.symm
    · simp at h; exact .nothing (by simp [hm]) h.symm
  | rst => simp [hm, runMove] at h; exact .rst hm h.symm
  | host =>
    simp only [hm, runMove] at h
    rcases hostMove_next h with h | ⟨v, h⟩ | ⟨i, f, v, hi, h⟩ | h | ⟨w, he, h⟩
    · exact .nothing (by simp [hm]) h
    · exact .read hm v h
    · exact .stage hm i f v hi h
    · exact .ignored hm h
    · unfold cmdWrite at h
      split at h
      · simp at h; exact .ignored hm h.symm
      · rename_i hf
        split at h
        · rename_i i hd
          exact .command hm w i he (by simpa using hf) hd h
        · rename_i e hd
          simp at h
          exact .illegal hm w e he (by simpa using hf) hd h.symm

/-! The fault outcome of R12. -/

theorem outcome_of_raised {s : State} {f : Fault} (h : s.raised = some f) : outcome s = .fault f := by
  simp [outcome, h]

theorem outcome_of_not_raised {s : State} (h : s.raised = none) : outcome s = step s := by
  simp [outcome, h]

/-- What raises a fault: an enabled scheduler step that faults, or an enabled boundary with an event pending. -/
theorem State.raised_iff {s : State} {f : Fault} :
    s.raised = some f ↔
      (s.nextMove = .sched ∧ s.schedEnabled = true ∧ s.stepFault = some f) ∨
        (s.nextMove = .timer ∧ s.boundaryEnabled = true ∧ s.evtPending = true ∧ f = .eventOverrun) := by
  unfold State.raised
  cases s.nextMove <;> simp [and_assoc, @eq_comm _ f]

/-- Where a transition raises a fault, the step answers the state `raise Fault` leaves, after the reload of a boundary. -/
theorem step_of_raised {s : State} {f : Fault} (h : s.raised = some f) :
    step s = .next (s.beginMove.raiseFault f) ∨ step s = .next (s.beginMove.reload.raiseFault f) := by
  rcases State.raised_iff.mp h with ⟨hm, he, hf⟩ | ⟨hm, he, hp, rfl⟩
  · left
    have hf : s.beginMove.stepFault = some f := hf
    have hx : execSchedStep s.beginMove = .next (s.beginMove.raiseFault f) := by simp [execSchedStep, hf]
    rw [step, hm]
    exact (if_pos he).trans hx
  · right
    have hb : s.beginMove.boundary = s.beginMove.reload.raiseFault .eventOverrun := if_pos hp
    rw [step, hm, ← hb]
    exact if_pos he

/-- The end of a run of steps from a reachable state is reachable. -/
theorem Reachable.runSteps {k : Nat} {s t : State} (h : Reachable s) (hr : Machine.runSteps k s = .next t) : Reachable t := by
  induction k generalizing s with
  | zero => cases hr; exact h
  | succ k ih =>
    unfold Machine.runSteps at hr
    split at hr
    · rename_i u hu
      exact ih (h.step hu) hr
    · cases hr
    · cases hr

end Sys2Proof.Machine
end

