-- ==== Sys2Proof/Tests/Slice0.lean ====
section
/-! SUPPORT. Tests of the model's own work, with results from the spec's vectors and examples, and a witness for the hypotheses
of each statement in Certificates/Slice0. -/

namespace Sys2Proof.Tests

open Sys2Proof.Machine

/-! States the tests start from, under the reference configuration EX (R10). -/

/-- Reset under EX. -/
def ex0 : State := State.resetWith Config.ex BitCell.zero 1

def c0 : BitCell := ⟨100, 50, 0⟩
def c1 : BitCell := ⟨200, 100, 0⟩
def c2 : BitCell := ⟨300, 150, 1⟩

/-- Reset under EX with three cells staged, the start of V28. -/
def staged : State := { ex0 with stage := Memory.ofCells 0 [c0, c1, c2] }

/-- A slot A of three cells in play with the cursor on cell 1 and an event pending, the start of V42. -/
def playing : State :=
  { ex0 with
    slotA := Memory.ofCells 0 [c0, c1, c2], curBuf := .slotA, curIdx := 1, pktComplete := false, trackEn := true,
    evtPending := true }

/-- The same with the cursor on the last cell. -/
def lastCell : State := { playing with curIdx := 2 }

/-- The same with slot B queued, the start of V45. -/
def queuedB : State := { lastCell with slotB := Memory.ofCells 0 [c2, c1] }

/-- Slot B in play on its last cell with slot A queued, the start of V46. -/
def queuedA : State :=
  { playing with slotB := Memory.ofCells 0 [c2, c1], curBuf := .slotB, curIdx := 1 }

/-- Both slots busy, two cells staged. -/
def busy : State := { queuedB with stage := Memory.ofCells 0 [c0, c1] }

/-- Under EX without the forced update. -/
def noForce : State := { ex0 with cfg := { Config.ex with enableForcesUpdate := false } }

/-- Under EX without the deadline assumption. -/
def noDeadline : State := { playing with cfg := { Config.ex with assumeDeadline := false } }

/-- The host's move next, on one access. -/
def onAccess (s : State) (a : Access) : State := { s with host := [a], agenda := [.host] }

/-- A move next. -/
def onMove (s : State) (m : Move) : State := { s with agenda := [m] }

/-- The outcome is a next state of which a test holds. -/
def after (o : Host.Outcome State Fault Refusal) (p : State → Bool) : Bool :=
  match o with
  | .next t => p t
  | .fault _ => false
  | .refused _ => false

theorem next_of_after {o : Host.Outcome State Fault Refusal} {p : State → Bool} (h : after o p = true) :
    ∃ t, o = .next t ∧ p t = true := by
  cases o with
  | next t => exact ⟨t, rfl, h⟩
  | fault f => cases h
  | refused r => cases h

/-- The outcome is exactly this next state. -/
def lands (o : Host.Outcome State Fault Refusal) (t : State) : Bool := after o fun u => u == t

/-- The outcome is exactly this refusal. -/
def stops (o : Host.Outcome State Fault Refusal) (r : Refusal) : Bool :=
  match o with
  | .next _ => false
  | .fault _ => false
  | .refused r' => r' == r

/-! Ill-formed instructions, refused by each check. -/

theorem test_count_too_wide : (Instr.loadPattern 128).operandFits = false ∧ (Instr.loadPattern 128).wf = false := by
  decide

theorem test_event_row_has_no_word : Instr.schedStep.hasWord = false ∧ Instr.schedStep.wfCommand = false := by decide

theorem test_wide_count_not_encoded : encode (.loadPattern 128) = none ∧ encode .schedStep = none := by decide

theorem test_long_slot_not_canonical :
    State.wfMemory { ex0 with slotA := [(80, c0)] } = false ∧ State.wfMemory { ex0 with slotA := [(0, BitCell.zero)] } = false ∧
      State.wfMemory { ex0 with slotA := [(1, c0), (0, c0)] } = false := by decide

theorem test_parameters_out_of_range :
    ({ Config.ex with idleCells := [c0] } : Config).wf = false ∧
      ({ Config.ex with idleCells := [c0, c0, c0, c0, c0, c0] } : Config).wf = false ∧
      ({ Config.ex with idleCells := [c0, ⟨5, 6, 0⟩] } : Config).wf = false ∧
      ({ Config.ex with ticksPerUs := 0 } : Config).wf = false := by decide

/-! Decoding: words written out from R82 and R83 (vectors V1 to V15 of 95_test_vectors.md). -/

theorem test_decode_configure :
    decodeWord 0b00000000000000000000000000000001 = .ok (.configure .disable) ∧
      decodeWord 0b00000000000000000000000000010001 = .ok (.configure .loop) := by decide

theorem test_decode_loadPattern :
    decodeWord 0b00000000000000000000000000110010 = .ok (.loadPattern 3) ∧
      decodeWord 0b00000000000000000000010011110010 = .ok (.loadPattern 79) ∧
      decodeWord 0b00000000000000000000010000000010 = .ok (.loadPattern 64) ∧
      decodeWord 0b00000000000000000000000000000010 = .ok (.loadPattern 0) := by decide

theorem test_decode_enableTrack : decodeWord 0b00000000000000000000000000000011 = .ok .enableTrack := by decide

theorem test_decode_disableTrack : decodeWord 0b00000000000000000000000000000100 = .ok .disableTrack := by decide

/-- V3, V9, V11, V12, V14, V15. -/
theorem test_decode_illegal :
    decodeWord 0x00000021 = .error .reservedBits ∧ decodeWord 0x00000802 = .error .reservedBits ∧
      decodeWord 0x00000013 = .error .reservedBits ∧ decodeWord 0x80000003 = .error .reservedBits ∧
      decodeWord 0x00000000 = .error .unassignedOpcode ∧ decodeWord 0x00000005 = .error .unassignedOpcode ∧
      decodeWord 0x0000000F = .error .unassignedOpcode := by decide

/-- V27: the byte view of 0x1C2, and a byte string too short. -/
theorem test_decode_bytes :
    decodeBytes [0xC2, 0x01, 0x00, 0x00, 0xFF] = .ok (.loadPattern 28, [0xFF]) ∧
      bytesOfWord 0x000001C2 = [0xC2, 0x01, 0x00, 0x00] ∧ decodeBytes [0x03, 0x00, 0x00] = .error .truncated := by decide

/-- The encodings R89 prints. -/
theorem test_encode :
    encode (.configure .loop) = some 0x00000011 ∧ encode (.loadPattern 28) = some 0x000001C2 ∧
      encode .enableTrack = some 0x00000003 ∧ encode .disableTrack = some 0x00000004 := by decide

theorem test_table_word : decodeTableWord 32 0x4F2 = some (.loadPattern 79) ∧ decodeTableWord 32 0x21 = none := by decide

/-! CONFIGURE. -/

/-- V2 and the example of R103. -/
theorem test_configure_loop :
    after (exec (.configure .loop) ex0) (fun t => t.statusWord == 0x0001023B && t.pre == ⟨10, 5, 0⟩ && t.scopeCnt == 3) = true := by
  decide

/-- V40: in mid-packet, with the staging cells and FAULT left. -/
theorem test_configure_discards :
    after (exec (.configure .disable) busy) (fun t =>
      t.statusWord == 0x0001021B && t.stage == busy.stage && t.pre == ⟨10, 5, 0⟩) = true := by decide

/-! LOAD_PATTERN. -/

/-- V28. -/
theorem test_load_hands_off :
    after (exec (.loadPattern 3) staged) (fun t =>
      t.statusWord == 0x00010096 && t.pre == c0 && t.act == c0 && t.cell .slotA 2 == c2 && t.cell .slotA 3 == BitCell.zero) =
      true := by decide

/-- V34 and V35, V36, V37: pulse equal to period and pulse 0 are valid; the order of the codes. -/
theorem test_load_codes :
    after (exec (.loadPattern 2) { ex0 with stage := Memory.ofCells 0 [⟨100, 100, 7⟩, ⟨100, 0, 0⟩] }) (fun t =>
      t.result == .ok && t.pre == ⟨100, 100, 7⟩) = true ∧
    after (exec (.loadPattern 2) { busy with stage := Memory.ofCells 0 [⟨5, 6, 0⟩, ⟨5, 6, 0⟩] }) (fun t =>
      t.result == .invalidCell) = true ∧
    after (exec (.loadPattern 1) busy) (fun t => t.result == .invalidLength) = true ∧
    lands (exec (.loadPattern 2) busy) { busy with result := .bufferUnavailable } = true := by decide

/-! ENABLE_TRACK and DISABLE_TRACK. -/

/-- V30. -/
theorem test_enable_from_reset :
    after (exec .enableTrack ex0) (fun t => t.statusWord == 0x0001029F && t.act == ⟨10, 5, 0⟩) = true := by decide

/-- V58. -/
theorem test_enable_without_forced_update :
    after (exec .enableTrack noForce) (fun t => t.trackEn && !t.evtPending) = true := by decide

/-- V38: slot A busy, not complete, the cursor kept. -/
theorem test_disable_mid_packet :
    after (exec .disableTrack { lastCell with evtPending := false }) (fun t =>
      t.statusWord == 0x00020012 && t.slotA == lastCell.slotA) = true := by decide

/-! SCHED_STEP. -/

/-- V42, V43, V44. -/
theorem test_step_within_packet :
    after (exec .schedStep playing) (fun t =>
      t.pre == c1 && t.scopeCnt == 2 && !t.dbgOut && t.curBuf == .slotA && t.curIdx == 2 && !t.evtPending) = true ∧
    after (exec .schedStep { playing with scopeCnt := 1 }) (fun t => t.scopeCnt == 0 && t.dbgOut) = true ∧
    after (exec .schedStep { playing with scopeCnt := 0 }) (fun t => t.scopeCnt == 0xFFFFFFFF && !t.dbgOut) = true := by
  decide

/-- V45, V46, V49. -/
theorem test_step_swaps :
    after (exec .schedStep queuedB) (fun t =>
      t.pre == c2 && t.scopeCnt == 3 && !t.dbgOut && t.isFree .a && t.curBuf == .slotB && t.curIdx == 0 && t.trackEn &&
        !t.pktComplete) = true ∧
    after (exec .schedStep queuedA) (fun t =>
      t.pre == c1 && t.isFree .b && t.curBuf == .slotA && t.curIdx == 0 && t.scopeCnt == 3) = true ∧
    after (exec .schedStep { queuedB with curBuf := .idle, curIdx := 1 }) (fun t =>
      t.pre == ⟨20, 10, 0⟩ && !t.isFree .a && t.curBuf == .slotA && t.curIdx == 0) = true := by decide

/-- V31, and the last steps of V47 and V48. -/
theorem test_step_without_queue :
    after (exec .schedStep { ex0 with trackEn := true, evtPending := true }) (fun t =>
      t.statusWord == 0x0002021B && t.pre == ⟨20, 10, 0⟩ && t.scopeCnt == 2) = true ∧
    after (exec .schedStep lastCell) (fun t =>
      t.isFree .a && !t.trackEn && t.pktComplete && t.curBuf == .slotA && t.curIdx == 3) = true ∧
    after (exec .schedStep { lastCell with idlePolicy := .loop, scopeCnt := 2 }) (fun t =>
      t.isFree .a && t.trackEn && t.pktComplete && t.curBuf == .idle && t.curIdx == 0 && t.scopeCnt == 1) = true := by decide

/-- V50, V51, V52. -/
theorem test_step_faults :
    lands (exec .schedStep { playing with curIdx := 3 })
      { playing with curIdx := 3, fault := 0b001, trackEn := false, evtPending := false } = true ∧
    lands (exec .schedStep { playing with curIdx := 79, slotA := [(79, ⟨5, 2, 0⟩)] })
      { playing with
        curIdx := 79, slotA := [(79, ⟨5, 2, 0⟩)], fault := 0b010, trackEn := false, evtPending := false } = true ∧
    after (exec .schedStep { playing with curIdx := 78, slotA := [(0, c0), (78, ⟨5, 2, 0⟩)] }) (fun t =>
      t.fault == 0 && t.curIdx == 79 && t.isFree .a && !t.trackEn && t.pre == ⟨5, 2, 0⟩) = true := by decide

/-! The register window (vectors V16 to V26). -/

theorem test_reset_reads :
    lands (access (.read 0x000 .word) ex0) { ex0 with busRdata := 0 } = true ∧
    lands (access (.read 0x004 .word) ex0) { ex0 with busRdata := 0x0001021B } = true ∧
    lands (access (.read 0x010 .word) ex0) { ex0 with busRdata := 3 } = true ∧
    lands (access (.read 0x014 .word) ex0) { ex0 with busRdata := 10 } = true ∧
    lands (access (.read 0x018 .word) ex0) { ex0 with busRdata := 5 } = true ∧
    lands (access (.write 0x004 .word 0xFFFFFFFF) ex0) ex0 = true := by decide

theorem test_stage_words :
    lands (access (.write 0x5F0 .word 7) ex0) { ex0 with stage := [(79, ⟨7, 0, 0⟩)] } = true ∧
      lands (access (.read 0x5F0 .word) { ex0 with stage := [(79, ⟨7, 0, 0⟩)] })
        { ex0 with stage := [(79, ⟨7, 0, 0⟩)], busRdata := 7 } = true ∧
      lands (access (.write 0x10C .word 5) ex0) ex0 = true ∧
      lands (access (.read 0x10C .word) ex0) { ex0 with busRdata := 0 } = true := by decide

theorem test_refused_accesses :
    stops (access (.read 0x020 .word) ex0) .unmappedAccess = true ∧ stops (access (.read 0x600 .word) ex0) .unmappedAccess = true ∧
      stops (access (.read 0xFFC .word) ex0) .unmappedAccess = true ∧
      stops (access (.read 0x102 .word) ex0) .misalignedAccess = true ∧
      stops (access (.read 0x004 .byte) ex0) .subWordAccess = true := by decide

/-- V3 with V26, and V41. -/
theorem test_illegal_and_halted_commands :
    lands (step (onAccess ex0 (.write 0x000 .word 0x21))) { ex0 with result := .illegalCommand, tmrWr := false } = true ∧
      lands (access (.write 0x000 .word 0x11) { ex0 with fault := 1 }) { ex0 with fault := 1 } = true := by decide

/-! The timer (vectors V54 to V57) and reset. -/

theorem test_boundary :
    lands (step (onMove ex0 .timer)) { ex0 with tmrWr := false } = true ∧
      after (step (onMove { playing with evtPending := false, tmrP := 200, tmrQ := 100 } .timer)) (fun t =>
        t.act == c1 && t.evtPending && t.fault == 0) = true ∧
      lands (step (onMove playing .timer)) { playing with tmrWr := false } = true := by decide

/-- V56. -/
theorem test_boundary_overrun :
    after (exec (.loadPattern 3) { staged with cfg := noDeadline.cfg }) (fun s =>
      after (step (onMove s .timer)) fun t => t.act == c0 && t.fault == 0b100 && t.statusWord == 0x80010012) = true := by decide

theorem test_reset_move :
    after (step (onMove { busy with fault := 1 } .rst)) (fun t => { t with act := BitCell.zero, freeIdx := 1 } == ex0) = true := by
  decide

/-! The host encoder (vectors V60 to V72). -/

def widths : Widths := ⟨10, 20, 10⟩

theorem test_encoder_lengths :
    (match buildPacket Config.ex [0xA5] widths with | .ok cs => cs.length | .error _ => 0) = 28 ∧
      buildPacket Config.ex [] widths = .error .invalidLength ∧
      buildPacket Config.ex (List.replicate 7 0) widths = .error .invalidLength ∧
      buildPacketRepeatedByte Config.ex 0 7 widths = .error .invalidLength ∧
      buildPreamble Config.ex 2 10 = .ok [⟨20, 10, 0⟩, ⟨20, 10, 0⟩] := by decide

/-- S2: bits 1,0,1,0,0,1,0,1 of 0xA5, least significant first, then the gap. -/
theorem test_encoder_bits :
    (match buildPacket Config.ex [0xA5] widths with | .ok cs => cs.drop 18 | .error _ => []) =
      [⟨40, 20, 0⟩, ⟨20, 10, 0⟩, ⟨40, 20, 0⟩, ⟨20, 10, 0⟩, ⟨40, 20, 0⟩, ⟨40, 20, 0⟩, ⟨20, 10, 0⟩, ⟨40, 20, 0⟩, ⟨20, 10, 0⟩,
        ⟨40, 20, 0⟩] := by decide

/-- V66 and V68, cells 19 to 22. -/
theorem test_encoder_stretched :
    (match buildPacketWithStretchedZero1 Config.ex 0xA5 widths ⟨30, 15⟩ with | .ok cs => (cs.drop 19).take 3 | .error _ => []) =
      [⟨60, 30, 0⟩, ⟨40, 20, 0⟩, ⟨20, 10, 0⟩] ∧
    (match buildPacketWithStretchedZero2 Config.ex 0xA5 widths ⟨30, 15⟩ ⟨40, 20⟩ with
      | .ok cs => (cs.drop 19).take 3
      | .error _ => []) = [⟨60, 30, 0⟩, ⟨80, 40, 0⟩, ⟨20, 10, 0⟩] := by decide

/-- V69 to V72. -/
theorem test_encoder_widths :
    oneCell { Config.ex with ticksPerUs := 3 } 7 = .ok ⟨21, 10, 0⟩ ∧
      buildPacket Config.ex [0] ⟨0, 20, 10⟩ = .error .invalidCell ∧
      buildPacket Config.ex [0] ⟨10, 20, 25⟩ = .error .invalidCell ∧
      oneCell Config.ex (2 ^ 31) = .error .invalidCell := by decide

/-! Witnesses: states and operands that meet the hypotheses of each statement, clause by clause. -/

theorem witness_wellFormedCommands :
    (Instr.configure .loop).wfCommand = true ∧ (Instr.loadPattern 0).wfCommand = true ∧
      (Instr.loadPattern 127).wfCommand = true ∧ Instr.enableTrack.wfCommand = true ∧
      Instr.disableTrack.wfCommand = true := by decide

theorem witness_decodedWords :
    decodeWord 0x7F2 = .ok (.loadPattern 127) ∧ decodeWord 0x2 = .ok (.loadPattern 0) ∧
      decodeWord 0x11 = .ok (.configure .loop) := by decide

/-- A word that decodes to an error decodes to no instruction. -/
theorem no_instruction {w : Word} {e : DecodeError} (h : decodeWord w = .error e) (i : Instr) : decodeWord w ≠ .ok i := by
  rw [h]; nofun

/-- One word for each of the four cases of R86. -/
theorem witness_illegalWords :
    ((∀ i, decodeWord 0x0 ≠ .ok i) ∧ (∀ i, decodeWord 0xF ≠ .ok i) ∧ (∀ i, decodeWord 0x21 ≠ .ok i) ∧
      (∀ i, decodeWord 0x802 ≠ .ok i) ∧ (∀ i, decodeWord 0x13 ≠ .ok i)) ∧ ex0.fault = 0 :=
  ⟨⟨no_instruction rfl, no_instruction rfl, no_instruction rfl, no_instruction rfl, no_instruction rfl⟩, rfl⟩

theorem witness_presents : (onAccess ex0 (.write 0x000 .word 0x32)).Presents 0x32 [] ∧ decodeWord 0x32 = .ok (.loadPattern 3) :=
  ⟨⟨rfl, rfl, rfl, rfl⟩, by decide⟩

theorem witness_schedulerTurn :
    (playing.nextMove = .sched ∧ playing.evtPending = true ∧ playing.fault = 0) ∧ (onMove playing .sched).nextMove = .sched := by
  decide

theorem witness_placedWord : 0x32 < 2 ^ 32 ∧ decodeTableWord 32 0x32 = some (.loadPattern 3) := by decide

theorem witness_heldCommand :
    (onAccess playing (.write 0x000 .word 3)).nextMove = .host ∧
      (onAccess playing (.write 0x000 .word 3)).host = .write 0x000 .word 3 :: [] ∧
      (onAccess playing (.write 0x000 .word 3)).evtPending = true := by decide

theorem witness_unheldAccesses :
    (onAccess playing (.read 0x004 .word)).host = .read 0x004 .word :: [] ∧
      (onAccess playing (.write 0x100 .word 7)).host = .write 0x100 .word 7 :: [] ∧ 0x100 ≤ (0x100 : BitVec 12).toNat := by
  decide

theorem witness_halted : ({ ex0 with fault := 0b100 } : State).fault ≠ 0 := by decide

theorem witness_disabledMoves :
    ((onMove ex0 .sched).nextMove = .sched ∧ (onMove ex0 .sched).evtPending = false) ∧
      (onMove { ex0 with fault := 1 } .sched).fault ≠ 0 ∧
      ((onMove ex0 .timer).nextMove = .timer ∧ (onMove ex0 .timer).trackEn = false) ∧
      ((onMove playing .timer).cfg.assumeDeadline = true ∧ (onMove playing .timer).evtPending = true) := by decide

/-- The ends of every range of refused and of mapped offsets. -/
theorem witness_offsets :
    AccessSize.byte ≠ AccessSize.word ∧ (0x102 : BitVec 12).toNat % 4 ≠ 0 ∧
      ((0x020 : BitVec 12).toNat % 4 = 0 ∧ (0x0FC : BitVec 12).toNat % 4 = 0 ∧ (0x0FC : BitVec 12).toNat ≤ 0x0FF) ∧
      ((0x600 : BitVec 12).toNat % 4 = 0 ∧ 0x600 ≤ (0xFFC : BitVec 12).toNat) ∧
      (after (access (.read 0x01C .word) ex0) (fun _ => true) = true ∧ (0x01C : BitVec 12).toNat ≤ 0x01F) ∧
      (after (access (.read 0x100 .word) ex0) (fun _ => true) = true ∧
        after (access (.read 0x5FC .word) ex0) (fun _ => true) = true ∧ (0x5FC : BitVec 12).toNat ≤ 0x5FF) := by decide

/-- A STAGE word and its neighbours, at both ends of STAGE. -/
theorem witness_stageWords :
    lands (access (.write (BitVec.ofNat 12 (0x100 + 16 * 0 + 4 * 0)) .word 9) staged)
      { staged with stage := Memory.ofCells 0 [⟨9, 50, 0⟩, c1, c2] } = true ∧
    lands (access (.write (BitVec.ofNat 12 (0x100 + 16 * 79 + 4 * 2)) .word 9) ex0)
      { ex0 with stage := [(79, ⟨0, 0, 9⟩)] } = true ∧
    lands (access (.write (BitVec.ofNat 12 (0x100 + 16 * 79 + 4 * 3)) .word 9) ex0) ex0 = true ∧
    (79 < 80 ∧ 2 < 3 ∧ (0 ≠ 79 ∨ 0 ≠ 2)) := by decide +kernel

theorem witness_readOnly :
    lands (access (.write (BitVec.ofNat 12 (4 * 1)) .word 9) ex0) ex0 = true ∧
      lands (access (.write (BitVec.ofNat 12 (4 * 7)) .word 9) ex0) ex0 = true := by decide

theorem witness_completedRead : ∃ t, access (.read 0x004 .word) ex0 = .next t := ⟨_, rfl⟩

/-- Each clause of the order of the result codes: N 1 and 80; a bad cell; both slots busy, N 2. -/
theorem witness_failingLoads :
    ((1 < 2 ∨ 79 < 1) ∧ (80 < 2 ∨ 79 < 80)) ∧
      (∃ i, i < 2 ∧ validCell (State.stage { busy with stage := Memory.ofCells 0 [c0, ⟨0, 5, 0⟩] } |>.read i) = false) ∧
      ((∀ i, i < 2 → validCell (busy.stage.read i) = true) ∧ busy.isFree .a = false ∧ busy.isFree .b = false) :=
  ⟨by decide, ⟨1, by decide⟩, by decide⟩

/-- LOAD_PATTERN that queues: B behind A, with N 2. -/
theorem witness_loadQueues :
    (∀ i, i < 2 → validCell (({ playing with stage := staged.stage } : State).stage.read i) = true) ∧
      ({ playing with stage := staged.stage } : State).Claims .b ∧ playing.pktComplete = false :=
  ⟨by decide, .inr ⟨rfl, by decide, by decide⟩, rfl⟩

/-- LOAD_PATTERN that hands off: A, with N 3; B, with A busy, N 2; the track off, and on. -/
theorem witness_loadHandsOff :
    ((∀ i, i < 3 → validCell (staged.stage.read i) = true) ∧ staged.Claims .a ∧ staged.pktComplete = true) ∧
      ({ busy with slotB := [], pktComplete := true } : State).Claims .b ∧
      (staged.trackEn = false ∧ staged.cfg.enableForcesUpdate = true) ∧
      (noForce.trackEn = false ∧ noForce.cfg.enableForcesUpdate = false) ∧
      ({ staged with trackEn := true, idlePolicy := .loop } : State).Claims .a :=
  ⟨⟨by decide, .inl ⟨rfl, by decide⟩, rfl⟩, .inr ⟨rfl, by decide, by decide⟩, ⟨rfl, rfl⟩, ⟨rfl, rfl⟩, .inl ⟨rfl, by decide⟩⟩

/-- LOAD_PATTERN at its largest count, N 79. -/
theorem witness_largestLoad :
    Memory.allValid (Memory.ofCells 0 (List.replicate 79 ⟨5, 2, 0⟩)) 79 = true ∧ 2 ≤ 79 ∧ 79 ≤ 79 := by decide +kernel

theorem witness_enableTrack :
    playing.trackEn = true ∧ (ex0.trackEn = false ∧ ex0.cfg.enableForcesUpdate = true) ∧
      (noForce.trackEn = false ∧ noForce.cfg.enableForcesUpdate = false) := by decide

/-- A step of each agent that answers a next state: a fault bit set before, and one set by it. -/
theorem witness_steps :
    (∃ t, step (onMove { playing with fault := 0b010, evtPending := true } .host) = .next t) ∧
      (∃ t, step (onMove { playing with curIdx := 3 } .sched) = .next t ∧ t.fault = 0b001) ∧
      (∃ t, step (onMove noDeadline .timer) = .next t ∧ t.fault = 0b100) ∧
      (∃ t, step (onMove { ex0 with fault := 1 } .rst) = .next t ∧ t.fault = 0) :=
  ⟨⟨_, rfl⟩, ⟨_, rfl, by decide⟩, ⟨_, rfl, by decide⟩, ⟨_, rfl, by decide⟩⟩

theorem witness_resultChanges :
    ∃ t, step (onAccess ex0 (.write 0x000 .word 0x12)) = .next t ∧ decide (t.result ≠ ex0.result) = true :=
  next_of_after (by decide)

theorem witness_stageChanges :
    ∃ t, step (onAccess ex0 (.write 0x100 .word 7)) = .next t ∧ decide (t.stage ≠ ex0.stage) = true :=
  next_of_after (by decide)

theorem witness_playable : playing.Playable ∧ ¬ playing.AtBoundary :=
  ⟨⟨by decide, by decide⟩, by unfold State.AtBoundary; decide⟩

/-- The cursor on the last cell that can be played, 78, of a slot of 79 cells. -/
theorem witness_lastPlayable :
    ({ playing with curIdx := 78, slotA := [(0, c0), (78, c1)] } : State).Playable ∧
      ({ playing with curIdx := 78, slotA := [(0, c0), (78, c1)] } : State).AtBoundary :=
  ⟨⟨by decide, by decide⟩, by unfold State.AtBoundary; decide⟩

theorem witness_swaps :
    (queuedB.Playable ∧ queuedB.AtBoundary ∧ queuedB.SwapsTo .b) ∧
      (queuedA.Playable ∧ queuedA.AtBoundary ∧ queuedA.SwapsTo .a) :=
  ⟨⟨⟨by decide, by decide⟩, by unfold State.AtBoundary; decide, .inr ⟨rfl, .inl rfl, by decide, by decide⟩⟩,
    ⟨⟨by decide, by decide⟩, by unfold State.AtBoundary; decide, .inl ⟨rfl, by decide, by decide⟩⟩⟩

theorem witness_noneQueued :
    (lastCell.Playable ∧ lastCell.AtBoundary ∧ lastCell.NoneQueued ∧ lastCell.idlePolicy = .disable) ∧
      (ex0.Playable ∧ ex0.AtBoundary ∧ ex0.NoneQueued) ∧ ({ lastCell with idlePolicy := .loop } : State).NoneQueued :=
  ⟨⟨⟨by decide, by decide⟩, by unfold State.AtBoundary; decide, ⟨.inl rfl, .inr (by decide)⟩, rfl⟩,
    ⟨⟨by decide, by decide⟩, by unfold State.AtBoundary; decide, ⟨.inr (by decide), .inr (by decide)⟩⟩,
    ⟨.inl rfl, .inr (by decide)⟩⟩

theorem witness_stepFaults :
    (({ playing with curIdx := 3 } : State).curIdx.toNat < Buf.cap .slotA ∧
      isSentinel (State.cell { playing with curIdx := 3 } .slotA 3) = true) ∧
    (({ playing with curIdx := 79, slotA := [(79, c0)] } : State).curIdx.toNat + 1 = Buf.cap .slotA ∧
      isSentinel (State.cell { playing with curIdx := 79, slotA := [(79, c0)] } .slotA 79) = false) ∧
    (Buf.cap .slotA ≤ ({ playing with curIdx := 80 } : State).curIdx.toNat ∧
      Buf.cap .idle ≤ ({ ex0 with curIdx := 6 } : State).curIdx.toNat) := by decide

/-- A step that answers a next state, with a cell outside the one it may write; and one with the track off. -/
theorem witness_stepFrame :
    (∃ t, exec .schedStep lastCell = .next t) ∧ ¬ (Buf.slotA = lastCell.curBuf ∧ Buf.slotA ≠ .idle ∧ 1 = 0) ∧
      ex0.trackEn = false := ⟨⟨_, rfl⟩, by decide, rfl⟩

/-- A slot of 3 cells, from cell 0 and from cell 1. -/
theorem witness_drain :
    (playing.Holds .a 3 ∧ playing.curBuf = Slot.buf .a ∧ playing.curIdx.toNat = 1 ∧ playing.isFree (Slot.other .a) = true) ∧
      (({ playing with curIdx := 0 } : State).Holds .a 3 ∧ ({ playing with curIdx := 0 } : State).curIdx.toNat = 0) ∧
      ({ playing with idlePolicy := .loop } : State).idlePolicy = .loop :=
  ⟨⟨⟨by decide, by decide, by decide⟩, rfl, by decide, by decide⟩, ⟨⟨by decide, by decide, by decide⟩, by decide⟩, rfl⟩

/-- The smallest packets of the drain statement, one cell from cell 0, and the largest, a sentinel at 79. -/
theorem witness_drainEnds :
    ({ playing with slotA := [(0, c0)], curIdx := 0 } : State).Holds .a 1 ∧
      ({ playing with slotA := Memory.ofCells 0 (List.replicate 79 c0) } : State).Holds .a 79 :=
  ⟨⟨by decide, by decide, by decide⟩, ⟨by decide +kernel, by decide +kernel, by decide⟩⟩

theorem witness_gapFree :
    queuedB.Playable ∧ queuedB.AtBoundary ∧ queuedB.curBuf = Slot.buf .a ∧ queuedB.isFree (Slot.other .a) = false :=
  ⟨⟨by decide, by decide⟩, by unfold State.AtBoundary; decide, rfl, by decide⟩

/-- The scope trigger with SCOPE_OFFSET 3 and a packet of 3 cells: after a swap it marks cell 2, the last one. -/
theorem witness_scopeTrigger :
    (({ playing with curIdx := 0 } : State).Holds .a 3 ∧ ({ playing with curIdx := 0 } : State).scopeCnt = playing.cfg.scopeOffset) ∧
      (playing.Holds .a 3 ∧ playing.scopeCnt = playing.cfg.scopeOffset) ∧ 1 ≤ playing.cfg.scopeOffset.toNat ∧ 0 + 2 < 3 :=
  ⟨⟨⟨by decide, by decide, by decide⟩, rfl⟩, ⟨⟨by decide, by decide, by decide⟩, rfl⟩, by decide, by decide⟩

theorem witness_disableBoundary :
    ∃ t, lastCell.fault = 0 ∧ lastCell.trackEn = true ∧ exec .schedStep lastCell = .next t ∧ t.trackEn = false ∧ t.fault = 0 :=
  ⟨_, rfl, rfl, rfl, by decide, by decide⟩

/-- A boundary with no event pending, and one with an event pending when no deadline is assumed. -/
theorem witness_boundary :
    ((onMove { playing with evtPending := false } .timer).nextMove = .timer ∧
      (onMove { playing with evtPending := false } .timer).trackEn = true) ∧
    ((onMove noDeadline .timer).nextMove = .timer ∧ (onMove noDeadline .timer).trackEn = true ∧
      (onMove noDeadline .timer).evtPending = true ∧ (onMove noDeadline .timer).cfg.assumeDeadline = false) := by decide

theorem witness_activeCellChanges :
    (∃ t, step (onMove { playing with evtPending := false } .timer) = .next t ∧ t.act ≠ playing.act) ∧
      (∃ t, step (onAccess ex0 (.write 0x000 .word 3)) = .next t ∧ t.act ≠ ex0.act) :=
  ⟨⟨_, rfl, by decide⟩, ⟨_, rfl, by decide⟩⟩

theorem witness_resetMove : (onMove busy .rst).nextMove = .rst := rfl

theorem witness_canonical :
    playing.wfMemory = true ∧ (∃ t, step playing = .next t) ∧
      (Memory.wf slotCap [(0, c0), (79, c1)] = true ∧
        ∀ i, i < slotCap → Memory.read [(0, c0), (79, c1)] i = Memory.read [(0, c0), (79, c1)] i) :=
  ⟨by decide, ⟨_, rfl⟩, by decide, fun _ _ => rfl⟩

theorem witness_platform : Config.ex.wf = true ∧ noForce.cfg.wf = true ∧ noDeadline.cfg.wf = true := by decide

/-- The invariant holds of a state in mid-packet with an event pending, not only of reset. -/
theorem witness_inv : playing.Inv where
  cfgRange := by decide
  memory := by decide
  idlePacket := by decide
  complete := by decide
  active := fun _ => ⟨.a, rfl, by decide⟩
  packets := fun sl h => by
    cases sl
    · exact ⟨3, by decide, by decide, by decide, by decide⟩
    · exact absurd h (by decide)
  cursor := ⟨3, by decide, by decide, by decide, by decide⟩
  event := by decide
  playing := by decide
  resting := by decide
  haltedOff := by decide
  noOverrun := by decide
  deadline := by decide

/-- A host program that fills slot A and queues slot B. -/
def twoPackets : List Access :=
  ((stagePattern 0 [c0, c1, c2]).getD []) ++ [.write 0x000 .word 0x32, .write 0x000 .word 0x32]

/-- A reachable state with a slot queued: two packets loaded, the event of the first one serviced between. -/
theorem witness_reachable : ∃ s, Reachable s ∧ s.isQueued .b = true ∧ s.cfg.assumeDeadline = true ∧ s.curBuf ≠ .idle := by
  have h0 : Reachable { ex0 with host := twoPackets, agenda := [] } :=
    .outside (.reset Config.ex BitCell.zero 1 (by decide)) twoPackets []
  obtain ⟨t, ht⟩ : ∃ t, runSteps 12 { ex0 with host := twoPackets, agenda := [] } = .next t := ⟨_, rfl⟩
  refine ⟨t, h0.runSteps ht, ?_⟩
  have : after (runSteps 12 { ex0 with host := twoPackets, agenda := [] }) (fun t =>
    t.isQueued .b && t.cfg.assumeDeadline && decide (t.curBuf ≠ .idle)) = true := by decide
  rw [ht] at this
  simpa [after, and_assoc] using this

theorem witness_reachableIdle : Reachable ex0 ∧ ex0.curBuf = .idle := ⟨.reset Config.ex BitCell.zero 1 (by decide), rfl⟩

theorem witness_encoder :
    (([] : List Byte).length < 1 ∧ 6 < (List.replicate 7 (0 : Byte)).length) ∧
      (1 ≤ ([0xA5] : List Byte).length ∧ (List.replicate 6 (0 : Byte)).length ≤ 6) ∧
      (scales Config.ex 10 ∧ scales Config.ex 20 ∧ 10 * Config.ex.ticksPerUs ≤ 20 * Config.ex.ticksPerUs) ∧
      ¬ scales Config.ex 0 ∧ ¬ scales Config.ex (2 ^ 31) := by unfold scales; decide

theorem witness_packet : ∃ cells, buildPacket Config.ex [0xA5] widths = .ok cells ∧ ([0xA5] : List Byte)[0]? = some 0xA5 :=
  ⟨_, rfl, rfl⟩

/-- 0xA5 and 0xA4 agree above bit 0, 0xA5 and 0xA6 above bit 1; both stretched packets are built. -/
theorem witness_stretched :
    (∀ k, 1 ≤ k → k < 8 → (0xA5 : Byte).getLsbD k = (0xA4 : Byte).getLsbD k) ∧
      (∀ k, 2 ≤ k → k < 8 → (0xA5 : Byte).getLsbD k = (0xA6 : Byte).getLsbD k) ∧
      (∃ cells, buildPacketWithStretchedZero1 Config.ex 0xA5 widths ⟨30, 15⟩ = .ok cells) ∧
      ∃ cells, buildPacketWithStretchedZero2 Config.ex 0xA5 widths ⟨30, 15⟩ ⟨40, 20⟩ = .ok cells := by
  refine ⟨fun k h1 h2 => ?_, fun k h1 h2 => ?_, ⟨_, rfl⟩, ⟨_, rfl⟩⟩ <;> interval_cases k <;> decide

/-- QUEUE of two valid cells: A claimed from reset, with an empty agenda and with one of host moves; B behind A in play. -/
theorem witness_queue :
    (2 ≤ [c0, c1].length ∧ [c0, c1].length ≤ 79 ∧ ∀ c ∈ [c0, c1], validCell c = true) ∧
      ∃ accs, queue [c0, c1] = .ok accs ∧
        (({ ex0 with host := accs } : State).host = accs ∧ ex0.agenda = [] ∧
          (∀ m ∈ ({ ex0 with host := accs, agenda := [.host, .host] } : State).agenda, m = .host) ∧
          ex0.evtPending = false ∧ ex0.fault = 0 ∧ ex0.pktComplete = true ∧
          ({ ex0 with host := accs } : State).Claims .a) ∧
        (({ playing with host := accs, evtPending := false } : State).Claims .b ∧ playing.pktComplete = false) :=
  ⟨by decide, _, rfl, ⟨rfl, rfl, by decide, rfl, rfl, rfl, .inl ⟨rfl, by decide⟩⟩, .inr ⟨rfl, by decide, by decide⟩, rfl⟩

/-- The largest packet QUEUE loads, 79 cells. -/
theorem witness_largestQueue : (List.replicate 79 c0).length = 79 ∧ validCell c0 = true := by decide

/-- QUEUE at both ends of its two clauses: no cell, the last one STAGE holds and the first it does not, 127 and 128 cells. -/
theorem witness_expansion :
    ([] : List BitCell).length ≤ 127 ∧ (List.replicate 127 c0).length ≤ 127 ∧ 127 < (List.replicate 128 c0).length ∧
      (List.replicate 127 c0)[79]? = some c0 ∧ (List.replicate 127 c0)[80]? = some c0 := by simp

/-- R90, R168: no cell is staged for an empty pattern, and its LOAD_PATTERN 0 is INVALID_LENGTH. -/
theorem test_empty_queue :
    queue [] = .ok [.write 0x000 .word 0x2] ∧
      after (step (onAccess ex0 (.write 0x000 .word 0x2))) (fun t => t.result == .invalidLength) = true := by decide

theorem witness_repeatedByte : (0 < 1 ∨ 6 < 0) ∧ (7 < 1 ∨ 6 < 7) ∧ 1 ≤ 1 ∧ 6 ≤ 6 := by decide

/-- Widths that shape every cell, and for each width one that does not. -/
theorem witness_shapes :
    (scales Config.ex 10 ∧ shapes Config.ex 20 10 ∧ shapes Config.ex 30 15 ∧ shapes Config.ex 40 20) ∧
      ¬ scales Config.ex 0 ∧ ¬ shapes Config.ex 20 25 ∧ ¬ shapes Config.ex (2 ^ 31) 15 ∧ ¬ shapes Config.ex 40 0 := by
  unfold shapes scales; decide

/-- A packet in play within it, and with a slot to swap to; a boundary with none, under both policies. -/
theorem witness_phases :
    (playing.Playable ∧ playing.trackEn = true ∧ playing.pktComplete = false ∧ ¬ playing.AtBoundary) ∧
      (queuedB.Playable ∧ queuedB.trackEn = true ∧ queuedB.pktComplete = false ∧ queuedB.SwapsTo .b) ∧
      (lastCell.Playable ∧ lastCell.trackEn = true ∧ lastCell.AtBoundary ∧ lastCell.NoneQueued) :=
  ⟨⟨⟨by decide, by decide⟩, rfl, rfl, by unfold State.AtBoundary; decide⟩,
    ⟨⟨by decide, by decide⟩, rfl, rfl, .inr ⟨rfl, .inl rfl, by decide, by decide⟩⟩,
    ⟨⟨by decide, by decide⟩, rfl, by unfold State.AtBoundary; decide, ⟨.inl rfl, .inr (by decide)⟩⟩⟩

theorem witness_endedRun :
    ex0.runOver = true ∧ ex0.nextMove ≠ .rst ∧ (onMove ex0 .sched).runOver = true ∧ (onMove ex0 .timer).runOver = true := by
  decide

/-- R217 does not apply under LOOP, and R145's Idle needs the track on there: both after CONFIGURE LOOP, the track off. -/
theorem test_loop_has_no_end :
    after (exec (.configure .loop) ex0) (fun t => !t.runOver && !t.isIdle && t.pktComplete && t.quiescent) = true := by decide

/-- R145 at the ends of V47 and V48: under DISABLE idle and exhausted, under LOOP idle only. -/
theorem test_phases_after_boundary :
    after (exec .schedStep lastCell) (fun t => t.isIdle && t.isExhausted && !t.isPlaying) = true ∧
      after (exec .schedStep { lastCell with idlePolicy := .loop }) (fun t => t.isIdle && !t.isExhausted && !t.isPlaying) =
        true := by decide

/-- R90: the expansions of STAGE 1 and of the last staging cell; beyond the window STAGE has none (R50). -/
theorem test_stage_expansion :
    stageAccesses 1 c1 = some [.write 0x110 .word 200, .write 0x114 .word 100, .write 0x118 .word 0] ∧
      stageAccesses 79 c2 = some [.write 0x5F0 .word 300, .write 0x5F4 .word 150, .write 0x5F8 .word 1] ∧
      stageAccesses 80 c0 = some [.write 0x600 .word 100, .write 0x604 .word 50, .write 0x608 .word 0] ∧
      stops (access (.write 0x600 .word 100) ex0) .unmappedAccess = true ∧
      stageAccesses 240 c0 = none := by decide

/-- R90: POLL_AVAIL goes on at once from reset, and reads again with both slots busy. -/
theorem test_poll :
    after (step (State.startPoll (onAccess ex0 (.write 0x000 .word 3)))) (fun t => t.afterPoll.host == [.write 0x000 .word 3]) =
      true ∧
    after (step (State.startPoll (onAccess busy (.write 0x000 .word 3)))) (fun t =>
      t.afterPoll.host == [pollRead, .write 0x000 .word 3]) = true := by decide

theorem witness_poll : (ex0.isFree .a = true ∨ ex0.isFree .b = true) ∧ busy.isFree .a = false ∧ busy.isFree .b = false := by
  decide

/-- The outcome is exactly this fault. -/
def faults (o : Host.Outcome State Fault Refusal) (f : Fault) : Bool :=
  match o with
  | .next _ => false
  | .fault f' => f' == f
  | .refused _ => false

/-- R12 at V50, V51 and V56: the fault outcome; and V42, with no fault, answers the step. -/
theorem test_fault_outcome :
    faults (outcome (onMove { playing with curIdx := 3 } .sched)) .sentinelProgrammed = true ∧
      faults (outcome (onMove { playing with curIdx := 79, slotA := [(79, ⟨5, 2, 0⟩)] } .sched)) .cursorOverrun = true ∧
      faults (outcome (onMove noDeadline .timer)) .eventOverrun = true ∧
      after (outcome (onMove playing .sched)) (fun t => t.pre == c1 && t.fault == 0) = true := by decide

/-- V50 and V56: the state the same transitions leave, halted. -/
theorem test_fault_state :
    after (step (onMove { playing with curIdx := 3 } .sched)) (fun t => t.fault == 0b001 && t.halted && !t.trackEn) = true ∧
      after (step (onMove noDeadline .timer)) (fun t => t.fault == 0b100 && t.halted && !t.evtPending) = true := by decide

/-- An index outside the buffer, the other case of the overrun. -/
theorem witness_faultOutside :
    (onMove { playing with curIdx := 80 } .sched).nextMove = .sched ∧
      faults (outcome (onMove { playing with curIdx := 80 } .sched)) .cursorOverrun = true := by decide

end Sys2Proof.Tests
end

/-! SUPPORT. Which answer a step gives: the next state, the refusal of R198, or the fault outcome of R12. -/

namespace Sys2Proof.Machine

/-- The step at `s` stops with the refusal `r`: the host's next access is one the bus refuses by that name (R198). -/
def State.Refuses (s : State) (r : Refusal) : Prop :=
  s.nextMove = .host ∧ ∃ a rest, s.host = a :: rest ∧ a.target = .error r

/-! An access: refused iff the bus refuses it, and else it completes. -/

theorem cmdWrite_next (w : Word) (s : State) : ∃ t, cmdWrite w s = .next t := by
  unfold cmdWrite
  split
  · exact ⟨_, rfl⟩
  · split
    · exact exec_next _ s
    · exact ⟨_, rfl⟩

theorem writeReg_next (g : Reg) (v : Word) (s : State) : ∃ t, writeReg g v s = .next t := by
  cases g with
  | cmd => exact cmdWrite_next v s
  | _ => exact ⟨_, rfl⟩

theorem access_of_target_error {a : Access} {r : Refusal} (s : State) (h : a.target = .error r) :
    access a s = .refused r := by
  cases a with
  | read off size =>
    have h : busDecode off size = .error r := h
    simp [access, h]
  | write off size v =>
    have h : busDecode off size = .error r := h
    simp [access, h]

theorem access_next_of_target_ok {a : Access} {g : Reg} (s : State) (h : a.target = .ok g) :
    ∃ t, access a s = .next t := by
  cases a with
  | read off size =>
    have h : busDecode off size = .ok g := h
    simp [access, h]
  | write off size v =>
    have h : busDecode off size = .ok g := h
    simpa [access, h] using writeReg_next g v s

/-- Only a mapped access is ever held (R206): an access the bus refuses does not wait. -/
theorem State.holds_of_target_error {a : Access} {r : Refusal} (s : State) (h : a.target = .error r) :
    s.holds a = false := by
  cases a with
  | read off size => simp [State.holds, Access.isCommand]
  | write off size v =>
    have h : busDecode off size = .error r := h
    simp [State.holds, Access.isCommand, h]

/-! The step: it refuses at a refused access, and else answers a next state. -/

theorem hostMove_of_target_error {s : State} {a : Access} {rest : List Access} {r : Refusal}
    (hs : s.host = a :: rest) (ht : a.target = .error r) : hostMove s = .refused r := by
  simp [hostMove, hs, State.holds_of_target_error s ht, access_of_target_error s.popAccess ht]

theorem hostMove_next_of_target_ok {s : State} (h : ∀ a rest r, s.host = a :: rest → a.target ≠ .error r) :
    ∃ t, hostMove s = .next t := by
  unfold hostMove
  split
  · exact ⟨_, rfl⟩
  · rename_i a rest hs
    split
    · exact ⟨_, rfl⟩
    · cases ht : a.target with
      | ok g => exact access_next_of_target_ok s.popAccess ht
      | error r => exact absurd ht (h a rest r hs)

theorem step_of_refuses {s : State} {r : Refusal} (h : s.Refuses r) : step s = .refused r := by
  obtain ⟨hm, a, rest, hs, ht⟩ := h
  have hs : s.beginMove.host = a :: rest := hs
  simpa [step, hm, runMove] using hostMove_of_target_error hs ht

theorem step_next_of_not_refuses {s : State} (h : ∀ r, ¬ s.Refuses r) : ∃ t, step s = .next t := by
  unfold step
  cases hm : s.nextMove with
  | sched =>
    simp only [runMove]
    split
    · exact exec_next .schedStep s.beginMove
    · exact ⟨_, rfl⟩
  | host => exact hostMove_next_of_target_ok fun a rest r hs ht => h r ⟨hm, a, rest, hs, ht⟩
  | timer =>
    simp only [runMove]
    split <;> exact ⟨_, rfl⟩
  | rst => exact ⟨_, rfl⟩

/-- A step answers a next state, or a refusal at a refused access. -/
theorem step_next_or_refused (s : State) :
    (∃ t, step s = .next t) ∨ ∃ r, s.Refuses r ∧ step s = .refused r := by
  by_cases h : ∃ r, s.Refuses r
  · obtain ⟨r, hr⟩ := h
    exact .inr ⟨r, hr, step_of_refuses hr⟩
  · exact .inl (step_next_of_not_refuses (not_exists.mp h))

theorem step_ne_fault (s : State) (f : Fault) : step s ≠ .fault f := by
  rcases step_next_or_refused s with ⟨t, h⟩ | ⟨r, _, h⟩ <;> simp [h]

theorem step_refused_iff {s : State} {r : Refusal} : step s = .refused r ↔ s.Refuses r := by
  refine ⟨fun h => ?_, step_of_refuses⟩
  rcases step_next_or_refused s with ⟨t, ht⟩ | ⟨r', hr, ht⟩
  · simp [ht] at h
  · obtain rfl : r' = r := by simpa [ht] using h
    exact hr

/-! The fault outcome: raised exactly in the cases of R131 and R201. -/

theorem State.stepFault_sentinelProgrammed_iff {s : State} :
    s.stepFault = some .sentinelProgrammed ↔ s.curIdx.toNat < s.curBuf.cap ∧ isSentinel s.cursorCell = true := by
  unfold State.stepFault
  split_ifs with hout hsent hlast
  · simp [hout]
  · simpa [hsent] using hout
  · simp [hsent]
  · simp [hsent]

/-- The end of the buffer on a live cell (R135), or an index outside the buffer (R51; log 10). -/
theorem State.stepFault_cursorOverrun_iff {s : State} :
    s.stepFault = some .cursorOverrun ↔
      s.curBuf.cap ≤ s.curIdx.toNat ∨ (s.curIdx.toNat + 1 = s.curBuf.cap ∧ isSentinel s.cursorCell = false) := by
  unfold State.stepFault
  split_ifs with hout hsent hlast
  · simp [hout]
  · simp [hout, hsent]
  · simp [hsent]; omega
  · simp [hsent]; omega

theorem State.stepFault_ne_eventOverrun (s : State) : s.stepFault ≠ some .eventOverrun := by
  unfold State.stepFault
  split_ifs <;> simp

theorem State.schedEnabled_iff {s : State} : s.schedEnabled = true ↔ s.evtPending = true ∧ s.fault = 0 := by
  simp [State.schedEnabled, State.halted]

/-- The overrun of R201: a boundary with an event pending is enabled only where no deadline is assumed. -/
theorem State.boundaryEnabled_pending_iff {s : State} :
    s.boundaryEnabled = true ∧ s.evtPending = true ↔
      s.trackEn = true ∧ s.evtPending = true ∧ s.cfg.assumeDeadline = false := by
  unfold State.boundaryEnabled
  cases s.evtPending <;> simp

theorem outcome_fault_iff {s : State} {f : Fault} : outcome s = .fault f ↔ s.raised = some f := by
  cases h : s.raised with
  | none => simp [outcome_of_not_raised h, step_ne_fault]
  | some f' => simp [outcome_of_raised h]

/-- A fault of the scheduler is the outcome iff an enabled scheduler step raises it (R130, R131). -/
theorem outcome_schedFault_iff {s : State} {f : Fault} (hf : f ≠ .eventOverrun) :
    outcome s = .fault f ↔
      s.nextMove = .sched ∧ s.evtPending = true ∧ s.fault = 0 ∧ s.stepFault = some f := by
  simp [outcome_fault_iff, State.raised_iff, State.schedEnabled_iff, hf, and_assoc]

theorem outcome_eventOverrun_iff {s : State} :
    outcome s = .fault .eventOverrun ↔
      s.nextMove = .timer ∧ s.trackEn = true ∧ s.evtPending = true ∧ s.cfg.assumeDeadline = false := by
  simp [outcome_fault_iff, State.raised_iff, State.stepFault_ne_eventOverrun, State.boundaryEnabled_pending_iff]

/-- The halted state of R196, which the step answers where the outcome is a fault (log 3). -/
theorem step_of_outcome_fault {s : State} {f : Fault} (h : outcome s = .fault f) :
    ∃ t, step s = .next t ∧ t.fault = s.fault ||| f.bit ∧ t.trackEn = false ∧ t.evtPending = false := by
  rcases step_of_raised (outcome_fault_iff.mp h) with hs | hs <;> exact ⟨_, hs, rfl, rfl, rfl⟩

theorem outcome_of_no_fault {s : State} (h : ∀ f, outcome s ≠ .fault f) : outcome s = step s :=
  outcome_of_not_raised (Option.eq_none_iff_forall_ne_some.mpr fun f hf => h f (outcome_of_raised hf))

/-- Settles O13: one lemma a clause; a step answers a next state unless the bus refuses, and the outcome is a fault iff
the transition raises it. -/
theorem stepStopsOnlyAtRefusedAccess : Obligations.StepStopsOnlyAtRefusedAccess := by
  intro s
  refine ⟨step_ne_fault s, fun r => step_refused_iff, ?_, ?_, outcome_eventOverrun_iff,
    fun f => step_of_outcome_fault, outcome_of_no_fault⟩
  · rw [outcome_schedFault_iff (by decide), State.stepFault_sentinelProgrammed_iff, State.cursorCell]
  · rw [outcome_schedFault_iff (by decide), State.stepFault_cursorOverrun_iff, State.cursorCell]

/-! The parameters (R9): every instruction keeps them, and so does every step. -/

theorem exec_cfg {i : Instr} {s t : State} (h : exec i s = .next t) : t.cfg = s.cfg := by
  cases i with
  | configure pol => cases h; rfl
  | loadPattern n =>
    have h : execLoadPattern n s = .next t := h
    rcases execLoadPattern_cases n s with ⟨r, _, hx⟩ | ⟨sl, _, _, _, hx⟩ <;> cases hx.symm.trans h <;> simp
  | enableTrack => cases h; rfl
  | disableTrack => cases h; rfl
  | schedStep =>
    have h : execSchedStep s = .next t := h
    rcases execSchedStep_cases s with ⟨f, _, hx⟩ | ⟨_, hx⟩ <;> cases hx.symm.trans h <;> simp

theorem step_cfg {s t : State} (h : step s = .next t) : t.cfg = s.cfg := by
  cases step_cases h with
  | nothing _ h => simp [h]
  | sched _ _ _ h => simpa using exec_cfg h
  | read _ v h => simp [h]
  | stage _ i f v _ h => simp [h]
  | ignored _ h => simp [h]
  | command _ w i _ _ _ h => simpa using exec_cfg h
  | illegal _ w e _ _ _ h => simp [h, State.illegalCommand]
  | boundary _ _ h => simp [h]
  | rst _ h => simp [h]

/-- Settles O52, by the cases of a step. -/
theorem parametersNeverChange : Obligations.ParametersNeverChange := fun _ _ h => step_cfg h

end Sys2Proof.Machine

/-! The roles of a slot (R37). -/

namespace Sys2Proof.Machine

theorem State.isFree_iff {s : State} {sl : Slot} : s.isFree sl = true ↔ (s.cell sl.buf 0).period = 0 := by
  simp [State.isFree, isSentinel]

theorem State.isActive_iff {s : State} {sl : Slot} :
    s.isActive sl = true ↔ s.isFree sl = false ∧ s.curBuf = sl.buf ∧ s.pktComplete = false := by
  simp [State.isActive, and_assoc]

theorem State.isQueued_iff {s : State} {sl : Slot} :
    s.isQueued sl = true ↔ s.isFree sl = false ∧ s.isActive sl = false := by
  simp [State.isQueued]

/-- A free slot has no other role. -/
theorem State.no_role_of_isFree {s : State} {sl : Slot} (h : s.isFree sl = true) :
    s.isActive sl = false ∧ s.isQueued sl = false := by
  simp [State.isActive, State.isQueued, h]

/-- A slot that is not free is queued iff it is not active. -/
theorem State.isQueued_of_not_isFree {s : State} {sl : Slot} (h : s.isFree sl = false) :
    s.isQueued sl = !s.isActive sl := by
  simp [State.isQueued, h]

/-- Settles O14: a slot is free, or not free and active, or neither. -/
theorem slotHasExactlyOneRole : Obligations.SlotHasExactlyOneRole := by
  intro s sl
  refine ⟨State.isFree_iff, State.isActive_iff, State.isQueued_iff, ?_⟩
  cases hf : s.isFree sl with
  | true => exact .inl ⟨rfl, State.no_role_of_isFree hf⟩
  | false =>
    rw [State.isQueued_of_not_isFree hf]
    cases s.isActive sl <;> simp

/-! What an instruction and an access leave of FAULT, RESULT and STAGE. -/

/-- What a LOAD_PATTERN leaves: its error code, or its cells in the first free slot (R101, R106). -/
theorem exec_loadPattern_next {n : Nat} {s t : State} (h : exec (.loadPattern n) s = .next t) :
    (∃ r, t = s.setResult r) ∨
      ∃ sl, 2 ≤ n ∧ n ≤ 79 ∧ (∀ i, i < n → validCell (s.stage.read i) = true) ∧ s.isFree sl = true ∧
        t = s.loadSlot sl n := by
  have h : execLoadPattern n s = .next t := h
  rcases execLoadPattern_cases n s with ⟨r, _, hx⟩ | ⟨sl, hlen, hvalid, hslot, hx⟩ <;> cases hx.symm.trans h
  · exact .inl ⟨r, rfl⟩
  · obtain ⟨hlo, hhi⟩ := lengthOk_iff.mp hlen
    exact .inr ⟨sl, hlo, hhi, Memory.allValid_iff.mp hvalid, State.firstFreeSlot_isFree hslot, rfl⟩

/-- What a SCHED_STEP leaves: its fault raised, or the cell at the cursor played (R131). -/
theorem exec_schedStep_next {s t : State} (h : exec .schedStep s = .next t) :
    (∃ f, s.stepFault = some f ∧ t = s.raiseFault f) ∨ (s.stepFault = none ∧ t = s.playCell) := by
  have h : execSchedStep s = .next t := h
  rcases execSchedStep_cases s with ⟨f, hf, hx⟩ | ⟨hf, hx⟩ <;> cases hx.symm.trans h
  · exact .inl ⟨f, hf, rfl⟩
  · exact .inr ⟨hf, rfl⟩

theorem exec_stage {i : Instr} {s t : State} (h : exec i s = .next t) : t.stage = s.stage := by
  cases i with
  | configure pol => cases h; rfl
  | loadPattern n =>
    rcases exec_loadPattern_next h with ⟨r, rfl⟩ | ⟨sl, _, _, _, _, rfl⟩ <;> simp
  | enableTrack => cases h; rfl
  | disableTrack => cases h; rfl
  | schedStep =>
    rcases exec_schedStep_next h with ⟨f, _, rfl⟩ | ⟨_, rfl⟩ <;> simp

/-- No host command raises a fault (R100). -/
theorem exec_fault_of_command {i : Instr} {s t : State} (hi : i ≠ .schedStep) (h : exec i s = .next t) :
    t.fault = s.fault := by
  cases i with
  | configure pol => cases h; rfl
  | loadPattern n =>
    rcases exec_loadPattern_next h with ⟨r, rfl⟩ | ⟨sl, _, _, _, _, rfl⟩ <;> simp
  | enableTrack => cases h; rfl
  | disableTrack => cases h; rfl
  | schedStep => exact absurd rfl hi

theorem schedStep_result {s t : State} (h : exec .schedStep s = .next t) : t.result = s.result := by
  rcases exec_schedStep_next h with ⟨f, _, rfl⟩ | ⟨_, rfl⟩ <;> simp

theorem cmdWrite_stage {w : Word} {s t : State} (h : cmdWrite w s = .next t) : t.stage = s.stage := by
  unfold cmdWrite at h
  split at h
  · cases h; rfl
  · split at h
    · exact exec_stage h
    · cases h; rfl

theorem cmdWrite_of_halted {w : Word} {s : State} (h : s.halted = true) : cmdWrite w s = .next s := by
  simp [cmdWrite, h]

/-! Which access can change what: a command write, or the write of a STAGE word. -/

theorem regAt_cmd {off : Nat} (h : regAt off = some .cmd) : off < 4 := by
  unfold regAt at h
  split_ifs at h
  · split at h <;> simp at h
    omega
  · unfold stageReg at h
    split at h <;> simp at h

theorem regAt_stage_range {off i : Nat} {f : CellField} (h : regAt off = some (.stage i f)) :
    0x100 ≤ off ∧ off ≤ 0x5FF := by
  unfold regAt at h
  split_ifs at h with _ hr
  · split at h <;> simp at h
  · omega

/-- The one offset of CMD (R52). -/
theorem busDecode_cmd {off : BitVec 12} {size : AccessSize} (h : busDecode off size = .ok .cmd) :
    off = 0x000 ∧ size = .word := by
  obtain ⟨hsize, halign, hreg⟩ := busDecode_ok h
  have := regAt_cmd hreg
  exact ⟨by bv_omega, hsize⟩

/-- What a completed access is: it changes only the data returned, or writes a STAGE word, or is a command write. -/
theorem access_cases {a : Access} {s t : State} (h : access a s = .next t) :
    (∃ v, t = s.returnData v) ∨ t = s ∨
      (∃ off i f v, a = .write off .word v ∧ regAt off.toNat = some (.stage i f) ∧ t = s.writeStage i f v) ∨
      (∃ w, a = .write 0x000 .word w ∧ cmdWrite w s = .next t) := by
  cases a with
  | read off size =>
    simp only [access] at h
    split at h
    · cases h; exact .inl ⟨_, rfl⟩
    · cases h
  | write off size v =>
    simp only [access] at h
    split at h
    · rename_i r hr
      cases r with
      | cmd =>
        obtain ⟨rfl, rfl⟩ := busDecode_cmd hr
        exact .inr (.inr (.inr ⟨v, rfl, h⟩))
      | stage i f =>
        obtain ⟨rfl, _, hreg⟩ := busDecode_ok hr
        cases h
        exact .inr (.inr (.inl ⟨off, i, f, v, rfl, hreg, rfl⟩))
      | _ => cases h; exact .inr (.inl rfl)
    · cases h

/-- A command write is held exactly while an event is pending (R206). -/
theorem State.holds_command (s : State) (w : Word) : s.holds (.write 0x000 .word w) = s.evtPending :=
  Bool.and_true s.evtPending

/-- What a host step is: nothing but the turn used up, or the next access, not held. -/
theorem step_host_cases {s t : State} (hm : s.nextMove = .host) (h : step s = .next t) :
    t = s.beginMove ∨
      ∃ a rest, s.host = a :: rest ∧ s.holds a = false ∧ access a s.beginMove.popAccess = .next t := by
  have h : hostMove s.beginMove = .next t := by simpa [step, hm, runMove] using h
  unfold hostMove at h
  split at h
  · cases h; exact .inl rfl
  · rename_i a rest hs
    split at h
    · cases h; exact .inl rfl
    · rename_i hh
      exact .inr ⟨a, rest, hs, by simpa [State.holds] using hh, h⟩

/-- RESULT changes at a command write only, and only on a block that is not halted (R53). -/
theorem access_result_ne {a : Access} {s t : State} (h : access a s = .next t) (hr : t.result ≠ s.result) :
    s.fault = 0 ∧ ∃ w, a = .write 0x000 .word w := by
  rcases access_cases h with ⟨v, rfl⟩ | rfl | ⟨_, i, f, v, _, _, rfl⟩ | ⟨w, rfl, hw⟩
  · exact absurd rfl hr
  · exact absurd rfl hr
  · exact absurd rfl hr
  · refine ⟨?_, w, rfl⟩
    by_contra hf
    rw [cmdWrite_of_halted (by simpa [State.halted] using hf)] at hw
    cases hw
    exact hr rfl

/-- STAGE changes at the write of one of its words only (R55). -/
theorem access_stage_ne {a : Access} {s t : State} (h : access a s = .next t) (hs : t.stage ≠ s.stage) :
    ∃ off v, a = .write off .word v ∧ 0x100 ≤ off.toNat ∧ off.toNat ≤ 0x5FF := by
  rcases access_cases h with ⟨v, rfl⟩ | rfl | ⟨off, i, f, v, rfl, hreg, _⟩ | ⟨w, _, hw⟩
  · exact absurd rfl hs
  · exact absurd rfl hs
  · exact ⟨off, v, rfl, regAt_stage_range hreg⟩
  · exact absurd (cmdWrite_stage hw) hs

/-- The scheduler and the timer write neither RESULT nor STAGE (R33, R51). -/
theorem step_result_stage {s t : State} (h : step s = .next t) (hh : s.nextMove ≠ .host) (hr : s.nextMove ≠ .rst) :
    t.result = s.result ∧ t.stage = s.stage := by
  cases step_cases h with
  | nothing _ h => simp [h]
  | sched _ _ _ h => simpa using And.intro (schedStep_result h) (exec_stage h)
  | boundary _ _ h => simp [h]
  | rst hm _ => exact absurd hm hr
  | read hm => exact absurd hm hh
  | stage hm => exact absurd hm hh
  | ignored hm => exact absurd hm hh
  | command hm => exact absurd hm hh
  | illegal hm => exact absurd hm hh

/-- Settles O27: of the moves other than reset only a host access can change RESULT, and of those only a command write
that nothing holds or voids. -/
theorem resultWrittenByCommandsOnly : Obligations.ResultWrittenByCommandsOnly := by
  intro s t h hne
  by_cases hr : s.nextMove = .rst
  · exact .inl hr
  by_cases hh : s.nextMove = .host
  · rcases step_host_cases hh h with rfl | ⟨a, rest, hs, hold, ha⟩
    · exact absurd rfl hne
    · obtain ⟨hf, w, rfl⟩ := access_result_ne ha hne
      exact .inr ⟨w, rest, hh, hs, (State.holds_command s w).symm.trans hold, hf⟩
  · exact absurd (step_result_stage h hh hr).1 hne

/-- Settles O28: of the moves other than reset only a host access can change STAGE, and of those only the write of a
STAGE word. -/
theorem stageWrittenByHostOnly : Obligations.StageWrittenByHostOnly := by
  intro s t h hne
  by_cases hr : s.nextMove = .rst
  · exact .inl hr
  by_cases hh : s.nextMove = .host
  · rcases step_host_cases hh h with rfl | ⟨a, rest, hs, _, ha⟩
    · exact absurd rfl hne
    · obtain ⟨off, v, rfl, hrange⟩ := access_stage_ne ha hne
      exact .inr ⟨hh, off, v, rest, hs, hrange⟩
  · exact absurd (step_result_stage h hh hr).2 hne

end Sys2Proof.Machine

/-! FAULT (R195): which transition sets which bit. -/

namespace Sys2Proof.Machine

theorem Fault.bit_getLsbD_one {f : Fault} (h : f ≠ .cursorOverrun) : f.bit.getLsbD 1 = false := by
  cases f <;> simp_all [Fault.bit]

theorem Fault.bit_getLsbD_two {f : Fault} (h : f ≠ .eventOverrun) : f.bit.getLsbD 2 = false := by
  cases f <;> simp_all [Fault.bit]

theorem Fault.eventOverrun_bit_getLsbD {k : Nat} (h : k ≠ 2) : Fault.eventOverrun.bit.getLsbD k = false := by
  match k with
  | 0 => rfl
  | 1 => rfl
  | k + 3 => exact BitVec.getLsbD_of_ge _ _ (by omega)

theorem execSchedStep_of_stepFault_none {s : State} (h : s.stepFault = none) :
    execSchedStep s = .next s.playCell := by
  simp [execSchedStep, h]

/-- Where no fault is raised, only reset writes FAULT. -/
theorem step_fault_of_not_raised {s t : State} (h : step s = .next t) (hm : s.nextMove ≠ .rst)
    (hr : s.raised = none) : t.fault = s.fault := by
  cases step_cases h with
  | nothing _ h => simp [h]
  | sched hm he hf h =>
    have hnone : s.stepFault = none := by simpa [State.raised, hm, State.schedEnabled, he, hf] using hr
    cases (execSchedStep_of_stepFault_none (s := s.beginMove) hnone).symm.trans h
    simp
  | read _ v h => simp [h]
  | stage _ i f v _ h => simp [h]
  | ignored _ h => simp [h]
  | command _ w i _ _ hd h =>
    have hi : i ≠ .schedStep := fun hi => decodeWord_ne_schedStep w (hi ▸ hd)
    simpa using exec_fault_of_command hi h
  | illegal _ w e _ _ _ h => simp [h, State.illegalCommand]
  | boundary hm he h =>
    have hp : s.evtPending = false := by simpa [State.raised, hm, he] using hr
    simp [h, State.boundary, hp]
  | rst hm' _ => exact absurd hm' hm

/-- What a step other than reset does to FAULT: nothing, or the one bit of the fault it raises (R195, R196). -/
theorem step_fault_cases {s t : State} (h : step s = .next t) (hm : s.nextMove ≠ .rst) :
    t.fault = s.fault ∨ ∃ f, s.raised = some f ∧ t.fault = s.fault ||| f.bit := by
  cases hr : s.raised with
  | none => exact .inl (step_fault_of_not_raised h hm hr)
  | some f =>
    obtain ⟨u, hu, hfault, _⟩ := step_of_outcome_fault (outcome_of_raised hr)
    cases hu.symm.trans h
    exact .inr ⟨f, rfl, hfault⟩

theorem State.raised_of_host {s : State} (hm : s.nextMove = .host) : s.raised = none := by
  simp [State.raised, hm]

/-- The scheduler raises no overrun of events (R197). -/
theorem State.raised_of_sched {s : State} {f : Fault} (hm : s.nextMove = .sched) (h : s.raised = some f) :
    f ≠ .eventOverrun := by
  rcases State.raised_iff.mp h with ⟨_, _, hf⟩ | ⟨hm', _⟩
  · rintro rfl
    exact State.stepFault_ne_eventOverrun s hf
  · rw [hm] at hm'
    cases hm'

/-- The timer raises that fault only (R201). -/
theorem State.raised_of_timer {s : State} {f : Fault} (hm : s.nextMove = .timer) (h : s.raised = some f) :
    f = .eventOverrun := by
  rcases State.raised_iff.mp h with ⟨hm', _⟩ | ⟨_, _, _, hf⟩
  · rw [hm] at hm'
    cases hm'
  · exact hf

theorem step_fault_of_rst {s t : State} (h : step s = .next t) (hm : s.nextMove = .rst) : t.fault = 0 := by
  rw [step, hm] at h
  cases h
  rfl

/-- Settles O26: a step other than reset leaves FAULT or adds the bit of the fault it raises, and who moves says which
fault that can be. -/
theorem faultBitsAreSticky : Obligations.FaultBitsAreSticky := by
  intro s t h
  refine ⟨fun hm k hk => ?_, fun hm => ?_, fun hm => ?_, fun hm k hk => ?_, step_fault_of_rst h⟩
  · rcases step_fault_cases h hm with hf | ⟨f, _, hf⟩ <;> simp [hf, hk]
  · exact step_fault_of_not_raised h (by simp [hm]) (State.raised_of_host hm)
  · rcases step_fault_cases h (by simp [hm]) with hf | ⟨f, hr, hf⟩
    · rw [hf]
    · rw [hf, BitVec.getLsbD_or, Fault.bit_getLsbD_two (State.raised_of_sched hm hr), Bool.or_false]
  · rcases step_fault_cases h (by simp [hm]) with hf | ⟨f, hr, hf⟩
    · rw [hf]
    · cases State.raised_of_timer hm hr
      rw [hf, BitVec.getLsbD_or, Fault.eventOverrun_bit_getLsbD hk, Bool.or_false]

/-! STAGE and the scheduler (R32): every operation of a scheduler step commutes with a change of STAGE. -/

/-- The state with other contents of STAGE. -/
def State.withStage (s : State) (m : Memory) : State := { s with stage := m }

theorem State.markFree_withStage (s : State) (m : Memory) : (s.withStage m).markFree = s.markFree.withStage m := by
  have hbuf : (s.withStage m).curBuf = s.curBuf := rfl
  unfold State.markFree
  rw [hbuf]
  cases s.curBuf <;> rfl

theorem State.noQueued_withStage (s : State) (m : Memory) : (s.withStage m).noQueued = s.noQueued.withStage m := by
  have hpol : (s.withStage m).idlePolicy = s.idlePolicy := rfl
  unfold State.noQueued
  rw [hpol]
  cases s.idlePolicy <;> rfl

theorem State.selectNext_withStage (s : State) (m : Memory) :
    (s.withStage m).selectNext = s.selectNext.withStage m := by
  have hfree : ∀ sl, (s.withStage m).isFree sl = s.isFree sl := fun _ => rfl
  unfold State.selectNext
  rw [hfree, hfree, State.noQueued_withStage]
  cases s.isFree .a <;> cases s.isFree .b <;> rfl

theorem State.packetBoundary_withStage (s : State) (m : Memory) :
    (s.withStage m).packetBoundary = s.packetBoundary.withStage m := by
  have hsent : (s.withStage m).onSentinel = s.onSentinel := rfl
  unfold State.packetBoundary
  rw [hsent, State.markFree_withStage, State.selectNext_withStage]
  cases s.onSentinel <;> rfl

theorem State.playCell_withStage (s : State) (m : Memory) : (s.withStage m).playCell = s.playCell.withStage m :=
  congrArg State.ackEvent (State.packetBoundary_withStage ((s.timerWrite s.cursorCell).scopeTick.advance) m)

/-- Settles O36: the fault of a step does not look at STAGE, and playing a cell commutes with a change of it. -/
theorem schedulerNeverReadsStage : Obligations.SchedulerNeverReadsStage := by
  intro s t m h
  have hfault : (s.withStage m).stepFault = s.stepFault := rfl
  show execSchedStep (s.withStage m) = .next (t.withStage m)
  rcases exec_schedStep_next h with ⟨f, hf, rfl⟩ | ⟨hf, rfl⟩
  · rw [execSchedStep, hfault, hf]
    rfl
  · rw [execSchedStep, hfault, hf, State.playCell_withStage]

/-! The canonical form of the buffers (log 7): kept by every step. -/

theorem State.selectNext_wfMemory {s : State} (h : s.wfMemory = true) : s.selectNext.wfMemory = true := by
  simpa [State.wfMemory] using h

theorem State.packetBoundary_wfMemory {s : State} (h : s.wfMemory = true) : s.packetBoundary.wfMemory = true := by
  unfold State.packetBoundary
  split
  · exact State.selectNext_wfMemory (State.markFree_wfMemory h)
  · exact h

theorem State.playCell_wfMemory {s : State} (h : s.wfMemory = true) : s.playCell.wfMemory = true :=
  State.packetBoundary_wfMemory (s := (s.timerWrite s.cursorCell).scopeTick.advance) h

theorem State.loadSlot_wfMemory {s : State} {n : Nat} (sl : Slot) (h : s.wfMemory = true) (hn : n < slotCap) :
    (s.loadSlot sl n).wfMemory = true := by
  have hfill := State.fillSlot_wfMemory sl h hn
  unfold State.loadSlot
  split <;> exact hfill

theorem State.boundary_wfMemory {s : State} (h : s.wfMemory = true) : s.boundary.wfMemory = true := by
  simpa [State.wfMemory] using h

theorem State.resetWith_wfMemory (cfg : Config) (act : BitCell) (k : Nat) :
    (State.resetWith cfg act k).wfMemory = true :=
  State.wfMemory_iff.mpr ⟨rfl, rfl, rfl, idleImage_wf cfg⟩

theorem exec_wfMemory {i : Instr} {s t : State} (hw : s.wfMemory = true) (h : exec i s = .next t) :
    t.wfMemory = true := by
  cases i with
  | configure pol => cases h; exact State.rebuildBuffers_wfMemory (s := s.trackOff.ackEvent) hw
  | loadPattern n =>
    rcases exec_loadPattern_next h with ⟨r, rfl⟩ | ⟨sl, _, hn, _, _, rfl⟩
    · exact hw
    · exact State.loadSlot_wfMemory sl hw (Nat.lt_succ_of_le hn)
  | enableTrack => cases h; exact hw
  | disableTrack => cases h; exact hw
  | schedStep =>
    rcases exec_schedStep_next h with ⟨f, _, rfl⟩ | ⟨_, rfl⟩
    · exact hw
    · exact State.playCell_wfMemory hw

/-- Settles O46, by the cases of a step. -/
theorem stepKeepsCanonicalMemory : Obligations.StepKeepsCanonicalMemory := by
  intro s t hw h
  cases step_cases h with
  | nothing _ h => cases h; exact hw
  | sched _ _ _ h => exact exec_wfMemory (s := s.beginMove) hw h
  | read _ v h => cases h; exact hw
  | stage _ i f v hi h => cases h; exact State.writeStage_wfMemory f v (s := s.beginMove.popAccess) hw hi
  | ignored _ h => cases h; exact hw
  | command _ w i _ _ _ h => exact exec_wfMemory (s := s.beginMove.popAccess) hw h
  | illegal _ w e _ _ _ h => cases h; exact hw
  | boundary _ _ h => cases h; exact State.boundary_wfMemory (s := s.beginMove) hw
  | rst _ h => cases h; exact State.resetWith_wfMemory s.cfg (Config.freeCell s.freeIdx) (s.freeIdx + 1)

/-! The canonical form is unique: the first entry of a buffer is its first cell that is not `(0, 0, 0)`. -/

theorem Memory.read_head (k : Nat) (c : BitCell) (m : Memory) : Memory.read ((k, c) :: m) k = c := by
  simp [Memory.read_cons]

theorem Memory.le_of_read_ne {lo i : Nat} {m : Memory} (h : m.rising lo = true) (hi : m.read i ≠ BitCell.zero) :
    lo ≤ i := by
  by_contra hlt
  exact hi (Memory.read_below h (by omega))

/-- Of two buffers that read the same, a rising one begins no later than the other, whose first cell is not `(0, 0, 0)`. -/
theorem Memory.head_le_of_read_eq {k k' lo : Nat} {c c' : BitCell} {m m' : Memory}
    (h' : Memory.rising lo ((k', c') :: m') = true) (hc : c ≠ BitCell.zero)
    (he : ∀ i, Memory.read ((k, c) :: m) i = Memory.read ((k', c') :: m') i) : k' ≤ k := by
  obtain ⟨_, htail⟩ := Memory.rising_cons.mp h'
  have hrise : Memory.rising k' ((k', c') :: m') = true := Memory.rising_cons.mpr ⟨le_refl k', htail⟩
  exact Memory.le_of_read_ne hrise (by rw [← he, Memory.read_head]; exact hc)

/-- Where two rising buffers begin with the same entry and read the same, so do their tails. -/
theorem Memory.read_tail_eq {k lo : Nat} {c : BitCell} {m m' : Memory} (h : Memory.rising lo ((k, c) :: m) = true)
    (h' : Memory.rising lo ((k, c) :: m') = true)
    (he : ∀ i, Memory.read ((k, c) :: m) i = Memory.read ((k, c) :: m') i) (i : Nat) : m.read i = m'.read i := by
  by_cases hi : i = k
  · subst hi
    rw [Memory.read_below (Memory.rising_cons.mp h).2 (Nat.lt_succ_self i),
      Memory.read_below (Memory.rising_cons.mp h').2 (Nat.lt_succ_self i)]
  · simpa [Memory.read_cons, hi] using he i

theorem Memory.eq_of_read_eq {lo : Nat} {m m' : Memory} (h : m.rising lo = true) (h' : m'.rising lo = true)
    (hz : ∀ e ∈ m, e.2 ≠ BitCell.zero) (hz' : ∀ e ∈ m', e.2 ≠ BitCell.zero) (he : ∀ i, m.read i = m'.read i) :
    m = m' := by
  induction m generalizing lo m' with
  | nil =>
    cases m' with
    | nil => rfl
    | cons e' m' => exact absurd ((he e'.1).trans (Memory.read_head e'.1 e'.2 m')).symm (hz' e' (by simp))
  | cons e m ih =>
    obtain ⟨k, c⟩ := e
    cases m' with
    | nil => exact absurd ((Memory.read_head k c m).symm.trans (he k)) (hz (k, c) (by simp))
    | cons e' m' =>
      obtain ⟨k', c'⟩ := e'
      have hk : k = k' := le_antisymm
        (Memory.head_le_of_read_eq h (hz' (k', c') (by simp)) fun i => (he i).symm)
        (Memory.head_le_of_read_eq h' (hz (k, c) (by simp)) he)
      subst hk
      have hc : c = c' := by simpa [Memory.read_head] using he k
      subst hc
      rw [ih (Memory.rising_cons.mp h).2 (Memory.rising_cons.mp h').2 (fun e he => hz e (by simp [he]))
        (fun e he => hz' e (by simp [he])) (Memory.read_tail_eq h h' he)]

/-- Settles O47: above the capacity both buffers read `(0, 0, 0)`, so they read the same at every index. -/
theorem canonicalBuffersAreUnique : Obligations.CanonicalBuffersAreUnique := by
  intro cap m m' h h' he
  obtain ⟨hr, hm⟩ := Memory.wf_iff.mp h
  obtain ⟨hr', hm'⟩ := Memory.wf_iff.mp h'
  refine Memory.eq_of_read_eq hr hr' (fun e he => (hm e he).2) (fun e he => (hm' e he).2) fun i => ?_
  by_cases hi : i < cap
  · exact he i hi
  · rw [Memory.read_above h (Nat.not_lt.mp hi), Memory.read_above h' (Nat.not_lt.mp hi)]

/-! The loop of POLL_AVAIL (R90): its read, and the test of the data returned. -/

theorem place_getLsbD {n : Nat} (v : BitVec n) (lsb i : Nat) :
    (place v lsb).getLsbD i = (decide (i < 32) && decide (lsb ≤ i) && v.getLsbD (i - lsb)) := by
  simp only [place, BitVec.getLsbD_shiftLeft, BitVec.getLsbD_setWidth]
  by_cases hi : i < 32
  · by_cases hl : lsb ≤ i <;> simp [hi, hl, show i - lsb < 32 by omega]
  · simp [hi]

/-- Bit 1 of STATUS is BUF_AVAIL (R36, R54). -/
theorem State.statusWord_bufAvail (s : State) : s.statusWord.getLsbD 1 = s.bufAvail := by
  simp only [State.statusWord, BitVec.getLsbD_or, place_getLsbD]
  simp

theorem access_pollRead (s : State) : access pollRead s = .next (s.returnData s.statusWord) := rfl

theorem pollNext_statusWord (s : State) (rest : List Access) :
    pollNext s.statusWord rest = if s.bufAvail then rest else pollRead :: rest := by
  rw [pollNext, pollAgain, State.statusWord_bufAvail]
  cases s.bufAvail <;> rfl

/-- Settles O59: the read returns STATUS, whose bit 1 is BUF_AVAIL. -/
theorem pollEndsWhenASlotIsFree : Obligations.PollEndsWhenASlotIsFree := by
  intro s rest
  refine ⟨_, access_pollRead s, rfl, fun h => ?_, fun ha hb => ?_⟩ <;>
    rw [State.returnData_busRdata, pollNext_statusWord]
  · exact if_pos (by simpa [State.bufAvail] using h)
  · exact if_neg (by simp [State.bufAvail, ha, hb])

end Sys2Proof.Machine

/-! A buffer that reaches a sentinel (R39 INV4). -/

namespace Sys2Proof.Machine

theorem Memory.Reaches.lt {cap lo : Nat} {m : Memory} (h : m.Reaches cap lo) : lo < cap := by
  obtain ⟨k, hlo, hk, _⟩ := h
  omega

/-- Only the cells from the starting index on matter. -/
theorem Memory.Reaches.congr {cap lo : Nat} {m m' : Memory} (h : m.Reaches cap lo)
    (he : ∀ i, lo ≤ i → m'.read i = m.read i) : m'.Reaches cap lo := by
  obtain ⟨k, hlo, hk, hs, hv⟩ := h
  exact ⟨k, hlo, hk, by rw [he k hlo]; exact hs, fun i hi hik => by rw [he i hi]; exact hv i hi hik⟩

/-- From a cell that is no sentinel the packet goes on. -/
theorem Memory.Reaches.succ {cap lo : Nat} {m : Memory} (h : m.Reaches cap lo) (hl : isSentinel (m.read lo) = false) :
    m.Reaches cap (lo + 1) := by
  obtain ⟨k, hlo, hk, hs, hv⟩ := h
  have hne : lo ≠ k := by
    rintro rfl
    simp [hs] at hl
  exact ⟨k, by omega, hk, hs, fun i hi hik => hv i (by omega) hik⟩

theorem Memory.reaches_self {cap lo : Nat} {m : Memory} (hlo : lo < cap) (hs : isSentinel (m.read lo) = true) :
    m.Reaches cap lo :=
  ⟨lo, le_refl lo, hlo, hs, fun _ _ _ => by omega⟩

theorem Config.wf_idleCells {cfg : Config} (h : cfg.wf = true) :
    2 ≤ cfg.idleCells.length ∧ cfg.idleCells.length ≤ 5 ∧ ∀ c ∈ cfg.idleCells, validCell c = true := by
  simp only [Config.wf, Bool.and_eq_true, decide_eq_true_eq, List.all_eq_true] at h
  obtain ⟨⟨⟨⟨hlo, hhi⟩, hv⟩, _⟩, _⟩ := h
  exact ⟨hlo, hhi, hv⟩

theorem idleImage_read {cfg : Config} (h : cfg.wf = true) (i : Nat) :
    (idleImage cfg).read i = cfg.idleCells.getD i BitCell.zero := by
  have hlen : cfg.idleCells.length ≤ idleCap := Nat.le_succ_of_le (Config.wf_idleCells h).2.1
  simp [idleImage, Memory.read_ofCells, List.take_of_length_le hlen]

/-- The idle packet is valid cells up to its sentinel (R9, R23). -/
theorem idleImage_reaches {cfg : Config} {lo : Nat} (h : cfg.wf = true) (hlo : lo ≤ 2) :
    (idleImage cfg).Reaches idleCap lo := by
  obtain ⟨h2, h5, hv⟩ := Config.wf_idleCells h
  refine ⟨cfg.idleCells.length, by omega, Nat.lt_succ_of_le h5, ?_, fun i _ hi => ?_⟩
  · simp [idleImage_read h]
  · rw [idleImage_read h, List.getD_eq_getElem _ _ hi]
    exact hv _ (List.getElem_mem hi)

/-! The invariant, cut in parts that steps keep for different reasons: the packets stored in the buffers, the cursor in
them, and the control bits. -/

/-- What the invariant says of the packets in the buffers. -/
structure State.PacketsInv (s : State) : Prop where
  idlePacket : s.idle = idleImage s.cfg
  complete : s.pktComplete = true → s.isFree .a = true ∧ s.isFree .b = true
  packets : ∀ sl : Slot, s.isFree sl = false → (s.buffer sl.buf).Reaches sl.buf.cap 0

/-- What the invariant says of the packets and of the cursor in them. -/
structure State.CursorInv (s : State) : Prop extends s.PacketsInv where
  active : s.pktComplete = false → ∃ sl : Slot, s.curBuf = sl.buf ∧ s.isFree sl = false
  cursor : (s.buffer s.curBuf).Reaches s.curBuf.cap s.curIdx.toNat
  playing : s.pktComplete = false → isSentinel s.cursorCell = false
  resting : s.pktComplete = true → s.curBuf ≠ .idle → isSentinel s.cursorCell = true

/-- What the invariant says of TRACK_EN, EVT_PENDING and FAULT. -/
structure State.ControlInv (s : State) : Prop where
  event : s.evtPending = true → s.trackEn = true
  haltedOff : s.halted = true → s.trackEn = false ∧ s.evtPending = false
  noOverrun : s.fault.getLsbD 1 = false
  deadline : s.cfg.assumeDeadline = true → s.fault.getLsbD 2 = false

theorem State.inv_iff {s : State} :
    s.Inv ↔ s.cfg.wf = true ∧ s.wfMemory = true ∧ s.CursorInv ∧ s.ControlInv := by
  constructor
  · intro h
    exact ⟨h.cfgRange, h.memory, ⟨⟨h.idlePacket, h.complete, h.packets⟩, h.active, h.cursor, h.playing, h.resting⟩,
      ⟨h.event, h.haltedOff, h.noOverrun, h.deadline⟩⟩
  · rintro ⟨hcfg, hmem, hcur, hctl⟩
    exact ⟨hcfg, hmem, hcur.idlePacket, hcur.complete, hcur.active, hcur.packets, hcur.cursor, hctl.event, hcur.playing,
      hcur.resting, hctl.haltedOff, hctl.noOverrun, hctl.deadline⟩

/-- The elements `CursorInv` speaks of. -/
def State.cursorView (s : State) : Config × Memory × Memory × Memory × Buf × BitVec 7 × Bool :=
  (s.cfg, s.slotA, s.slotB, s.idle, s.curBuf, s.curIdx, s.pktComplete)

/-- The elements `ControlInv` speaks of. -/
def State.controlView (s : State) : Config × Bool × Bool × BitVec 3 := (s.cfg, s.trackEn, s.evtPending, s.fault)

theorem State.CursorInv.of_view {s t : State} (h : s.CursorInv) (hv : t.cursorView = s.cursorView) : t.CursorInv := by
  cases s
  cases t
  simp only [State.cursorView, Prod.mk.injEq] at hv
  obtain ⟨rfl, rfl, rfl, rfl, rfl, rfl, rfl⟩ := hv
  exact ⟨⟨h.idlePacket, h.complete, h.packets⟩, h.active, h.cursor, h.playing, h.resting⟩

theorem State.ControlInv.of_view {s t : State} (h : s.ControlInv) (hv : t.controlView = s.controlView) :
    t.ControlInv := by
  cases s
  cases t
  simp only [State.controlView, Prod.mk.injEq] at hv
  obtain ⟨rfl, rfl, rfl, rfl⟩ := hv
  exact ⟨h.event, h.haltedOff, h.noOverrun, h.deadline⟩

/-! Buffers cleared and the cursor in the idle packet: reset (R230) and CONFIGURE (R103). -/

/-- The buffers as reset and CONFIGURE leave them, with the cursor in the idle packet and the packet complete. -/
structure State.Cleared (s : State) : Prop where
  slotA : s.slotA = []
  slotB : s.slotB = []
  idle : s.idle = idleImage s.cfg
  curBuf : s.curBuf = .idle
  curIdx : s.curIdx = 1
  complete : s.pktComplete = true

theorem State.Cleared.isFree {s : State} (h : s.Cleared) (sl : Slot) : s.isFree sl = true := by
  cases sl <;> simp [State.isFree, State.cell, State.buffer, Slot.buf, h.slotA, h.slotB]

theorem State.Cleared.cursorInv {s : State} (h : s.Cleared) (hcfg : s.cfg.wf = true) : s.CursorInv where
  idlePacket := h.idle
  complete _ := ⟨h.isFree .a, h.isFree .b⟩
  packets sl hsl := by simp [h.isFree sl] at hsl
  active hc := by simp [h.complete] at hc
  cursor := by
    rw [h.curBuf, h.curIdx]
    show s.idle.Reaches idleCap 1
    rw [h.idle]
    exact idleImage_reaches hcfg (by decide)
  playing hc := by simp [h.complete] at hc
  resting _ hb := absurd h.curBuf hb

/-! The packet boundary (R136 to R140). -/

theorem State.isFree_of_both {s : State} (h : s.isFree .a = true ∧ s.isFree .b = true) (sl : Slot) :
    s.isFree sl = true := by
  cases sl
  · exact h.1
  · exact h.2

theorem State.PacketsInv.not_complete {s : State} {sl : Slot} (h : s.PacketsInv) (hsl : s.isFree sl = false) :
    s.pktComplete = false := by
  by_contra hc
  simp [State.isFree_of_both (h.complete (by simpa using hc)) sl] at hsl

theorem State.PacketsInv.markFree {s : State} (h : s.PacketsInv) : s.markFree.PacketsInv where
  idlePacket := by simpa using h.idlePacket
  complete hc := by
    have hfree := h.complete (by simpa using hc)
    simp [hfree]
  packets sl hsl := by
    obtain ⟨hne, hfree⟩ : sl.buf ≠ s.curBuf ∧ s.isFree sl = false := by simpa using hsl
    refine (h.packets sl hfree).congr fun i _ => ?_
    have hcell : s.markFree.cell sl.buf i = s.cell sl.buf i := by simp [hne]
    exact hcell

/-- A swap starts the queued slot's packet at its first cell (R138). -/
theorem State.PacketsInv.swapTo {s : State} {sl : Slot} (h : s.PacketsInv) (hsl : s.isFree sl = false) :
    (s.swapTo sl).CursorInv where
  idlePacket := h.idlePacket
  complete := h.complete
  packets := h.packets
  active _ := ⟨sl, rfl, hsl⟩
  cursor := h.packets sl hsl
  playing _ := hsl
  resting hc := absurd hc (by simp [h.not_complete hsl])

/-- With no slot queued, both slots are free: the idle packet is re-armed, or the cursor rests on its sentinel (R140). -/
theorem State.PacketsInv.noQueued {s : State} (h : s.PacketsInv) (hcfg : s.cfg.wf = true) (ha : s.isFree .a = true)
    (hb : s.isFree .b = true) (hcap : s.curIdx.toNat < s.curBuf.cap) (hs : isSentinel s.cursorCell = true) :
    s.noQueued.CursorInv := by
  have hfree : ∀ sl : Slot, s.isFree sl ≠ false := fun sl => by simp [State.isFree_of_both ⟨ha, hb⟩ sl]
  unfold State.noQueued
  cases s.idlePolicy with
  | loop =>
    refine ⟨⟨h.idlePacket, fun _ => ⟨ha, hb⟩, fun sl hsl => absurd hsl (hfree sl)⟩, nofun, ?_, nofun,
      fun _ hne => absurd rfl hne⟩
    show s.idle.Reaches idleCap 0
    rw [h.idlePacket]
    exact idleImage_reaches hcfg (by decide)
  | disable =>
    exact ⟨⟨h.idlePacket, fun _ => ⟨ha, hb⟩, fun sl hsl => absurd hsl (hfree sl)⟩, nofun,
      Memory.reaches_self hcap hs, nofun, fun _ _ => hs⟩

theorem State.PacketsInv.selectNext {s : State} (h : s.PacketsInv) (hcfg : s.cfg.wf = true)
    (hcap : s.curIdx.toNat < s.curBuf.cap) (hs : isSentinel s.cursorCell = true) : s.selectNext.CursorInv := by
  rcases State.selectNext_cases s with ⟨ha, he⟩ | ⟨_, hb, he⟩ | ⟨ha, hb, he⟩ <;> rw [he]
  · exact h.swapTo ha
  · exact h.swapTo hb
  · exact h.noQueued hcfg ha hb hcap hs

/-- Mark free writes cell 0, so a cursor beyond it still sees what it saw. -/
theorem State.markFree_cursorCell {s : State} (h : s.curIdx.toNat ≠ 0) : s.markFree.cursorCell = s.cursorCell := by
  simp [State.cursorCell, h]

theorem State.PacketsInv.boundary {s : State} (h : s.PacketsInv) (hcfg : s.cfg.wf = true)
    (hpos : s.curIdx.toNat ≠ 0) (hcap : s.curIdx.toNat < s.curBuf.cap) (hs : isSentinel s.cursorCell = true) :
    s.markFree.selectNext.CursorInv :=
  h.markFree.selectNext (by simpa using hcfg) (by simpa using hcap) (by rw [State.markFree_cursorCell hpos]; exact hs)

/-! A scheduler step that plays a cell (R131). -/

/-- An index of a buffer fits the 7 bits of CUR_IDX with room for the next (R24). -/
theorem State.advance_curIdx_toNat {s : State} (h : s.curIdx.toNat + 1 < s.curBuf.cap) :
    s.advance.curIdx.toNat = s.curIdx.toNat + 1 := by
  have hcap : s.curBuf.cap ≤ 80 := by cases s.curBuf <;> decide
  show (s.curIdx + 1).toNat = _
  rw [BitVec.toNat_add]
  exact Nat.mod_eq_of_lt (by simp; omega)

/-- Within a packet the cursor moves on to a live cell. A resting cursor does not move: it stands on a sentinel. -/
theorem State.CursorInv.advance {s : State} (h : s.CursorInv) (hlive : isSentinel s.cursorCell = false)
    (hroom : s.curIdx.toNat + 1 < s.curBuf.cap) (hnext : isSentinel s.advance.cursorCell = false) :
    s.advance.CursorInv where
  idlePacket := h.idlePacket
  complete := h.complete
  packets := h.packets
  active := h.active
  cursor := by
    rw [State.advance_curIdx_toNat hroom]
    exact h.cursor.succ hlive
  playing _ := hnext
  resting hc hb := by
    have hsent := h.resting hc hb
    simp [hlive] at hsent

theorem State.CursorInv.packetBoundary_advance {s : State} (h : s.CursorInv) (hcfg : s.cfg.wf = true)
    (hnone : s.stepFault = none) : s.advance.packetBoundary.CursorInv := by
  obtain ⟨hlive, hroom⟩ := State.stepFault_none.mp hnone
  have hidx := State.advance_curIdx_toNat hroom
  have hstored : s.advance.PacketsInv := ⟨h.idlePacket, h.complete, h.packets⟩
  unfold State.packetBoundary
  split
  · rename_i hs
    exact hstored.boundary hcfg (by omega) (by rw [hidx]; exact hroom) hs
  · rename_i hs
    exact h.advance hlive hroom (by simpa using hs)

/-- The timer write and the scope counter before the advance are nothing to the packets. -/
theorem State.CursorInv.playCell {s : State} (h : s.CursorInv) (hcfg : s.cfg.wf = true) (hnone : s.stepFault = none) :
    s.playCell.CursorInv :=
  have hpre : (s.timerWrite s.cursorCell).scopeTick.CursorInv := h.of_view rfl
  (hpre.packetBoundary_advance hcfg hnone).of_view rfl

/-! LOAD_PATTERN (R106): a packet in the first free slot, queued or handed to the timer. -/

/-- The cells of a filled slot: those of STAGE and a sentinel after them. -/
theorem State.fillSlot_reaches {s : State} {n : Nat} (sl : Slot) (hn : n ≤ 79)
    (hv : ∀ i, i < n → validCell (s.stage.read i) = true) :
    ((s.fillSlot sl n).buffer sl.buf).Reaches sl.buf.cap 0 := by
  have hcell : ∀ i, ((s.fillSlot sl n).buffer sl.buf).read i =
      if i < n then s.stage.read i else if i = n then BitCell.zero else s.cell sl.buf i :=
    fun i => (State.fillSlot_cell s sl n sl.buf i).trans (if_pos rfl)
  refine ⟨n, Nat.zero_le n, by simp; omega, by simp [hcell], fun i _ hi => ?_⟩
  rw [hcell, if_pos hi]
  exact hv i hi

/-- Filling a slot changes no cell of another buffer. -/
theorem State.fillSlot_cell_of_ne {s : State} {sl : Slot} {n : Nat} {b : Buf} (hb : b ≠ sl.buf) (i : Nat) :
    (s.fillSlot sl n).cell b i = s.cell b i := by
  simp [hb]

theorem State.fillSlot_live {s : State} {sl : Slot} {n i : Nat} (hi : i < n)
    (hv : ∀ i, i < n → validCell (s.stage.read i) = true) : isSentinel ((s.fillSlot sl n).cell sl.buf i) = false := by
  simpa [hi] using validCell_not_sentinel (hv i hi)

theorem State.PacketsInv.fillSlot_packets {s : State} {sl : Slot} {n : Nat} (h : s.PacketsInv) (hn : n ≤ 79)
    (hv : ∀ i, i < n → validCell (s.stage.read i) = true) (x : Slot) (hx : (s.fillSlot sl n).isFree x = false) :
    ((s.fillSlot sl n).buffer x.buf).Reaches x.buf.cap 0 := by
  by_cases hxs : x = sl
  · subst hxs
    exact State.fillSlot_reaches x hn hv
  · have hcell : ∀ i, (s.fillSlot sl n).cell x.buf i = s.cell x.buf i :=
      State.fillSlot_cell_of_ne (by simpa using hxs)
    have hfree : s.isFree x = false := by rwa [State.isFree, hcell] at hx
    exact (h.packets x hfree).congr fun i _ => hcell i

/-- A packet queued beside the one in play is nothing to the cursor: the slot it fills was free. -/
theorem State.CursorInv.fillSlot_queued {s : State} {sl : Slot} {n : Nat} (h : s.CursorInv)
    (hfree : s.isFree sl = true) (hn : n ≤ 79) (hv : ∀ i, i < n → validCell (s.stage.read i) = true)
    (hc : s.pktComplete = false) : (s.fillSlot sl n).CursorInv := by
  obtain ⟨x, hcur, hx⟩ := h.active hc
  have hne : x ≠ sl := by
    rintro rfl
    simp [hfree] at hx
  have hcell : ∀ i, (s.fillSlot sl n).cell x.buf i = s.cell x.buf i :=
    State.fillSlot_cell_of_ne (by simpa using hne)
  exact
    { idlePacket := h.idlePacket
      complete := fun hc' => absurd hc' (by simp [hc])
      packets := h.fillSlot_packets hn hv
      active := fun _ => ⟨x, hcur, by rw [State.isFree, hcell]; exact hx⟩
      cursor := h.cursor.congr fun i _ => by
        show (s.fillSlot sl n).cell s.curBuf i = s.cell s.curBuf i
        rw [hcur]
        exact hcell i
      playing := fun _ => by
        have hcc : (s.fillSlot sl n).cursorCell = s.cursorCell := by
          simp only [State.cursorCell, State.fillSlot_curBuf, State.fillSlot_curIdx, hcur, hcell]
        rw [hcc]
        exact h.playing hc
      resting := fun hc' => absurd hc' (by simp [hc]) }

/-- The handoff puts the cursor on cell 1 of a packet of at least two cells (R108). -/
theorem State.PacketsInv.fillSlot_handoff {s : State} {sl : Slot} {n : Nat} (h : s.PacketsInv) (hlo : 2 ≤ n)
    (hn : n ≤ 79) (hv : ∀ i, i < n → validCell (s.stage.read i) = true) : ((s.fillSlot sl n).handoff sl).CursorInv where
  idlePacket := by simpa using h.idlePacket
  complete := nofun
  packets := h.fillSlot_packets hn hv
  active _ := ⟨sl, rfl, State.fillSlot_live (by omega) hv⟩
  cursor := (State.fillSlot_reaches sl hn hv).succ (State.fillSlot_live (by omega) hv)
  playing _ := State.fillSlot_live (i := 1) (by omega) hv
  resting := nofun

theorem State.CursorInv.loadSlot {s : State} {sl : Slot} {n : Nat} (h : s.CursorInv) (hfree : s.isFree sl = true)
    (hlo : 2 ≤ n) (hn : n ≤ 79) (hv : ∀ i, i < n → validCell (s.stage.read i) = true) :
    (s.loadSlot sl n).CursorInv := by
  unfold State.loadSlot
  split
  · exact (h.fillSlot_handoff hlo hn hv).of_view rfl
  · rename_i hc
    exact (h.fillSlot_queued hfree hn hv (by simpa using hc)).of_view rfl

/-! Every instruction and every step keeps the parts of the invariant. -/

theorem exec_cursorInv {i : Instr} {s t : State} (hcfg : s.cfg.wf = true) (h : s.CursorInv) (hx : exec i s = .next t) :
    t.CursorInv := by
  cases i with
  | configure pol =>
    cases hx
    exact State.Cleared.cursorInv ⟨rfl, rfl, rfl, rfl, rfl, rfl⟩ hcfg
  | loadPattern n =>
    rcases exec_loadPattern_next hx with ⟨r, rfl⟩ | ⟨sl, hlo, hn, hv, hfree, rfl⟩
    · exact h.of_view rfl
    · exact h.loadSlot hfree hlo hn hv
  | enableTrack => cases hx; exact h.of_view rfl
  | disableTrack => cases hx; exact h.of_view rfl
  | schedStep =>
    rcases exec_schedStep_next hx with ⟨f, _, rfl⟩ | ⟨hnone, rfl⟩
    · exact h.of_view rfl
    · exact h.playCell hcfg hnone

theorem State.boundary_cursorView (s : State) : s.boundary.cursorView = s.cursorView := by
  simp [State.cursorView]

theorem step_cursorInv {s t : State} (hcfg : s.cfg.wf = true) (h : s.CursorInv) (hx : step s = .next t) :
    t.CursorInv := by
  cases step_cases hx with
  | nothing _ ht => cases ht; exact h.of_view rfl
  | sched _ _ _ ht => exact exec_cursorInv (s := s.beginMove) hcfg (h.of_view rfl) ht
  | read _ v ht => cases ht; exact h.of_view rfl
  | stage _ i f v _ ht => cases ht; exact h.of_view rfl
  | ignored _ ht => cases ht; exact h.of_view rfl
  | command _ w i _ _ _ ht => exact exec_cursorInv (s := s.beginMove.popAccess) hcfg (h.of_view rfl) ht
  | illegal _ w e _ _ _ ht => cases ht; exact h.of_view rfl
  | boundary _ _ ht => cases ht; exact h.of_view (State.boundary_cursorView s.beginMove)
  | rst _ ht => cases ht; exact State.Cleared.cursorInv ⟨rfl, rfl, rfl, rfl, rfl, rfl⟩ hcfg

/-- The cursor's packet ends within its buffer, so no step runs over the end (R135, R195). -/
theorem State.CursorInv.stepFault_ne_cursorOverrun {s : State} (h : s.CursorInv) :
    s.stepFault ≠ some .cursorOverrun := by
  intro hf
  rcases State.stepFault_cursorOverrun_iff.mp hf with hout | ⟨hlast, hlive⟩
  · exact absurd h.cursor.lt (by omega)
  · exact absurd (h.cursor.succ hlive).lt (by omega)

/-- On a block that is not halted, only INV5 is left of the control bits' part. -/
theorem State.ControlInv.of_not_halted {s : State} (hf : s.fault = 0) (he : s.evtPending = true → s.trackEn = true) :
    s.ControlInv where
  event := he
  haltedOff hh := by simp [State.halted, hf] at hh
  noOverrun := by simp [hf]
  deadline _ := by simp [hf]

/-- An event becomes pending only with the track on (INV5): at an edge with a forced update. -/
theorem exec_event {i : Instr} {s t : State} (h : s.evtPending = true → s.trackEn = true) (hx : exec i s = .next t) :
    t.evtPending = true → t.trackEn = true := by
  cases i with
  | configure pol => cases hx; exact nofun
  | loadPattern n =>
    rcases exec_loadPattern_next hx with ⟨r, rfl⟩ | ⟨sl, _, _, _, _, rfl⟩
    · exact h
    · unfold State.loadSlot
      split
      · exact fun _ => rfl
      · exact h
  | enableTrack => cases hx; exact fun _ => rfl
  | disableTrack => cases hx; exact nofun
  | schedStep => rcases exec_schedStep_next hx with ⟨f, _, rfl⟩ | ⟨_, rfl⟩ <;> exact nofun

/-- A transition that raises a fault other than the overruns excluded by R195 leaves the halted block of R196. -/
theorem State.ControlInv.of_raised {s t : State} {f : Fault} (h : s.ControlInv) (hcfg : t.cfg = s.cfg)
    (hfault : t.fault = s.fault ||| f.bit) (htrack : t.trackEn = false) (hevent : t.evtPending = false)
    (hcur : f ≠ .cursorOverrun) (hev : f = .eventOverrun → s.cfg.assumeDeadline = false) : t.ControlInv where
  event he := by simp [hevent] at he
  haltedOff _ := ⟨htrack, hevent⟩
  noOverrun := by rw [hfault, BitVec.getLsbD_or, h.noOverrun, Fault.bit_getLsbD_one hcur, Bool.or_false]
  deadline hd := by
    rw [hcfg] at hd
    have hne : f ≠ .eventOverrun := fun hf => by simp [hev hf] at hd
    rw [hfault, BitVec.getLsbD_or, h.deadline hd, Fault.bit_getLsbD_two hne, Bool.or_false]

theorem State.fault_of_not_halted {s : State} (h : s.halted = false) : s.fault = 0 := by
  simpa [State.halted] using h

/-- An enabled boundary has the track on, so it runs on a block that is not halted (R196, R201). -/
theorem State.ControlInv.fault_of_trackEn {s : State} (h : s.ControlInv) (ht : s.trackEn = true) : s.fault = 0 := by
  refine State.fault_of_not_halted ?_
  by_contra hh
  have hoff := (h.haltedOff (by simpa using hh)).1
  simp [ht] at hoff

theorem step_controlInv_of_not_raised {s t : State} (h : s.ControlInv) (hr : s.raised = none) (hx : step s = .next t) :
    t.ControlInv := by
  cases step_cases hx with
  | nothing _ ht => cases ht; exact h.of_view rfl
  | sched hm _ hf ht =>
    have hfault := step_fault_of_not_raised hx (by simp [hm]) hr
    exact .of_not_halted (hfault.trans (State.fault_of_not_halted hf)) (exec_event (s := s.beginMove) h.event ht)
  | read _ v ht => cases ht; exact h.of_view rfl
  | stage _ i f v _ ht => cases ht; exact h.of_view rfl
  | ignored _ ht => cases ht; exact h.of_view rfl
  | command hm w i _ hf _ ht =>
    have hfault := step_fault_of_not_raised hx (by simp [hm]) hr
    exact .of_not_halted (hfault.trans (State.fault_of_not_halted hf))
      (exec_event (s := s.beginMove.popAccess) h.event ht)
  | illegal _ w e _ _ _ ht => cases ht; exact h.of_view rfl
  | boundary hm he ht =>
    have htrack : s.trackEn = true := by
      rw [State.boundaryEnabled, Bool.and_eq_true] at he
      exact he.1
    have hp : s.evtPending = false := by simpa [State.raised, hm, he] using hr
    have hfault := step_fault_of_not_raised hx (by simp [hm]) hr
    refine .of_not_halted (hfault.trans (h.fault_of_trackEn htrack)) fun _ => ?_
    simpa [ht, State.boundary, hp] using htrack
  | rst _ ht => cases ht; exact .of_not_halted rfl nofun

theorem step_controlInv {s t : State} (h : s.ControlInv) (hcur : s.CursorInv) (hx : step s = .next t) :
    t.ControlInv := by
  cases hr : s.raised with
  | none => exact step_controlInv_of_not_raised h hr hx
  | some f =>
    obtain ⟨u, hu, hfault, htrack, hevent⟩ := step_of_outcome_fault (outcome_of_raised hr)
    cases hu.symm.trans hx
    refine h.of_raised (step_cfg hx) hfault htrack hevent ?_ ?_
    · rintro rfl
      rcases State.raised_iff.mp hr with ⟨_, _, hf⟩ | ⟨_, _, _, hf⟩
      · exact hcur.stepFault_ne_cursorOverrun hf
      · cases hf
    · rintro rfl
      exact (outcome_eventOverrun_iff.mp (outcome_of_raised hr)).2.2.2

/-- Settles O48: each part of the invariant is kept, the control bits because the cursor's packet ends in its buffer. -/
theorem stepKeepsInvariant : Obligations.StepKeepsInvariant := by
  intro s t h hx
  obtain ⟨hcfg, hmem, hcur, hctl⟩ := State.inv_iff.mp h
  exact State.inv_iff.mpr ⟨by rw [step_cfg hx]; exact hcfg, stepKeepsCanonicalMemory s t hmem hx,
    step_cursorInv hcfg hcur hx, step_controlInv hctl hcur hx⟩

/-! Reset, and the states a run can reach. -/

theorem Config.platform_wf : Config.platform.wf = true := by
  unfold Config.platform
  split
  · assumption
  · decide

theorem State.resetWith_inv {cfg : Config} (act : BitCell) (k : Nat) (h : cfg.wf = true) :
    (State.resetWith cfg act k).Inv :=
  State.inv_iff.mpr ⟨h, State.resetWith_wfMemory cfg act k,
    State.Cleared.cursorInv ⟨rfl, rfl, rfl, rfl, rfl, rfl⟩ h, .of_not_halted rfl nofun⟩

/-- Settles O49: reset clears the buffers and FAULT, on the platform's parameters as on any others in range. -/
theorem resetMeetsInvariant : Obligations.ResetMeetsInvariant :=
  ⟨State.resetWith_inv (Config.freeCell 0) 1 Config.platform_wf, fun _ act k h => State.resetWith_inv act k h⟩

/-- The invariant does not speak of what stands outside the block. -/
theorem State.Inv.outside {s : State} (h : s.Inv) (host : List Access) (agenda : List Move) :
    State.Inv { s with host := host, agenda := agenda } := by
  obtain ⟨hcfg, hmem, hcur, hctl⟩ := State.inv_iff.mp h
  exact State.inv_iff.mpr ⟨hcfg, hmem, hcur.of_view rfl, hctl.of_view rfl⟩

theorem Reachable.inv {s : State} (h : Reachable s) : s.Inv := by
  induction h with
  | reset cfg act k hcfg => exact State.resetWith_inv act k hcfg
  | step _ hs ih => exact stepKeepsInvariant _ _ ih hs
  | outside _ host agenda ih => exact ih.outside host agenda

theorem State.Inv.specInvariants {s : State} (h : s.Inv) : s.SpecInvariants where
  inv1 := h.complete
  inv2 := h.active
  inv3 := h.cursor.lt
  inv4 b hb := by
    rcases Buf.slot_or_idle b with rfl | ⟨sl, rfl⟩
    · show s.idle.Reaches idleCap 0
      rw [h.idlePacket]
      exact idleImage_reaches h.cfgRange (by decide)
    · exact h.packets sl hb
  inv5 := h.event
  inv6 _ := h.playing

/-- A slot that is not free stands in a packet in play, so some slot is active (INV1, INV2). -/
theorem State.SpecInvariants.exists_active {s : State} {sl : Slot} (h : s.SpecInvariants) (hsl : s.isFree sl = false) :
    ∃ x : Slot, s.curBuf = x.buf ∧ s.isActive x = true := by
  have hc : s.pktComplete = false := by
    by_contra hc
    simp [State.isFree_of_both (h.inv1 (by simpa using hc)) sl] at hsl
  obtain ⟨x, hcur, hx⟩ := h.inv2 hc
  exact ⟨x, hcur, State.isActive_iff.mpr ⟨hx, hcur, hc⟩⟩

theorem Slot.eq_other_of_ne {x sl : Slot} (h : x ≠ sl) : x = sl.other := by
  cases x <;> cases sl <;> simp_all [Slot.other]

theorem State.SpecInvariants.other_active {s : State} {sl : Slot} (h : s.SpecInvariants)
    (hq : s.isQueued sl = true) : s.isActive sl.other = true := by
  obtain ⟨hfree, hna⟩ := State.isQueued_iff.mp hq
  obtain ⟨x, _, hx⟩ := h.exists_active hfree
  have hne : x ≠ sl := by
    rintro rfl
    simp [hna] at hx
  exact Slot.eq_other_of_ne hne ▸ hx

theorem State.SpecInvariants.no_queued_in_idle {s : State} (h : s.SpecInvariants) (hb : s.curBuf = .idle)
    (sl : Slot) : s.isQueued sl = false := by
  by_contra hq
  have hfree := (State.isQueued_iff.mp (by simpa using hq)).1
  obtain ⟨x, hcur, _⟩ := h.exists_active hfree
  exact Slot.buf_ne_idle x (hcur.symm.trans hb)

/-- Settles O50: a reachable state meets the invariant, which implies INV1 to INV6. -/
theorem reachableStatesMeetSpecInvariants : Obligations.ReachableStatesMeetSpecInvariants := by
  intro s h
  have hspec := h.inv.specInvariants
  exact ⟨hspec, fun _ => hspec.other_active, hspec.no_queued_in_idle⟩

end Sys2Proof.Machine

/-! The command words and their bytes (R61, R80 to R85): the byte view of a word gives the word back, and a command's
word decodes to the command. -/

namespace Sys2Proof

/-- Each bit of a word is the bit of the one byte that holds it (R61). -/
theorem wordOfBytes_bytesOfWord (w : Word) :
    wordOfBytes (w.extractLsb' 0 8) (w.extractLsb' 8 8) (w.extractLsb' 16 8) (w.extractLsb' 24 8) = w := by
  refine BitVec.eq_of_getLsbD_eq fun i hi => ?_
  simp only [wordOfBytes, BitVec.getLsbD_or, Machine.place_getLsbD, BitVec.getLsbD_extractLsb']
  obtain hb | hb | hb | hb : i < 8 ∨ (8 ≤ i ∧ i < 16) ∨ (16 ≤ i ∧ i < 24) ∨ 24 ≤ i := by omega
  all_goals grind

/-- Four bytes are read as the word they lay out, and what follows them is left over (R61, R80). -/
theorem decodeBytes_bytesOfWord (w : Word) (rest : List Byte) :
    decodeBytes (bytesOfWord w ++ rest) = (decodeWord w).map fun i => (i, rest) := by
  simp only [bytesOfWord, List.cons_append, List.nil_append, decodeBytes, wordOfBytes_bytesOfWord]
  cases decodeWord w <;> rfl

/-- The word of `LOAD_PATTERN n` as a number: `N` at bit 4, opcode 2 below it (R89). -/
theorem place_count_or_opcode {n : Nat} (h : n < 128) :
    (place (BitVec.ofNat 7 n) 4 ||| 0x2 : Word) = BitVec.ofNat 32 (16 * n + 2) := by
  have hor : n <<< 4 ||| 2 = 16 * n + 2 := by
    rw [← Nat.shiftLeft_add_eq_or_of_lt (by decide), Nat.shiftLeft_eq, Nat.mul_comm]
  have hplace : (place (BitVec.ofNat 7 n) 4).toNat = n <<< 4 := by
    simp [place, Nat.mod_eq_of_lt h, Nat.shiftLeft_eq]
    omega
  refine BitVec.eq_of_toNat_eq ?_
  rw [BitVec.toNat_or, hplace, BitVec.toNat_ofNat, Nat.mod_eq_of_lt (by omega)]
  exact hor

/-- `OP`, the reserved bits and `N` of that word are read off the number (R81, R84). -/
theorem decodeWord_loadPattern {n : Nat} (h : n < 128) :
    decodeWord (BitVec.ofNat 32 (16 * n + 2)) = .ok (.loadPattern n) := by
  have hn : (BitVec.ofNat 32 (16 * n + 2)).toNat = 16 * n + 2 := by
    rw [BitVec.toNat_ofNat]
    exact Nat.mod_eq_of_lt (by omega)
  have hop : opField (BitVec.ofNat 32 (16 * n + 2)) = 0x2 := by
    refine BitVec.eq_of_toNat_eq ?_
    rw [opField, BitVec.extractLsb'_toNat, hn, Nat.shiftRight_zero]
    show (16 * n + 2) % 16 = 2
    omega
  have hres : (BitVec.ofNat 32 (16 * n + 2)).extractLsb' 11 21 = 0 := by
    refine BitVec.eq_of_toNat_eq ?_
    rw [BitVec.extractLsb'_toNat, hn, Nat.shiftRight_eq_div_pow, Nat.div_eq_of_lt (by omega)]
    rfl
  have hcount : countField (BitVec.ofNat 32 (16 * n + 2)) = n := by
    rw [countField, BitVec.extractLsb'_toNat, hn, Nat.shiftRight_eq_div_pow]
    omega
  simp [decodeWord, hop, hres, hcount]

theorem encode_of_wfCommand {i : Instr} (h : i.wfCommand = true) : ∃ w, encode i = some w := by
  cases i with
  | loadPattern n => exact ⟨_, if_pos (by simpa [Instr.wfCommand, Instr.operandFits, Instr.hasWord] using h)⟩
  | schedStep => simp [Instr.wfCommand, Instr.hasWord] at h
  | _ => exact ⟨_, rfl⟩

theorem decodeWord_of_encode {i : Instr} {w : Word} (h : encode i = some w) : decodeWord w = .ok i := by
  cases i with
  | configure pol => cases h; cases pol <;> decide
  | loadPattern n =>
    simp only [encode] at h
    split_ifs at h with hn
    cases h
    rw [place_count_or_opcode hn, decodeWord_loadPattern hn]
  | enableTrack => cases h; decide
  | disableTrack => cases h; decide
  | schedStep => cases h

/-- Settles O2: a well-formed command has a word, its word decodes to it, and so do the word's bytes. -/
theorem decodeOfEncodeAgrees : Obligations.DecodeOfEncodeAgrees := by
  intro i rest hwf
  obtain ⟨w, hw⟩ := encode_of_wfCommand hwf
  have hd := decodeWord_of_encode hw
  exact ⟨w, hw, hd, by rw [decodeBytes_bytesOfWord, hd]; rfl⟩

/-- A table row's 32 bits that give a command are the word that decodes to it. -/
theorem decodeWord_of_decodeTableWord {w : Nat} {i : Instr} (h : decodeTableWord 32 w = some i) :
    decodeWord (BitVec.ofNat 32 (w % 2 ^ 32)) = .ok i := by
  rw [decodeTableWord, if_pos (le_refl 32), ← List.append_nil (bytesOfWord _), decodeBytes_bytesOfWord] at h
  cases hd : decodeWord (BitVec.ofNat 32 (w % 2 ^ 32)) with
  | ok j =>
    rw [hd] at h
    cases h
    rfl
  | error e =>
    rw [hd] at h
    cases h

end Sys2Proof

/-! A command write (R53, R100, R206): presented, held, or void on a halted block. -/

namespace Sys2Proof.Machine

theorem access_command (w : Word) (s : State) : access (.write 0x000 .word w) s = cmdWrite w s := rfl

theorem cmdWrite_of_decodeWord {w : Word} {i : Instr} {s : State} (hf : s.fault = 0) (hd : decodeWord w = .ok i) :
    cmdWrite w s = exec i s := by
  simp [cmdWrite, State.halted, hf, hd]

/-- A host step with a command write next: the write waits while an event is pending, and else is made. -/
theorem step_command {s : State} {w : Word} {rest : List Access} (hm : s.nextMove = .host)
    (hs : s.host = .write 0x000 .word w :: rest) :
    step s = if s.evtPending then .next s.beginMove else cmdWrite w s.beginMove.popAccess := by
  rw [step, hm]
  simp only [runMove, hostMove, State.beginMove_host, hs, State.holds_command, access_command,
    State.beginMove_evtPending]

/-- Settles O7: the access taken off the list is a command write, which nothing holds or voids. -/
theorem stepRunsTheDecodedCommand : Obligations.StepRunsTheDecodedCommand := by
  intro s w rest i h hd
  have hpop : s.beginMove.popAccess = { s with agenda := s.agenda.tail, tmrWr := false, host := rest } := by
    simp [State.beginMove, State.popAccess, h.next]
  rw [step_command h.turn h.next, if_neg (by simp [h.notHeld]), hpop]
  exact cmdWrite_of_decodeWord h.notHalted hd

theorem State.withFetchWord_presents (s : State) (w : Nat) :
    (s.withFetchWord 32 w).Presents (BitVec.ofNat 32 (w % 2 ^ 32)) s.host :=
  ⟨rfl, rfl, rfl, rfl⟩

/-- Settles O9: the placed word is presented, so its command runs, on the state without the access and the move. -/
theorem placedWordRunsNext : Obligations.PlacedWordRunsNext := fun s w i _ hd =>
  stepRunsTheDecodedCommand _ _ _ i (s.withFetchWord_presents w) (decodeWord_of_decodeTableWord hd)

theorem schedStep_next_evtPending (s : State) : ∃ t, exec .schedStep s = .next t ∧ t.evtPending = false := by
  obtain ⟨t, h⟩ := exec_next .schedStep s
  refine ⟨t, h, ?_⟩
  rcases exec_schedStep_next h with ⟨f, _, rfl⟩ | ⟨_, rfl⟩ <;> rfl

/-- CMD is at offset 0, so no write from offset 0x100 on is a command write (R52). -/
theorem Access.isCommand_of_stage {off : BitVec 12} (v : Word) (h : 0x100 ≤ off.toNat) :
    (Access.write off .word v).isCommand = false := by
  refine decide_eq_false fun hc => ?_
  obtain ⟨rfl, _⟩ := busDecode_cmd hc
  exact absurd h (by decide)

/-- Settles O10: only a command write is ever held, its step then uses up the turn, and SCHED_STEP ends the event. -/
theorem commandWriteHeldWhileEventPending : Obligations.CommandWriteHeldWhileEventPending := by
  refine ⟨fun s w rest hm hs he => ⟨?_, ?_⟩, fun s off size rest hs => ?_, fun s off v rest hoff hs => ?_,
    schedStep_next_evtPending⟩
  · rw [State.busWait, hs]
    exact (s.holds_command w).trans he
  · rw [step_command hm hs, if_pos he]
    rfl
  · simp [State.busWait, hs, State.holds, Access.isCommand]
  · simp [State.busWait, hs, State.holds, Access.isCommand_of_stage v hoff]

/-- Settles O11: a write to CMD is a command write, and a halted block ignores it. -/
theorem haltedBlockIgnoresCommands : Obligations.HaltedBlockIgnoresCommands := by
  intro s w hf
  have h : cmdWrite w s = .next s := cmdWrite_of_halted (by simpa [State.halted] using hf)
  exact ⟨h, h⟩

/-! The register window (R52 to R60): which offsets are mapped, and what an access of a mapped one does. -/

theorem busDecode_of_size_ne {off : BitVec 12} {size : AccessSize} (h : size ≠ .word) :
    busDecode off size = .error .subWordAccess := if_pos h

theorem busDecode_of_misaligned {off : BitVec 12} (h : off.toNat % 4 ≠ 0) :
    busDecode off .word = .error .misalignedAccess := by
  simp [busDecode, h]

/-- An aligned word access reaches what the map has at its offset, if anything (R59). -/
theorem busDecode_of_aligned {off : BitVec 12} (h : off.toNat % 4 = 0) :
    busDecode off .word = (regAt off.toNat).elim (.error .unmappedAccess) .ok := by
  unfold busDecode
  rw [if_neg (by simp), if_neg (by simp [h])]
  cases regAt off.toNat <;> rfl

theorem regAt_none {off : Nat} (h : (0x020 ≤ off ∧ off ≤ 0x0FF) ∨ 0x600 ≤ off) : regAt off = none := by
  unfold regAt
  rw [if_neg (by omega), if_neg (by omega)]

theorem regAt_some {off : Nat} (h : off ≤ 0x01F ∨ (0x100 ≤ off ∧ off ≤ 0x5FF)) : ∃ r, regAt off = some r := by
  unfold regAt
  split_ifs with hlow hstage
  · split <;> exact ⟨_, rfl⟩
  · exact ⟨_, rfl⟩
  · omega

theorem access_refused {off : BitVec 12} {size : AccessSize} {r : Refusal} (s : State) (v : Word)
    (h : busDecode off size = .error r) :
    access (.read off size) s = .refused r ∧ access (.write off size v) s = .refused r :=
  ⟨access_of_target_error s h, access_of_target_error s h⟩

/-- Settles O15: each name is the bus decoder's answer to the offset and size, whatever the access. -/
theorem refusedAccessesByName : Obligations.RefusedAccessesByName := by
  intro off size v s
  refine ⟨fun hsize => access_refused s v (busDecode_of_size_ne hsize),
    fun hmis => access_refused s v (busDecode_of_misaligned hmis), fun hal hun => access_refused s v ?_,
    fun hal hmap => ?_⟩
  · rw [busDecode_of_aligned hal, regAt_none hun]
    rfl
  · obtain ⟨r, hr⟩ := regAt_some hmap
    have hok : busDecode off .word = .ok r := by
      rw [busDecode_of_aligned hal, hr]
      rfl
    exact access_next_of_target_ok s (a := .read off .word) hok

theorem access_read {off : BitVec 12} {size : AccessSize} {r : Reg} (s : State) (h : busDecode off size = .ok r) :
    access (.read off size) s = .next (s.returnData (s.readReg r)) := by
  simp [access, h]

theorem access_write {off : BitVec 12} {size : AccessSize} {r : Reg} (s : State) (v : Word)
    (h : busDecode off size = .ok r) : access (.write off size v) s = writeReg r v s := by
  simp [access, h]

/-- The words from STATUS to TMR_REPEAT are read-only (R60). -/
theorem access_write_readOnly {k : Nat} (s : State) (v : Word) (h1 : 1 ≤ k) (h7 : k ≤ 7) :
    access (.write (BitVec.ofNat 12 (4 * k)) .word v) s = .next s := by
  interval_cases k <;> rfl

/-- Settles O16: the map has each register at its offset, and a read returns it. -/
theorem registersReadAsMapped : Obligations.RegistersReadAsMapped := fun s =>
  ⟨access_read (r := .cmd) s rfl, access_read (r := .result) s rfl, access_read (r := .fault) s rfl,
    access_read (r := .scope) s rfl, access_read (r := .tmrPeriod) s rfl, access_read (r := .tmrPulse) s rfl,
    access_read (r := .tmrRepeat) s rfl, fun _ v h1 h7 => access_write_readOnly s v h1 h7⟩

/-- Settles O19: a read that completes returns the data of the register it reaches. -/
theorem readsHaveNoSideEffect : Obligations.ReadsHaveNoSideEffect := by
  intro s t off size h
  cases hd : busDecode off size with
  | ok r => cases (access_read s hd).symm.trans h; rfl
  | error e => cases (access_of_target_error (a := .read off size) s hd).symm.trans h

/-! STATUS (R54): a field of the word is what was placed there. -/

theorem place_extractLsb'_same {n : Nat} (v : BitVec n) {lsb : Nat} (h : lsb + n ≤ 32) :
    (place v lsb).extractLsb' lsb n = v := by
  refine BitVec.eq_of_getLsbD_eq fun i hi => ?_
  rw [BitVec.getLsbD_extractLsb', place_getLsbD]
  simp [hi, show lsb + i < 32 by omega]

/-- A field elsewhere in the word leaves these bits 0. -/
theorem place_extractLsb'_disjoint {n lsb start len : Nat} (v : BitVec n) (h : lsb + n ≤ start ∨ start + len ≤ lsb) :
    (place v lsb).extractLsb' start len = 0 := by
  refine BitVec.eq_of_getLsbD_eq fun i hi => ?_
  rw [BitVec.getLsbD_extractLsb', place_getLsbD]
  rcases h with h | h
  · simp [BitVec.getLsbD_of_ge v (start + i - lsb) (by omega)]
  · simp [show ¬ lsb ≤ start + i by omega]

theorem State.statusWord_curBuf (s : State) : s.statusWord.extractLsb' 8 2 = s.curBuf.code := by
  simp [State.statusWord, BitVec.extractLsb'_or, place_extractLsb'_disjoint, place_extractLsb'_same]

theorem State.statusWord_curIdx (s : State) : s.statusWord.extractLsb' 16 7 = s.curIdx := by
  simp [State.statusWord, BitVec.extractLsb'_or, place_extractLsb'_disjoint, place_extractLsb'_same]

theorem State.statusWord_zeros (s : State) :
    s.statusWord.extractLsb' 10 6 = 0 ∧ s.statusWord.extractLsb' 23 8 = 0 := by
  simp [State.statusWord, BitVec.extractLsb'_or, place_extractLsb'_disjoint]

theorem State.statusWord_flags (s : State) :
    s.statusWord.getLsbD 0 = s.pktComplete ∧ s.statusWord.getLsbD 2 = s.trackEn ∧
      s.statusWord.getLsbD 3 = s.isFree .a ∧ s.statusWord.getLsbD 4 = s.isFree .b ∧
      s.statusWord.getLsbD 5 = (policyBit s.idlePolicy).getLsbD 0 ∧ s.statusWord.getLsbD 6 = s.dbgOut ∧
      s.statusWord.getLsbD 7 = s.evtPending ∧ s.statusWord.getLsbD 31 = s.halted := by
  simp only [State.statusWord, BitVec.getLsbD_or, place_getLsbD]
  simp

theorem policyBit_getLsbD_iff {pol : IdlePolicy} : (policyBit pol).getLsbD 0 = true ↔ pol = .loop := by
  cases pol <;> decide

/-- Settles O17: the read returns STATUS, whose fields are one lemma each. -/
theorem statusFieldsAsLaidOut : Obligations.StatusFieldsAsLaidOut := by
  intro s
  obtain ⟨hcomplete, htrack, ha, hb, hpol, hdbg, hevt, hfault⟩ := s.statusWord_flags
  obtain ⟨hlow, hhigh⟩ := s.statusWord_zeros
  refine ⟨s.statusWord, access_read (r := .status) s rfl, hcomplete, s.statusWord_bufAvail, htrack, ha, hb,
    by rw [hpol, policyBit_getLsbD_iff], hdbg, hevt, ?_, hlow, s.statusWord_curIdx, hhigh, ?_,
    fun v => access_write_readOnly s v (k := 1) (by decide) (by decide)⟩
  · rw [s.statusWord_curBuf]
    cases s.curBuf <;> rfl
  · rw [hfault]
    simp [State.halted]

/-! STAGE (R55): its words, and what a read returns after a write. -/

/-- The field of a cell at word `f` of its 16 bytes. -/
def CellField.ofIndex : Nat → CellField
  | 0 => .period
  | 1 => .pulse
  | _ => .rep

theorem CellField.ofIndex_inj {f g : Nat} (hf : f < 3) (hg : g < 3) (h : CellField.ofIndex f = CellField.ofIndex g) :
    f = g := by
  have inj : ∀ f g : Fin 3, CellField.ofIndex f = CellField.ofIndex g → f = g := by decide
  exact congrArg Fin.val (inj ⟨f, hf⟩ ⟨g, hg⟩ h)

theorem stageReg_word {i f : Nat} (hf : f < 3) : stageReg (16 * i + 4 * f) = .stage i (CellField.ofIndex f) := by
  unfold stageReg
  rw [show (16 * i + 4 * f) % 16 / 4 = f by omega, show (16 * i + 4 * f) / 16 = i by omega]
  interval_cases f <;> rfl

theorem stageReg_reserved (i : Nat) : stageReg (16 * i + 4 * 3) = .stageReserved i := by
  unfold stageReg
  rw [show (16 * i + 4 * 3) % 16 / 4 = 3 by omega, show (16 * i + 4 * 3) / 16 = i by omega]
  rfl

theorem busDecode_stageReg {i f : Nat} (hi : i < 80) (hf : f < 4) :
    busDecode (BitVec.ofNat 12 (0x100 + 16 * i + 4 * f)) .word = .ok (stageReg (16 * i + 4 * f)) := by
  rw [Nat.add_right_comm]
  exact busDecode_stage hi (by omega) (by omega)

theorem busDecode_stageWord {i f : Nat} (hi : i < 80) (hf : f < 3) :
    busDecode (BitVec.ofNat 12 (0x100 + 16 * i + 4 * f)) .word = .ok (.stage i (CellField.ofIndex f)) := by
  rw [busDecode_stageReg hi (by omega), stageReg_word hf]

theorem busDecode_stageReserved {i : Nat} (hi : i < 80) :
    busDecode (BitVec.ofNat 12 (0x100 + 16 * i + 4 * 3)) .word = .ok (.stageReserved i) := by
  rw [busDecode_stageReg hi (by decide), stageReg_reserved]

@[simp] theorem BitCell.get_set_same (c : BitCell) (v : Word) (f : CellField) :
    BitCell.get (BitCell.set c v f) f = v := by
  cases f <;> rfl

theorem BitCell.get_set_of_ne {f g : CellField} (c : BitCell) (v : Word) (h : g ≠ f) :
    BitCell.get (BitCell.set c v f) g = BitCell.get c g := by
  cases f <;> cases g <;> simp_all [BitCell.get, BitCell.set]

theorem State.readReg_writeStage_same (s : State) (i : Nat) (f : CellField) (v : Word) :
    (s.writeStage i f v).readReg (.stage i f) = v := by
  simp [State.readReg]

theorem State.readReg_writeStage_of_ne {i j : Nat} {f g : CellField} (s : State) (v : Word) (h : j ≠ i ∨ g ≠ f) :
    (s.writeStage i f v).readReg (.stage j g) = s.readReg (.stage j g) := by
  by_cases hj : j = i
  · subst hj
    simp [State.readReg, BitCell.get_set_of_ne _ v (h.resolve_left (not_not_intro rfl))]
  · simp [State.readReg, hj]

/-- Settles O18: the words of STAGE are the fields of its cells, and a write of one field leaves the others. -/
theorem stageWordsReadBack : Obligations.StageWordsReadBack := by
  intro s i f v hi _
  refine ⟨fun hf => ?_, fun hf => ?_⟩
  · refine ⟨s.writeStage i (.ofIndex f) v, access_write s v (busDecode_stageWord hi hf), rfl, ?_,
      fun j g hj hg hne => ⟨s.readReg (.stage j (.ofIndex g)), access_read s (busDecode_stageWord hj hg), ?_⟩⟩
    · rw [access_read _ (busDecode_stageWord hi hf), State.readReg_writeStage_same]
      rfl
    · have hne : j ≠ i ∨ CellField.ofIndex g ≠ .ofIndex f := hne.imp_right (mt (CellField.ofIndex_inj hg hf))
      rw [access_read _ (busDecode_stageWord hj hg), State.readReg_writeStage_of_ne s v hne]
      rfl
  · subst hf
    exact ⟨access_write s v (busDecode_stageReserved hi), access_read s (busDecode_stageReserved hi)⟩

/-! The frame of SCHED_STEP (R51, R130). -/

/-- No outcome of a boundary enables the track (R138, R140). -/
theorem State.packetBoundary_trackEn_of_off {s : State} (h : s.trackEn = false) : s.packetBoundary.trackEn = false := by
  unfold State.packetBoundary
  split
  · rcases State.selectNext_cases s.markFree with ⟨_, he⟩ | ⟨_, _, he⟩ | ⟨_, _, he⟩ <;> rw [he]
    · simpa using h
    · simpa using h
    · unfold State.noQueued
      split
      · simpa using h
      · rfl
  · exact h

theorem State.playCell_trackEn_of_off {s : State} (h : s.trackEn = false) : s.playCell.trackEn = false :=
  State.packetBoundary_trackEn_of_off (s := (s.timerWrite s.cursorCell).scopeTick.advance) h

/-- The elements a played cell may write; all others stay. -/
theorem State.playCell_frame (s : State) : s.playCell = { s with
    slotA := s.playCell.slotA, slotB := s.playCell.slotB, curBuf := s.playCell.curBuf, curIdx := s.playCell.curIdx,
    scopeCnt := s.playCell.scopeCnt, pktComplete := s.playCell.pktComplete, trackEn := s.playCell.trackEn,
    dbgOut := s.playCell.dbgOut, evtPending := false, tmrP := s.playCell.tmrP, tmrQ := s.playCell.tmrQ,
    tmrR := s.playCell.tmrR, tmrWr := s.playCell.tmrWr } := by
  simp [State.playCell, State.ackEvent]

/-- Settles O35: a fault writes FAULT, TRACK_EN and EVT_PENDING only, and a played cell keeps to its frame. -/
theorem schedStepFrame : Obligations.SchedStepFrame := by
  intro s t h
  rcases exec_schedStep_next h with ⟨f, _, rfl⟩ | ⟨_, rfl⟩
  · exact ⟨rfl, fun _ _ _ => rfl, fun _ => rfl⟩
  · refine ⟨?_, fun b i hne => ?_, State.playCell_trackEn_of_off⟩
    · rw [State.playCell_fault]
      exact s.playCell_frame
    · rcases s.playCell_cell b i with hcell | ⟨hb, hidle, hi, _⟩
      · exact hcell
      · exact absurd ⟨hb, hidle, hi⟩ hne

theorem execSchedStep_of_stepFault {s : State} {f : Fault} (h : s.stepFault = some f) :
    execSchedStep s = .next (s.raiseFault f) := by
  simp [execSchedStep, h]

/-- Settles O34: an index outside the buffer is the first case of CURSOR_OVERRUN. -/
theorem schedStepOutsideBufferFaults : Obligations.SchedStepOutsideBufferFaults := fun _ hout =>
  execSchedStep_of_stepFault (State.stepFault_cursorOverrun_iff.mpr (.inl hout))

/-! QUEUE (R90). -/

theorem stageAccesses_target {i j : Nat} {c : BitCell} {accs : List Access} {a : Access}
    (h : stageAccesses i c = some accs) (ha : accs[j]? = some a) :
    (i < 80 → ∃ r, a.target = .ok r) ∧ (80 ≤ i → a.target = .error .unmappedAccess) := by
  have hmem : a ∈ accs := List.mem_of_getElem? ha
  refine ⟨fun hi => ?_, fun hi => stageAccesses_unmapped hi h a hmem⟩
  have ht := List.mem_map_of_mem (f := Access.target) hmem
  rw [stageAccesses_targets hi h] at ht
  simp only [List.mem_cons, List.not_mem_nil, or_false] at ht
  rcases ht with ht | ht | ht <;> exact ⟨_, ht⟩

/-- The three accesses of cell `i` stand together in those of its pattern, whatever the host sends after them. -/
theorem stagePattern_getElem?_append {i j : Nat} {cells : List BitCell} {ws : List Access} {c : BitCell}
    (accs : List Access) (h : stagePattern 0 cells = some ws) (hl : ws.length = 3 * cells.length)
    (hc : cells[i]? = some c) (hi : i < 240) (hj : j < 3) :
    (ws ++ accs)[3 * i + j]? = [.write (BitVec.ofNat 12 (0x100 + 16 * i)) .word c.period,
      .write (BitVec.ofNat 12 (0x104 + 16 * i)) .word c.pulse,
      Access.write (BitVec.ofNat 12 (0x108 + 16 * i)) .word c.rep][j]? := by
  have hin : i < cells.length := (List.getElem?_eq_some_iff.mp hc).1
  obtain ⟨cs, hcs, hget⟩ := stagePattern_get h hc hj
  rw [Nat.zero_add, stageAccesses_some c hi] at hcs
  cases hcs
  rw [List.getElem?_append_left (by omega), hget]

/-- Settles O60: the accesses of cell `i` stand at the places `3 * i` to `3 * i + 2`, and the command word after all. -/
theorem queueExpandsByLength : Obligations.QueueExpandsByLength := by
  intro cells
  refine ⟨rfl, fun hlen => ?_, fun hlen => queue_none hlen⟩
  have hlen : cells.length < 128 := Nat.lt_succ_of_le hlen
  obtain ⟨ws, hws, hwl, hq⟩ := queue_some hlen
  refine ⟨_, hq, by simp [hwl], ?_, fun i c hc => ?_⟩
  · rw [← hwl, List.getElem?_concat_length, place_count_or_opcode hlen]
  have hi : i < 240 := by
    have := (List.getElem?_eq_some_iff.mp hc).1
    omega
  have hget := fun j (hj : j < 3) => stagePattern_getElem?_append
    [.write 0x000 .word (place (BitVec.ofNat 7 cells.length) 4 ||| 0x2)] hws hwl hc hi hj
  refine ⟨⟨hget 0 (by decide), hget 1 (by decide), hget 2 (by decide)⟩, fun a j ha hj => ?_⟩
  exact stageAccesses_target (stageAccesses_some c hi) ((hget j hj).symm.trans ha)

end Sys2Proof.Machine

/-! Decoding as the converse of encoding (R83 to R86): a word that decodes is the one word of its command. -/

namespace Sys2Proof

open Machine

/-- A word whose bits above the operand field are 0 is laid out from its operand and its opcode (R81). -/
theorem word_of_reserved_zero {w : Word} {n : Nat} (h : w.extractLsb' (4 + n) (28 - n) = 0) :
    w = place (w.extractLsb' 4 n) 4 ||| place (opField w) 0 := by
  have hres : ∀ i, 4 + n ≤ i → i < 32 → w.getLsbD i = false := fun i hlo hi => by
    have hbit := congrArg (·.getLsbD (i - (4 + n))) h
    simpa [show i - (4 + n) < 28 - n by omega, show 4 + n + (i - (4 + n)) = i by omega] using hbit
  refine BitVec.eq_of_getLsbD_eq fun i hi => ?_
  simp only [opField, BitVec.getLsbD_or, place_getLsbD, BitVec.getLsbD_extractLsb']
  obtain hb | hb | hb : i < 4 ∨ (4 ≤ i ∧ i < 4 + n) ∨ 4 + n ≤ i := by omega
  · simp [hb, hi, show ¬ 4 ≤ i by omega]
  · simp [hi, hb.1, show i - 4 < n by omega, show ¬ i < 4 by omega, show 4 + (i - 4) = i by omega]
  · simp [hres i hb hi, show ¬ i - 4 < n by omega, show ¬ i < 4 by omega]

/-- A word without an operand field is its opcode alone (format F0, R81). -/
theorem word_of_opcode_only {w : Word} (h : w.extractLsb' 4 28 = 0) : w = place (opField w) 0 := by
  have hw := word_of_reserved_zero (n := 0) h
  rwa [BitVec.eq_nil (w.extractLsb' 4 0), show place BitVec.nil 4 = 0#32 from rfl, BitVec.zero_or] at hw

/-- A masked word that gives the match is the match and, where the mask is 0, the word's own field. -/
theorem word_of_mask_match {w mask mat : Word} {n lsb : Nat} (hmask : ~~~mask = place (BitVec.allOnes n) lsb)
    (h : w &&& mask = mat) : w = place (w.extractLsb' lsb n) lsb ||| mat := by
  have hfield : w &&& ~~~mask = place (w.extractLsb' lsb n) lsb := by
    rw [hmask]
    refine BitVec.eq_of_getLsbD_eq fun i hi => ?_
    simp only [BitVec.getLsbD_and, place_getLsbD, BitVec.getLsbD_allOnes, BitVec.getLsbD_extractLsb']
    by_cases hlo : lsb ≤ i
    · simp [hi, hlo, Nat.add_sub_cancel' hlo, Bool.and_comm]
    · simp [hlo]
  calc w = w &&& (~~~mask ||| mask) := by rw [BitVec.not_or_self, BitVec.and_allOnes]
    _ = place (w.extractLsb' lsb n) lsb ||| mat := by rw [BitVec.and_or_distrib_left, hfield, h]

theorem policyBit_policyOfBit_polField (w : Word) : policyBit (policyOfBit (polField w)) = w.extractLsb' 4 1 := by
  refine BitVec.eq_of_getLsbD_eq fun i hi => ?_
  obtain rfl : i = 0 := by omega
  cases h : polField w <;> simp_all [polField, policyOfBit, policyBit]

theorem encode_configure_of_field {w : Word} (h : w = place (w.extractLsb' 4 1) 4 ||| 0x1) :
    encode (.configure (policyOfBit (polField w))) = some w := by
  rw [encode, policyBit_policyOfBit_polField, ← h]

theorem encode_loadPattern_of_field {w : Word} (h : w = place (w.extractLsb' 4 7) 4 ||| 0x2) :
    encode (.loadPattern (countField w)) = some w := by
  have hlt : countField w < 128 := (w.extractLsb' 4 7).isLt
  rw [encode, if_pos hlt, countField, BitVec.ofNat_toNat, BitVec.setWidth_eq, ← h]

theorem encode_of_decodeWord {w : Word} {i : Instr} (h : decodeWord w = .ok i) : encode i = some w := by
  unfold decodeWord at h
  split_ifs at h with h1 hres h2 hres h3 hres h4 hres
  · cases h
    have hw := word_of_reserved_zero (n := 1) hres
    rw [h1] at hw
    exact encode_configure_of_field hw
  · cases h
    have hw := word_of_reserved_zero (n := 7) hres
    rw [h2] at hw
    exact encode_loadPattern_of_field hw
  · cases h
    have hw := word_of_opcode_only hres
    rw [h3] at hw
    exact congrArg some hw.symm
  · cases h
    have hw := word_of_opcode_only hres
    rw [h4] at hw
    exact congrArg some hw.symm

theorem wfCommand_of_encode {i : Instr} {w : Word} (h : encode i = some w) : i.wfCommand = true := by
  cases i with
  | loadPattern n =>
    simp only [encode] at h
    split_ifs at h with hn
    simp [Instr.wfCommand, Instr.operandFits, Instr.hasWord, hn]
  | schedStep => cases h
  | _ => rfl

/-- Settles O3: the word is laid out from the operand that was read from it, and only a well-formed command has a word. -/
theorem encodeOfDecodeAgrees : Obligations.EncodeOfDecodeAgrees := fun _ _ h =>
  ⟨wfCommand_of_encode (encode_of_decodeWord h), encode_of_decodeWord h⟩

/-- A word that decodes to an instruction matches the instruction's row (R83). -/
theorem mask_match_of_decodeWord {w : Word} {i : Instr} {r : Word × Word} (h : decodeWord w = .ok i)
    (hr : tableRow i = some r) : w &&& r.2 = r.1 := by
  have hrow : Laws.TableRow.Statement i := by
    cases i with
    | configure pol => exact Laws.TableRow.configure pol
    | loadPattern n => exact Laws.TableRow.loadPattern n
    | enableTrack => exact Laws.TableRow.enableTrack
    | disableTrack => exact Laws.TableRow.disableTrack
    | schedStep => exact Laws.TableRow.schedStep
  obtain ⟨r', hr', hmatch⟩ := hrow w (encode_of_decodeWord h)
  cases hr.symm.trans hr'
  exact hmatch

/-- Settles O4: a decoded word matches its row by its encoding, and a word that matches is one the encoder gives. -/
theorem commandSelectedByMaskAndMatch : Obligations.CommandSelectedByMaskAndMatch := by
  intro w
  have hfull : ∀ {v : Word}, w &&& 0xFFFFFFFF = v → v = w := fun h => h.symm.trans BitVec.and_allOnes
  refine ⟨⟨?_, fun h => ⟨policyOfBit (polField w), ?_⟩⟩, ⟨?_, fun h => ⟨countField w, ?_⟩⟩,
    ⟨fun h => mask_match_of_decodeWord h rfl, fun h => ?_⟩, ⟨fun h => mask_match_of_decodeWord h rfl, fun h => ?_⟩,
    decodeWord_ne_schedStep w⟩
  · rintro ⟨pol, h⟩
    exact mask_match_of_decodeWord h rfl
  · exact decodeWord_of_encode (encode_configure_of_field (word_of_mask_match (by decide) h))
  · rintro ⟨n, h⟩
    exact mask_match_of_decodeWord h rfl
  · exact decodeWord_of_encode (encode_loadPattern_of_field (word_of_mask_match (by decide) h))
  · exact decodeWord_of_encode (congrArg some (hfull h))
  · exact decodeWord_of_encode (congrArg some (hfull h))

/-- The words of the commands as numbers: the operand at bit 4, the opcode below it (R81, R84). -/
theorem toNat_of_decodeWord {w : Word} {i : Instr} (h : decodeWord w = .ok i) :
    (∃ pol, i = .configure pol ∧ w.toNat = 16 * (policyBit pol).toNat + 1) ∨
      (∃ n, i = .loadPattern n ∧ n < 128 ∧ w.toNat = 16 * n + 2) ∨
      (i = .enableTrack ∧ w.toNat = 3) ∨ (i = .disableTrack ∧ w.toNat = 4) := by
  have hw := encode_of_decodeWord h
  cases i with
  | configure pol =>
    cases hw
    exact .inl ⟨pol, rfl, by cases pol <;> decide⟩
  | loadPattern n =>
    simp only [encode] at hw
    split_ifs at hw with hn
    cases hw
    refine .inr (.inl ⟨n, rfl, hn, ?_⟩)
    rw [place_count_or_opcode hn, BitVec.toNat_ofNat]
    exact Nat.mod_eq_of_lt (by omega)
  | enableTrack => cases hw; exact .inr (.inr (.inl ⟨rfl, rfl⟩))
  | disableTrack => cases hw; exact .inr (.inr (.inr ⟨rfl, rfl⟩))
  | schedStep => cases hw

/-- Settles O5: the operand is read off the number of the command's word. -/
theorem operandFieldsAssembled : Obligations.OperandFieldsAssembled := by
  refine fun w => ⟨fun n h => ?_, fun pol h => ?_⟩
  · rcases toNat_of_decodeWord h with ⟨_, hi, _⟩ | ⟨_, hi, hn, hw⟩ | ⟨hi, _⟩ | ⟨hi, _⟩ <;> cases hi
    omega
  · rcases toNat_of_decodeWord h with ⟨_, hi, hw⟩ | ⟨_, hi, _⟩ | ⟨hi, _⟩ | ⟨hi, _⟩ <;> cases hi
    cases pol <;> simp [hw, policyBit]

/-- The legal words (R83, R86): an opcode of a command, and every bit above its operand field 0. -/
theorem decodeWord_ok_iff {w : Word} :
    (∃ i, decodeWord w = .ok i) ↔
      (w.toNat % 16 = 1 ∧ w.toNat / 32 = 0) ∨ (w.toNat % 16 = 2 ∧ w.toNat / 2048 = 0) ∨
        ((w.toNat % 16 = 3 ∨ w.toNat % 16 = 4) ∧ w.toNat / 16 = 0) := by
  constructor
  · rintro ⟨i, h⟩
    rcases toNat_of_decodeWord h with ⟨pol, _, hw⟩ | ⟨n, _, hn, hw⟩ | ⟨_, hw⟩ | ⟨_, hw⟩
    · have := (policyBit pol).isLt
      omega
    · omega
    · omega
    · omega
  · have hword : ∀ n, w.toNat = n → w = BitVec.ofNat 32 n := fun n hn => by
      rw [← hn, BitVec.ofNat_toNat, BitVec.setWidth_eq]
    rintro (⟨hop, hres⟩ | ⟨hop, hres⟩ | ⟨hop | hop, hres⟩)
    · obtain hw | hw : w.toNat = 1 ∨ w.toNat = 17 := by omega
      · exact ⟨.configure .disable, by rw [hword _ hw]; decide⟩
      · exact ⟨.configure .loop, by rw [hword _ hw]; decide⟩
    · have hlt : w.toNat / 16 < 128 := by omega
      have hw : w.toNat = 16 * (w.toNat / 16) + 2 := by omega
      exact ⟨.loadPattern (w.toNat / 16), (congrArg decodeWord (hword _ hw)).trans (decodeWord_loadPattern hlt)⟩
    · exact ⟨.enableTrack, by rw [hword 3 (by omega)]; decide⟩
    · exact ⟨.disableTrack, by rw [hword 4 (by omega)]; decide⟩

theorem cmdWrite_of_illegal {w : Word} {s : State} (hf : s.fault = 0) (h : ∀ i, decodeWord w ≠ .ok i) :
    cmdWrite w s = .next s.illegalCommand := by
  cases hd : decodeWord w with
  | ok i => exact absurd hd (h i)
  | error e => simp [cmdWrite, State.halted, hf, hd]

/-- Settles O6: the illegal words are those that are not legal, and their write is ILLEGAL_CMD of R112. -/
theorem illegalWordsChangeResultOnly : Obligations.IllegalWordsChangeResultOnly := by
  refine ⟨fun w => ?_, fun w s h hf => cmdWrite_of_illegal hf h, rfl⟩
  rw [← not_exists, decodeWord_ok_iff]
  omega

/-- Settles O1: each word is the encoding of its command. -/
theorem wordsOfEveryFamilyDecode : Obligations.WordsOfEveryFamilyDecode :=
  ⟨decodeWord_of_encode rfl, decodeWord_of_encode rfl, decodeWord_of_encode rfl, decodeWord_of_encode rfl,
    decodeWord_of_encode rfl, decodeWord_of_encode rfl⟩

end Sys2Proof

/-! A queued pattern (R90, R168, R169): its staging writes and its command, run one after another by the host alone. -/

namespace Sys2Proof.Machine

/-- The host moves next and goes on moving: the agenda names no other agent, and no event is pending (log 5). -/
structure State.HostOnly (s : State) : Prop where
  moves : ∀ m ∈ s.agenda, m = .host
  noEvent : s.evtPending = false

theorem State.HostOnly.nextMove {s : State} (h : s.HostOnly) : s.nextMove = .host := by
  unfold State.nextMove
  split
  · rename_i m rest hm
    exact h.moves m (by simp [hm])
  · simp [State.schedEnabled, h.noEvent]

theorem runSteps_succ_of_step {s t : State} (k : Nat) (h : step s = .next t) : runSteps (k + 1) s = runSteps k t := by
  simp [runSteps, h]

/-- What staging writes can change: STAGE, and what each host step uses up. -/
def State.staging (s : State) (rest : List Access) (moves : List Move) (m : Memory) (wr : Bool) : State :=
  { s with host := rest, agenda := moves, stage := m, tmrWr := wr }

theorem State.HostOnly.staging {s : State} (h : s.HostOnly) (rest : List Access) (k : Nat) (m : Memory) (wr : Bool) :
    (s.staging rest (s.agenda.drop k) m wr).HostOnly :=
  ⟨fun x hx => h.moves x (List.mem_of_mem_drop hx), h.noEvent⟩

/-- One word of a staging cell written (R55). -/
def Memory.setWord (m : Memory) (i : Nat) (f : CellField) (v : Word) : Memory :=
  m.write i (BitCell.set (m.read i) v f)

/-- The three words of a staging cell written in the order of R90. -/
def Memory.stageCell (m : Memory) (i : Nat) (c : BitCell) : Memory :=
  ((m.setWord i .period c.period).setWord i .pulse c.pulse).setWord i .rep c.rep

@[simp] theorem Memory.read_stageCell (m : Memory) (i j : Nat) (c : BitCell) :
    (m.stageCell i c).read j = if j = i then c else m.read j := by
  by_cases hj : j = i <;> simp [Memory.stageCell, Memory.setWord, BitCell.set, hj]

/-- A host step with the write of a STAGE word next makes it: with no event pending nothing is held (R206). -/
theorem step_stageWrite {s : State} {off : BitVec 12} {v : Word} {i : Nat} {f : CellField} {rest : List Access}
    (h : s.HostOnly) (hs : s.host = .write off .word v :: rest) (hd : busDecode off .word = .ok (.stage i f)) :
    step s = .next (s.staging rest (s.agenda.drop 1) (s.stage.setWord i f v) false) := by
  have hheld : s.beginMove.holds (.write off .word v) = false := by simp [State.holds, h.noEvent]
  have hpop : s.beginMove.popAccess.writeStage i f v =
      s.staging rest (s.agenda.drop 1) (s.stage.setWord i f v) false := by
    simp [State.beginMove, State.popAccess, State.writeStage, State.staging, Memory.setWord, hs]
  rw [step, h.nextMove, ← hpop]
  simp only [runMove, hostMove, State.beginMove_host, hs, hheld]
  exact access_write _ v hd

/-- The three writes of `STAGE i`, run one by one (R90). -/
theorem runSteps_stageAccesses {s : State} {i : Nat} {c : BitCell} {accs rest : List Access} (k : Nat)
    (h : s.HostOnly) (hi : i < slotCap) (hacc : stageAccesses i c = some accs) (hs : s.host = accs ++ rest) :
    runSteps (k + 3) s = runSteps k (s.staging rest (s.agenda.drop 3) (s.stage.stageCell i c) false) := by
  have ht := stageAccesses_targets hi hacc
  rw [stageAccesses_some c (by unfold slotCap at hi; omega)] at hacc
  cases hacc
  simp only [List.map_cons, List.map_nil, List.cons.injEq, and_true, Access.target] at ht
  obtain ⟨hp, hq, hr⟩ := ht
  simp only [List.cons_append, List.nil_append] at hs
  rw [runSteps_succ_of_step _ (step_stageWrite h hs hp),
    runSteps_succ_of_step _ (step_stageWrite (h.staging _ 1 _ _) rfl hq),
    runSteps_succ_of_step _ (step_stageWrite ((h.staging _ 1 _ _).staging _ 1 _ _) rfl hr)]
  simp only [State.staging, List.drop_drop]
  rfl

/-- The staging writes of a pattern, run one by one, put its cells in STAGE from index `i` on and keep the cells below. -/
theorem runSteps_stagePattern {s : State} {i : Nat} {cells : List BitCell} {ws rest : List Access} (k : Nat)
    (h : s.HostOnly) (hi : i + cells.length ≤ slotCap) (hws : stagePattern i cells = some ws)
    (hs : s.host = ws ++ rest) :
    ∃ m wr, runSteps (k + 3 * cells.length) s = runSteps k (s.staging rest (s.agenda.drop (3 * cells.length)) m wr) ∧
      (∀ j, j < i → m.read j = s.stage.read j) ∧
      ∀ j, j < cells.length → m.read (i + j) = cells.getD j BitCell.zero := by
  induction cells generalizing s i ws with
  | nil =>
    cases hws
    obtain rfl : s.host = rest := hs
    exact ⟨s.stage, s.tmrWr, rfl, fun _ _ => rfl, nofun⟩
  | cons c cs ih =>
    rw [List.length_cons] at hi
    unfold stagePattern at hws
    split at hws
    · rename_i accs ws' hacc hws'
      cases hws
      rw [List.append_assoc] at hs
      have hrun := runSteps_stageAccesses (k + 3 * cs.length) h (by omega) hacc hs
      obtain ⟨m, wr, hrun', hbelow, hcells⟩ :=
        ih (h.staging (ws' ++ rest) 3 (s.stage.stageCell i c) false) (by omega) hws' rfl
      refine ⟨m, wr, ?_, fun j hj => ?_, fun j hj => ?_⟩
      · rw [List.length_cons, show k + 3 * (cs.length + 1) = k + 3 * cs.length + 3 by omega, hrun, hrun']
        simp only [State.staging, List.drop_drop]
        rw [Nat.mul_succ, Nat.add_comm 3]
      · rw [hbelow j (by omega)]
        exact (Memory.read_stageCell ..).trans (if_neg (by omega))
      · cases j with
        | zero =>
          rw [Nat.add_zero, hbelow i (by omega)]
          exact (Memory.read_stageCell ..).trans (if_pos rfl)
        | succ j =>
          rw [show i + (j + 1) = i + 1 + j by omega, hcells j (by simpa using hj)]
          rfl
    · cases hws

/-- LOAD_PATTERN that passes the checks of R101 loads the slot it claims. -/
theorem exec_loadPattern_of_claims {s : State} {sl : Slot} {n : Nat} (h2 : 2 ≤ n) (h79 : n ≤ 79)
    (hv : ∀ i, i < n → validCell (s.stage.read i) = true) (hsl : s.Claims sl) :
    exec (.loadPattern n) s = .next (s.loadSlot sl n) := by
  have hlen : lengthOk n = true := lengthOk_iff.mpr ⟨h2, h79⟩
  have hvalid : s.stage.allValid n = true := Memory.allValid_iff.mpr hv
  have hfirst : s.firstFreeSlot = some sl := State.firstFreeSlot_some.mpr hsl
  simp [exec, execLoadPattern, hlen, hvalid, hfirst]

@[simp] theorem State.loadSlot_result (s : State) (sl : Slot) (n : Nat) : (s.loadSlot sl n).result = .ok := by
  unfold State.loadSlot
  split <;> rfl

/-- Queued or handed off, a load writes the cells of the slot it fills and no other. -/
@[simp] theorem State.loadSlot_cell (s : State) (sl : Slot) (n : Nat) (b : Buf) (i : Nat) :
    (s.loadSlot sl n).cell b i = (s.fillSlot sl n).cell b i := by
  unfold State.loadSlot
  split <;> rfl

theorem State.loadSlot_of_complete {s : State} (sl : Slot) (n : Nat) (h : s.pktComplete = true) :
    s.loadSlot sl n = ((s.fillSlot sl n).handoff sl).setResult .ok := if_pos h

theorem State.loadSlot_of_not_complete {s : State} (sl : Slot) (n : Nat) (h : s.pktComplete = false) :
    s.loadSlot sl n = (s.fillSlot sl n).setResult .ok := if_neg (by simp [h])

/-- The accesses of QUEUE, run to their end by the host alone, load the claimed slot from a STAGE that holds the cells. -/
theorem runSteps_queue {s : State} {sl : Slot} {cells : List BitCell} {ws : List Access} {w : Word}
    (h : s.HostOnly) (hf : s.fault = 0) (hsl : s.Claims sl) (h2 : 2 ≤ cells.length) (h79 : cells.length ≤ 79)
    (hv : ∀ c ∈ cells, validCell c = true) (hws : stagePattern 0 cells = some ws)
    (hw : decodeWord w = .ok (.loadPattern cells.length)) (hs : s.host = ws ++ [.write 0x000 .word w]) :
    ∃ m moves, (∀ j, j < cells.length → m.read j = cells.getD j BitCell.zero) ∧
      runSteps (3 * cells.length + 1) s = .next ((s.staging [] moves m false).loadSlot sl cells.length) := by
  obtain ⟨m, wr, hrun, _, hm⟩ := runSteps_stagePattern 1 h (by unfold slotCap; omega) hws hs
  simp only [Nat.zero_add] at hm
  have hturn := h.staging [.write 0x000 .word w] (3 * cells.length) m wr
  have hcmd := stepRunsTheDecodedCommand _ w [] _ ⟨hturn.nextMove, rfl, hturn.noEvent, hf⟩ hw
  have hvalid : ∀ j, j < cells.length → validCell (m.read j) = true := fun j hj => by
    rw [hm j hj, List.getD_eq_getElem _ _ hj]
    exact hv _ (List.getElem_mem hj)
  refine ⟨m, (s.agenda.drop (3 * cells.length)).tail, hm, ?_⟩
  rw [Nat.add_comm, hrun, runSteps_succ_of_step 0 (hcmd.trans (exec_loadPattern_of_claims h2 h79 hvalid hsl))]
  rfl

/-- Settles O58: the staging writes put the cells in STAGE, and the command loads them into the claimed slot, with the
handoff exactly where the packet was complete. -/
theorem queueLoadsThePattern : Obligations.QueueLoadsThePattern := by
  intro cells h2 h79 hv
  have hlen : cells.length < 128 := by omega
  obtain ⟨ws, hws, hwl, hq⟩ := queue_some hlen
  have hw := decodeWord_of_encode (i := .loadPattern cells.length) (if_pos hlen)
  refine ⟨_, hq, by simp [hwl], fun s sl hs hmoves he hf hsl => ?_⟩
  obtain ⟨m, moves, hm, hrun⟩ := runSteps_queue ⟨hmoves, he⟩ hf hsl h2 h79 hv hws hw hs
  have hcell : ∀ i, i < cells.length →
      ((s.staging [] moves m false).fillSlot sl cells.length).cell sl.buf i = cells.getD i BitCell.zero := fun i hi => by
    rw [State.fillSlot_cell, if_pos rfl, if_pos hi]
    exact hm i hi
  refine ⟨_, hrun, by simp [State.staging], by simp, by simpa [State.staging] using hf, fun i hi => ?_, by simp,
    fun hc => ?_, fun hc => ?_⟩
  · rw [State.loadSlot_cell, hcell i hi]
  · rw [State.loadSlot_of_complete (s := s.staging [] moves m false) sl _ hc]
    exact ⟨rfl, rfl, rfl, rfl, hcell 0 (by omega)⟩
  · rw [State.loadSlot_of_not_complete (s := s.staging [] moves m false) sl _ hc]
    exact ⟨rfl, rfl, rfl, hc, rfl, rfl, rfl⟩

end Sys2Proof.Machine

/-! The commands (R100 to R111): what each writes, and that nothing else changes. -/

namespace Sys2Proof.Machine

/-- Settles O25: the track off, the event acknowledged, the result written. -/
theorem disableTrackStopsOutput : Obligations.DisableTrackStopsOutput := fun _ => rfl

/-! CONFIGURE (R103). -/

/-- Within its 6 cells the rebuilt idle buffer holds `IDLE_CELLS` and then sentinels, for any list of them. -/
theorem idleImage_read_of_lt (cfg : Config) {i : Nat} (hi : i < idleCap) :
    (idleImage cfg).read i = if i < cfg.idleCells.length then cfg.idleCells.getD i BitCell.zero else BitCell.zero := by
  have htake : (idleImage cfg).read i = cfg.idleCells.getD i BitCell.zero := by
    simp [idleImage, Memory.read_ofCells, List.getD_eq_getElem?_getD, hi]
  rw [htake]
  split_ifs with hlen
  · rfl
  · exact List.getD_eq_default _ _ (Nat.le_of_not_lt hlen)

/-- Settles O20: the updates of CONFIGURE are read off its answer, and its cells are those of the rebuilt buffers. -/
theorem configureReinitialises : Obligations.ConfigureReinitialises := by
  intro pol s
  refine ⟨_, rfl, rfl, fun sl i => ?_, fun i hi => idleImage_read_of_lt s.cfg hi⟩
  cases sl <;> rfl

/-! LOAD_PATTERN that fails (R101, R106): each check is reached once those before it have passed. -/

theorem exec_loadPattern_of_length {n : Nat} (s : State) (hn : n < 2 ∨ 79 < n) :
    exec (.loadPattern n) s = .next (s.setResult .invalidLength) := by
  have hlen : lengthOk n = false := by
    rw [← Bool.not_eq_true, lengthOk_iff]
    omega
  exact if_pos hlen

theorem exec_loadPattern_of_invalid {n i : Nat} {s : State} (h2 : 2 ≤ n) (h79 : n ≤ 79) (hi : i < n)
    (hv : validCell (s.stage.read i) = false) : exec (.loadPattern n) s = .next (s.setResult .invalidCell) := by
  have hlen : lengthOk n = true := lengthOk_iff.mpr ⟨h2, h79⟩
  have hvalid : s.stage.allValid n = false := by
    rw [← Bool.not_eq_true, Memory.allValid_iff]
    exact fun hall => by simp [hall i hi] at hv
  simp [exec, execLoadPattern, hlen, hvalid]

theorem exec_loadPattern_of_busy {n : Nat} {s : State} (h2 : 2 ≤ n) (h79 : n ≤ 79)
    (hv : ∀ i, i < n → validCell (s.stage.read i) = true) (ha : s.isFree .a = false) (hb : s.isFree .b = false) :
    exec (.loadPattern n) s = .next (s.setResult .bufferUnavailable) := by
  have hlen : lengthOk n = true := lengthOk_iff.mpr ⟨h2, h79⟩
  have hvalid : s.stage.allValid n = true := Memory.allValid_iff.mpr hv
  have hfirst : s.firstFreeSlot = none := State.firstFreeSlot_none.mpr ⟨ha, hb⟩
  simp [exec, execLoadPattern, hlen, hvalid, hfirst]

/-- Settles O21: an illegal word is answered by the decoder, and each failing check of LOAD_PATTERN by its own code. -/
theorem resultCodesInOrder : Obligations.ResultCodesInOrder := fun _ s =>
  ⟨fun _ hw hf => cmdWrite_of_illegal hf hw, exec_loadPattern_of_length s,
    fun h2 h79 ⟨_, hi, hv⟩ => exec_loadPattern_of_invalid h2 h79 hi hv, exec_loadPattern_of_busy⟩

/-! The edge of TRACK_EN (R202). -/

theorem State.trackOn_of_trackEn {s : State} (h : s.trackEn = true) : s.trackOn = s := by
  cases s
  cases h
  simp [State.trackOn]

theorem State.trackOn_of_forcedUpdate {s : State} (h : s.trackEn = false) (hf : s.cfg.enableForcesUpdate = true) :
    s.trackOn.evtPending = true ∧ s.trackOn.act = s.pre := by
  simp [h, hf]

theorem State.trackOn_of_unforced {s : State} (hf : s.cfg.enableForcesUpdate = false) :
    s.trackOn.evtPending = s.evtPending := by
  simp [hf]

/-- Settles O24: ENABLE_TRACK is the edge of R202, if there is one, and RESULT. -/
theorem enableTrackRaisesTrack : Obligations.EnableTrackRaisesTrack := fun s =>
  ⟨s.trackOn.setResult .ok, rfl, rfl, fun h => congrArg (State.setResult · .ok) (State.trackOn_of_trackEn h),
    State.trackOn_of_forcedUpdate, fun _ => State.trackOn_of_unforced⟩

/-! LOAD_PATTERN that succeeds (R105 to R108). -/

theorem State.Claims.isFree {s : State} {sl : Slot} (h : s.Claims sl) : s.isFree sl = true :=
  State.firstFreeSlot_isFree (State.firstFreeSlot_some.mpr h)

/-- Cell by cell, a load puts the staged cells and a sentinel into its slot, and keeps every other cell (R106). -/
theorem State.loadSlot_cells (s : State) (sl : Slot) (n : Nat) :
    (∀ i, (s.loadSlot sl n).cell sl.buf i =
      if i < n then s.stage.read i else if i = n then BitCell.zero else s.cell sl.buf i) ∧
    ∀ b i, b ≠ sl.buf → (s.loadSlot sl n).cell b i = s.cell b i :=
  ⟨fun i => by rw [State.loadSlot_cell, State.fillSlot_cell, if_pos rfl],
    fun b i hb => by rw [State.loadSlot_cell, State.fillSlot_cell_of_ne hb]⟩

/-- While a packet is in play (INV2) the cursor is in a slot that is not free, so a load fills the other one, and what it
fills is queued (R107). -/
theorem State.loadSlot_isQueued {s : State} {sl : Slot} {n : Nat} (hn : 0 < n)
    (hv : ∀ i, i < n → validCell (s.stage.read i) = true) (hfree : s.isFree sl = true) (hc : s.pktComplete = false)
    (hplaying : ∃ x : Slot, s.curBuf = x.buf ∧ s.isFree x = false) : (s.loadSlot sl n).isQueued sl = true := by
  obtain ⟨x, hcur, hx⟩ := hplaying
  have hne : x ≠ sl := by
    rintro rfl
    simp [hfree] at hx
  have hfilled : (s.loadSlot sl n).isFree sl = false := by
    rw [State.isFree, State.loadSlot_cell]
    exact State.fillSlot_live hn hv
  have hcursor : (s.loadSlot sl n).curBuf = x.buf := by simpa [State.loadSlot_of_not_complete sl n hc] using hcur
  simp [State.isQueued_iff, State.isActive, hfilled, hcursor, hne]

/-- Settles O22: with the packet not complete the loaded slot is filled only, and INV2 has the cursor in the other slot. -/
theorem loadPatternQueues : Obligations.LoadPatternQueues := by
  intro n s sl h2 h79 hv hsl hc
  obtain ⟨hcells, hothers⟩ := s.loadSlot_cells sl n
  refine ⟨_, exec_loadPattern_of_claims h2 h79 hv hsl, ?_, hcells, hothers, fun hinv =>
    State.loadSlot_isQueued (by omega) hv hsl.isFree hc (hinv.inv2 hc)⟩
  rw [State.loadSlot_of_not_complete sl n hc]
  rfl

/-- The handoff writes cell 0 to the timer before the edge of R202, on which alone the event and the active cell depend. -/
theorem State.handoff_eq {s : State} {sl : Slot} {c : BitCell} (h : s.cell sl.buf 0 = c) :
    s.handoff sl = { s with
      tmrP := c.period, tmrQ := c.pulse, tmrR := c.rep, tmrWr := true, curBuf := sl.buf, curIdx := 1,
      scopeCnt := s.cfg.scopeOffset, pktComplete := false, trackEn := true, evtPending := (s.handoff sl).evtPending,
      act := (s.handoff sl).act, freeIdx := (s.handoff sl).freeIdx } := by
  subst h
  rfl

/-- What the handoff's edge does to the event and the active cell (R108, R202). -/
theorem State.handoff_edge (s : State) (sl : Slot) :
    (s.trackEn = true → (s.handoff sl).evtPending = s.evtPending ∧ (s.handoff sl).act = s.act) ∧
    (s.trackEn = false → s.cfg.enableForcesUpdate = true →
      (s.handoff sl).evtPending = true ∧ (s.handoff sl).act = s.cell sl.buf 0) ∧
    (s.cfg.enableForcesUpdate = false → (s.handoff sl).evtPending = s.evtPending) := by
  refine ⟨fun h => ?_, fun h hf => State.trackOn_of_forcedUpdate h hf, State.trackOn_of_unforced⟩
  simp [State.handoff, h]

/-- Settles O23: with the packet complete the loaded slot is filled and handed off, its first cell the first one staged. -/
theorem loadPatternHandsOff : Obligations.LoadPatternHandsOff := by
  intro n s sl h2 h79 hv hsl hc
  obtain ⟨hcells, hothers⟩ := s.loadSlot_cells sl n
  have hload := State.loadSlot_of_complete sl n hc
  have hfirst : (s.fillSlot sl n).cell sl.buf 0 = s.stage.read 0 := by
    rw [State.fillSlot_cell, if_pos rfl, if_pos (by omega)]
  obtain ⟨hon, hforced, hunforced⟩ := (s.fillSlot sl n).handoff_edge sl
  rw [hfirst] at hforced
  refine ⟨_, exec_loadPattern_of_claims h2 h79 hv hsl, ?_, hcells, hothers, ?_⟩
  · rw [hload, State.handoff_eq hfirst]
    rfl
  · rw [hload]
    exact ⟨hon, hforced, fun _ => hunforced⟩

end Sys2Proof.Machine

/-! The scheduler's turn (R130, R208): SCHED_STEP where it is enabled, and else nothing but the turn used up. -/

namespace Sys2Proof.Machine

theorem step_sched {s : State} (hm : s.nextMove = .sched) :
    step s = if s.schedEnabled then exec .schedStep s.beginMove else .next s.beginMove := by
  rw [step, hm]
  rfl

/-- Settles O8: with an event pending and no fault the step is enabled. -/
theorem stepRunsTheSchedulerStep : Obligations.StepRunsTheSchedulerStep := fun _ hm he hf =>
  (step_sched hm).trans (if_pos (State.schedEnabled_iff.mpr ⟨he, hf⟩))

/-- Settles O12: without an event, or with a fault, the step is not enabled. -/
theorem schedulerMoveNeedsEvent : Obligations.SchedulerMoveNeedsEvent := by
  intro s hm h
  refine (step_sched hm).trans (if_neg fun hen => ?_)
  obtain ⟨he, hf⟩ := State.schedEnabled_iff.mp hen
  rcases h with h | h
  · simp [he] at h
  · exact h hf

/-- Settles O33: the sentinel check and the end of the buffer are the two faults of R131. -/
theorem schedStepFaults : Obligations.SchedStepFaults := fun _ =>
  ⟨fun hin hs => execSchedStep_of_stepFault (State.stepFault_sentinelProgrammed_iff.mpr ⟨hin, hs⟩),
    fun hlast hl => execSchedStep_of_stepFault (State.stepFault_cursorOverrun_iff.mpr (.inr ⟨hlast, hl⟩))⟩

/-! A step that plays a cell (R131): what it writes whichever way it ends. -/

theorem State.playable_iff {s : State} : s.Playable ↔ s.stepFault = none := by
  rw [State.stepFault_none]
  exact ⟨fun h => ⟨h.live, h.room⟩, fun ⟨hl, hr⟩ => ⟨hr, hl⟩⟩

theorem exec_schedStep_of_playable {s : State} (h : s.Playable) : exec .schedStep s = .next s.playCell :=
  execSchedStep_of_stepFault_none (State.playable_iff.mp h)

@[simp] theorem State.playCell_tmrWr (s : State) : s.playCell.tmrWr = true := by
  simp [State.playCell]

/-- The trigger level is that of the count before any reset (R134). -/
theorem State.playCell_dbgOut_iff (s : State) : s.playCell.dbgOut = true ↔ s.scopeCnt = 1 := by
  have hlevel : s.playCell.dbgOut = scopeTrigger (s.scopeCnt - 1) := by simp [State.playCell, scopeNext]
  rw [hlevel, scopeTrigger, beq_iff_eq, BitVec.sub_eq_iff_eq_add]
  rfl

/-! The three ways a step ends (R136 to R140): within the packet, with a swap, or with no slot queued. -/

/-- Steps 1 to 3 of R131: the state in which the packet boundary is decided. -/
def State.writeAndAdvance (s : State) : State := (s.timerWrite s.cursorCell).scopeTick.advance

theorem State.Playable.curIdx_succ {s : State} (h : s.Playable) : (s.curIdx + 1).toNat = s.curIdx.toNat + 1 :=
  State.advance_curIdx_toNat h.room

/-- The cell that decides on the boundary is the one after the cursor (R136). -/
theorem State.Playable.onSentinel_iff {s : State} (h : s.Playable) :
    s.writeAndAdvance.onSentinel = true ↔ s.AtBoundary := by
  rw [State.AtBoundary, ← h.curIdx_succ]
  rfl

theorem State.swapsTo_or_noneQueued (s : State) : (∃ sl, s.SwapsTo sl) ∨ s.NoneQueued := by
  by_cases ha : s.curBuf = .slotA ∨ s.isFree .a = true
  · by_cases hb : s.curBuf = .slotB ∨ s.isFree .b = true
    · exact .inr ⟨ha, hb⟩
    · exact .inl ⟨.b, .inr ⟨rfl, ha, by simpa using hb⟩⟩
  · exact .inl ⟨.a, .inl ⟨rfl, by simpa using ha⟩⟩

theorem State.markFree_isFree_iff {s : State} {sl : Slot} :
    s.markFree.isFree sl = true ↔ s.curBuf = sl.buf ∨ s.isFree sl = true := by
  rw [State.markFree_isFree, Bool.or_eq_true, decide_eq_true_eq, eq_comm]

/-- The slot of the definition is the one the choice takes once the drained slot is free (R137, R138). -/
theorem State.SwapsTo.selectNext {s : State} {sl : Slot} (h : s.SwapsTo sl) :
    s.markFree.selectNext = s.markFree.swapTo sl := by
  unfold State.selectNext
  rcases h with ⟨rfl, hcur, hfree⟩ | ⟨rfl, ha, hcur, hfree⟩
  · simp [Slot.buf, hcur.symm, hfree]
  · have hafree : s.markFree.isFree .a = true := State.markFree_isFree_iff.mpr ha
    simp [hafree, Slot.buf, hcur.symm, hfree]

theorem State.NoneQueued.selectNext {s : State} (h : s.NoneQueued) : s.markFree.selectNext = s.markFree.noQueued := by
  obtain ⟨ha, hb⟩ := h
  have hafree : s.markFree.isFree .a = true := State.markFree_isFree_iff.mpr ha
  have hbfree : s.markFree.isFree .b = true := State.markFree_isFree_iff.mpr hb
  simp [State.selectNext, hafree, hbfree]

theorem State.playCell_of_within {s : State} (h : s.Playable) (hb : ¬ s.AtBoundary) :
    s.playCell = s.writeAndAdvance.ackEvent :=
  congrArg State.ackEvent (if_neg (mt h.onSentinel_iff.mp hb))

theorem State.playCell_of_boundary {s : State} (h : s.Playable) (hb : s.AtBoundary) :
    s.playCell = s.writeAndAdvance.markFree.selectNext.ackEvent :=
  congrArg State.ackEvent (if_pos (h.onSentinel_iff.mpr hb))

theorem State.playCell_of_swapsTo {s : State} {sl : Slot} (h : s.Playable) (hb : s.AtBoundary) (hsw : s.SwapsTo sl) :
    s.playCell = (s.writeAndAdvance.markFree.swapTo sl).ackEvent := by
  rw [State.playCell_of_boundary h hb, State.SwapsTo.selectNext (s := s.writeAndAdvance) hsw]

theorem State.playCell_of_noneQueued {s : State} (h : s.Playable) (hb : s.AtBoundary) (hn : s.NoneQueued) :
    s.playCell = s.writeAndAdvance.markFree.noQueued.ackEvent := by
  rw [State.playCell_of_boundary h hb, State.NoneQueued.selectNext (s := s.writeAndAdvance) hn]

/-- Mark free is the one write of a cell at a boundary (R137). -/
theorem State.playCell_cell_of_boundary {s : State} (h : s.Playable) (hb : s.AtBoundary) (b : Buf) (i : Nat) :
    s.playCell.cell b i = s.markFree.cell b i := by
  have hcell : s.playCell.cell b i = s.writeAndAdvance.markFree.selectNext.cell b i := by
    rw [State.playCell_of_boundary h hb]
    rfl
  rw [hcell, State.selectNext_cell, State.markFree_cell, State.markFree_cell]
  rfl

/-- The slot the cursor is in is free after a boundary (R137). -/
theorem State.playCell_isFree_drained {s : State} {sl : Slot} (h : s.Playable) (hb : s.AtBoundary)
    (hcur : s.curBuf = sl.buf) : s.playCell.isFree sl = true := by
  rw [State.isFree, State.playCell_cell_of_boundary h hb]
  exact State.markFree_isFree_iff.mpr (.inl hcur)

/-! What each ending writes, and what it leaves. -/

theorem State.playCell_frame_of_within {s : State} (h : s.Playable) (hb : ¬ s.AtBoundary) :
    s.playCell = { s with
      tmrP := s.playCell.tmrP, tmrQ := s.playCell.tmrQ, tmrR := s.playCell.tmrR, tmrWr := true,
      scopeCnt := s.scopeCnt - 1, dbgOut := s.playCell.dbgOut, curIdx := s.curIdx + 1, evtPending := false } := by
  rw [State.playCell_of_within h hb]
  rfl

theorem State.playCell_frame_of_swapsTo {s : State} {sl : Slot} (h : s.Playable) (hb : s.AtBoundary)
    (hsw : s.SwapsTo sl) :
    s.playCell = { s with
      slotA := s.playCell.slotA, slotB := s.playCell.slotB, tmrP := s.playCell.tmrP, tmrQ := s.playCell.tmrQ,
      tmrR := s.playCell.tmrR, tmrWr := true, scopeCnt := s.cfg.scopeOffset, dbgOut := s.playCell.dbgOut,
      curBuf := sl.buf, curIdx := 0, evtPending := false } := by
  rw [State.playCell_of_swapsTo h hb hsw]
  simp [State.writeAndAdvance, State.swapTo, State.ackEvent, State.setCursor, State.resetScope]

/-- Under either policy the packet is complete (R140). -/
@[simp] theorem State.noQueued_pktComplete (s : State) : s.noQueued.pktComplete = true := by
  unfold State.noQueued
  split <;> rfl

theorem State.playCell_frame_of_noneQueued {s : State} (h : s.Playable) (hb : s.AtBoundary) (hn : s.NoneQueued) :
    s.playCell = { s with
      slotA := s.playCell.slotA, slotB := s.playCell.slotB, tmrP := s.playCell.tmrP, tmrQ := s.playCell.tmrQ,
      tmrR := s.playCell.tmrR, tmrWr := true, scopeCnt := s.scopeCnt - 1, dbgOut := s.playCell.dbgOut,
      curBuf := s.playCell.curBuf, curIdx := s.playCell.curIdx, trackEn := s.playCell.trackEn, pktComplete := true,
      evtPending := false } := by
  rw [State.playCell_of_noneQueued h hb hn]
  simp [State.writeAndAdvance, State.ackEvent, scopeNext]

/-- Under LOOP the idle packet is re-armed (R140). -/
theorem State.playCell_of_loop {s : State} (h : s.Playable) (hb : s.AtBoundary) (hn : s.NoneQueued)
    (hpol : s.idlePolicy = .loop) :
    s.playCell.curBuf = .idle ∧ s.playCell.curIdx = 0 ∧ s.playCell.trackEn = s.trackEn := by
  have hpol' : s.writeAndAdvance.markFree.idlePolicy = .loop := by simpa [State.writeAndAdvance] using hpol
  rw [State.playCell_of_noneQueued h hb hn, State.noQueued, hpol']
  exact ⟨rfl, rfl, by simp [State.writeAndAdvance]⟩

/-- Under DISABLE the track is off and the cursor stays at the sentinel it reached (R140). -/
theorem State.playCell_of_disable {s : State} (h : s.Playable) (hb : s.AtBoundary) (hn : s.NoneQueued)
    (hpol : s.idlePolicy = .disable) :
    s.playCell.trackEn = false ∧ s.playCell.curBuf = s.curBuf ∧ s.playCell.curIdx = s.curIdx + 1 := by
  have hpol' : s.writeAndAdvance.markFree.idlePolicy = .disable := by simpa [State.writeAndAdvance] using hpol
  rw [State.playCell_of_noneQueued h hb hn, State.noQueued, hpol']
  exact ⟨rfl, by simp [State.writeAndAdvance], by simp [State.writeAndAdvance]⟩

/-- Settles O30: within the packet the step ends with the advance. -/
theorem schedStepWithinPacket : Obligations.SchedStepWithinPacket := by
  intro s h hb
  have hframe := State.playCell_frame_of_within h hb
  have hidx : s.playCell.curIdx = s.curIdx + 1 := congrArg State.curIdx hframe
  refine ⟨s.playCell, exec_schedStep_of_playable h, ?_, ?_⟩
  · rw [hidx]
    exact hframe
  · rw [hidx]
    exact h.curIdx_succ

/-- Settles O31: mark free and the swap are the two writes of the boundary. -/
theorem schedStepSwaps : Obligations.SchedStepSwaps := by
  intro s sl h hb hsw
  refine ⟨s.playCell, exec_schedStep_of_playable h, State.playCell_frame_of_swapsTo h hb hsw, fun b i => ?_⟩
  rw [State.playCell_cell_of_boundary h hb, State.markFree_cell]

/-- Settles O32: mark free, and then the policy says what becomes of the cursor and the track. -/
theorem schedStepWithoutQueue : Obligations.SchedStepWithoutQueue := by
  intro s h hb hn
  refine ⟨s.playCell, exec_schedStep_of_playable h, State.playCell_frame_of_noneQueued h hb hn, fun b i => ?_,
    State.playCell_of_loop h hb hn, fun hpol => ?_⟩
  · rw [State.playCell_cell_of_boundary h hb, State.markFree_cell]
  · obtain ⟨htrack, hbuf, hidx⟩ := State.playCell_of_disable h hb hn hpol
    exact ⟨htrack, hbuf, by rw [hidx, h.curIdx_succ]⟩

/-- Only a swap resets the scope counter (R134, R139). -/
theorem State.playCell_scopeCnt_of_not_swap {s : State} (h : s.Playable)
    (hns : ¬ (s.AtBoundary ∧ ∃ sl, s.SwapsTo sl)) : s.playCell.scopeCnt = s.scopeCnt - 1 := by
  by_cases hb : s.AtBoundary
  · have hn : s.NoneQueued := s.swapsTo_or_noneQueued.resolve_left fun hsw => hns ⟨hb, hsw⟩
    exact congrArg State.scopeCnt (State.playCell_frame_of_noneQueued h hb hn)
  · exact congrArg State.scopeCnt (State.playCell_frame_of_within h hb)

/-- Settles O29: the cell at the cursor is written whichever way the step ends, and only a swap resets the counter. -/
theorem schedStepWritesTimer : Obligations.SchedStepWritesTimer := by
  intro s h
  obtain ⟨hp, hq, hr⟩ := BitCell.mk.inj s.playCell_tmr
  exact ⟨s.playCell, exec_schedStep_of_playable h, hp, hq, hr, s.playCell_tmrWr,
    fun hb ⟨_, hsw⟩ => congrArg State.scopeCnt (State.playCell_frame_of_swapsTo h hb hsw),
    State.playCell_scopeCnt_of_not_swap h, s.playCell_dbgOut_iff, s.playCell_evtPending⟩

/-! Phases (R145). -/

/-- A step within a packet or across a swap leaves PKT_COMPLETE and TRACK_EN as they are (R138). -/
theorem State.playCell_packet_goes_on {s : State} (h : s.Playable) (hon : ¬ s.AtBoundary ∨ ∃ sl, s.SwapsTo sl) :
    s.playCell.pktComplete = s.pktComplete ∧ s.playCell.trackEn = s.trackEn := by
  by_cases hb : s.AtBoundary
  · obtain ⟨sl, hsw⟩ := hon.resolve_left (not_not_intro hb)
    have hframe := State.playCell_frame_of_swapsTo h hb hsw
    exact ⟨(congrArg State.pktComplete hframe :), (congrArg State.trackEn hframe :)⟩
  · have hframe := State.playCell_frame_of_within h hb
    exact ⟨(congrArg State.pktComplete hframe :), (congrArg State.trackEn hframe :)⟩

/-- A state in play is not idle. -/
theorem State.isIdle_of_isPlaying {s : State} (h : s.isPlaying = true) : s.isIdle = false := by
  simp [State.isIdle, (State.isPlaying_iff.mp h).2]

theorem State.playCell_pktComplete_of_noneQueued {s : State} (h : s.Playable) (hb : s.AtBoundary)
    (hn : s.NoneQueued) : s.playCell.pktComplete = true :=
  congrArg State.pktComplete (State.playCell_frame_of_noneQueued h hb hn)

/-- The sentinel a DISABLE boundary leaves the cursor on: mark free writes another cell (R137, R140). -/
theorem State.playCell_cursorCell_of_disable {s : State} (h : s.Playable) (hb : s.AtBoundary) (hn : s.NoneQueued)
    (hpol : s.idlePolicy = .disable) : isSentinel s.playCell.cursorCell = true := by
  obtain ⟨_, hbuf, hidx⟩ := State.playCell_of_disable h hb hn hpol
  rw [State.cursorCell, hbuf, hidx, h.curIdx_succ, State.playCell_cell_of_boundary h hb, State.markFree_cell,
    if_neg (by simp)]
  exact hb

theorem State.playCell_isIdle {s : State} (h : s.Playable) (htrack : s.trackEn = true) (hb : s.AtBoundary)
    (hn : s.NoneQueued) : s.playCell.isIdle = true := by
  refine State.isIdle_iff.mpr ⟨State.playCell_pktComplete_of_noneQueued h hb hn, ?_⟩
  rw [State.playCell_idlePolicy]
  cases hpol : s.idlePolicy with
  | loop =>
    obtain ⟨hbuf, _, hen⟩ := State.playCell_of_loop h hb hn hpol
    exact .inl ⟨rfl, hen.trans htrack, hbuf⟩
  | disable => exact .inr ⟨rfl, (State.playCell_of_disable h hb hn hpol).1⟩

theorem State.playCell_isExhausted_iff {s : State} (h : s.Playable) (hb : s.AtBoundary) (hn : s.NoneQueued) :
    s.playCell.isExhausted = true ↔ s.idlePolicy = .disable := by
  rw [State.isExhausted_iff, State.playCell_idlePolicy]
  refine ⟨And.left, fun hpol => ⟨hpol, (State.playCell_of_disable h hb hn hpol).1, ?_, ?_⟩⟩
  · exact State.playCell_pktComplete_of_noneQueued h hb hn
  · exact State.playCell_cursorCell_of_disable h hb hn hpol

/-- Settles O40: a packet in play stays so, and a boundary with no slot queued completes it. -/
theorem schedStepMovesBetweenPhases : Obligations.SchedStepMovesBetweenPhases := by
  intro s h htrack
  refine ⟨fun hc hon => ?_, fun hb hn => ?_⟩
  · obtain ⟨hpkt, hen⟩ := State.playCell_packet_goes_on h hon
    have hplaying : s.playCell.isPlaying = true := State.isPlaying_iff.mpr ⟨hen.trans htrack, hpkt.trans hc⟩
    exact ⟨s.playCell, exec_schedStep_of_playable h, hplaying, State.isIdle_of_isPlaying hplaying⟩
  · refine ⟨s.playCell, exec_schedStep_of_playable h, State.playCell_isIdle h htrack hb hn, ?_,
      State.playCell_isExhausted_iff h hb hn⟩
    simp [State.isPlaying, State.playCell_pktComplete_of_noneQueued h hb hn]

/-! ENABLE_TRACK after a DISABLE boundary (R243). -/

/-- A played cell turns the track off at a DISABLE boundary only (R140). -/
theorem State.playCell_off {s : State} (h : s.Playable) (htrack : s.trackEn = true) (hoff : s.playCell.trackEn = false) :
    s.AtBoundary ∧ s.NoneQueued ∧ s.idlePolicy = .disable := by
  have hstop : ¬ (¬ s.AtBoundary ∨ ∃ sl, s.SwapsTo sl) := fun hon => by
    simp [(State.playCell_packet_goes_on h hon).2, htrack] at hoff
  obtain ⟨hb, hns⟩ : s.AtBoundary ∧ ¬ ∃ sl, s.SwapsTo sl := by rwa [not_or, not_not] at hstop
  have hn : s.NoneQueued := s.swapsTo_or_noneQueued.resolve_left hns
  refine ⟨hb, hn, ?_⟩
  cases hpol : s.idlePolicy with
  | loop => simp [(State.playCell_of_loop h hb hn hpol).2.2, htrack] at hoff
  | disable => rfl

theorem State.raiseFault_fault_ne_zero {s : State} (f : Fault) (h : s.fault = 0) : (s.raiseFault f).fault ≠ 0 := by
  rw [State.raiseFault_fault, h]
  cases f <;> decide

/-- With the cursor resting on a sentinel, ENABLE_TRACK moves nothing the next step looks at (R132, R243). -/
theorem enableTrack_then_step_faults {t : State} (hft : t.fault = 0) (hin : t.curIdx.toNat < t.curBuf.cap)
    (hs : isSentinel t.cursorCell = true) :
    ∃ u v, exec .enableTrack t = .next u ∧ exec .schedStep u = .next v ∧ v.fault = 0b001 ∧ v.trackEn = false ∧
      v.evtPending = false ∧ v.tmrP = t.tmrP ∧ v.tmrQ = t.tmrQ ∧ v.tmrR = t.tmrR := by
  have hfault : (t.trackOn.setResult .ok).stepFault = some .sentinelProgrammed :=
    State.stepFault_sentinelProgrammed_iff.mpr ⟨hin, hs⟩
  refine ⟨_, _, rfl, execSchedStep_of_stepFault hfault, ?_, rfl, rfl, rfl, rfl, rfl⟩
  rw [State.raiseFault_fault, State.setResult_fault, State.trackOn_fault, hft]
  rfl

/-- Settles O41: the step was a DISABLE boundary, whose sentinel the cursor still stands on. -/
theorem enableAfterDisableBoundaryFaults : Obligations.EnableAfterDisableBoundaryFaults := by
  intro s t hf htrack hx hoff hft
  rcases exec_schedStep_next hx with ⟨f, _, rfl⟩ | ⟨hnone, rfl⟩
  · exact absurd hft (State.raiseFault_fault_ne_zero f hf)
  · have h := State.playable_iff.mpr hnone
    obtain ⟨hb, hn, hpol⟩ := State.playCell_off h htrack hoff
    obtain ⟨_, hbuf, hidx⟩ := State.playCell_of_disable h hb hn hpol
    have hin : s.playCell.curIdx.toNat < s.playCell.curBuf.cap := by
      rw [hbuf, hidx, h.curIdx_succ]
      exact h.room
    exact enableTrack_then_step_faults hft hin (State.playCell_cursorCell_of_disable h hb hn hpol)

/-! A swap (R138, R144). -/

theorem State.swapsTo_other {s : State} {sl : Slot} (hcur : s.curBuf = sl.buf) (hfree : s.isFree sl.other = false) :
    s.SwapsTo sl.other := by
  cases sl with
  | a => exact .inr ⟨rfl, .inl hcur, by rw [hcur]; decide, hfree⟩
  | b => exact .inl ⟨rfl, by rw [hcur]; decide, hfree⟩

theorem State.noneQueued_of_other_free {s : State} {sl : Slot} (hcur : s.curBuf = sl.buf)
    (hfree : s.isFree sl.other = true) : s.NoneQueued := by
  cases sl with
  | a => exact ⟨.inl hcur, .inr hfree⟩
  | b => exact ⟨.inr hfree, .inl hcur⟩

theorem Slot.other_ne (sl : Slot) : sl.other ≠ sl := by cases sl <;> decide

theorem State.playable_of_first {s : State} {sl : Slot} (hcur : s.curBuf = sl.buf) (hidx : s.curIdx = 0)
    (hfree : s.isFree sl = false) : s.Playable := by
  refine ⟨?_, ?_⟩
  · rw [hcur, hidx, Slot.buf_cap]
    decide
  · rw [hcur, hidx]
    exact hfree

/-- Settles O38: the swap puts the cursor on a live cell of a slot it leaves as it was, so the next step plays it. -/
theorem swapLosesNoCell : Obligations.SwapLosesNoCell := by
  intro s sl h hb hcur hfree
  have hframe := State.playCell_frame_of_swapsTo h hb (State.swapsTo_other hcur hfree)
  have hbuf : s.playCell.curBuf = sl.other.buf := congrArg State.curBuf hframe
  have hidx : s.playCell.curIdx = 0 := congrArg State.curIdx hframe
  have hcell : ∀ i, s.playCell.cell sl.other.buf i = s.cell sl.other.buf i := fun i => by
    rw [State.playCell_cell_of_boundary h hb, State.markFree_cell, hcur]
    simp [sl.other_ne]
  have hplay : s.playCell.Playable :=
    State.playable_of_first hbuf hidx (by rw [State.isFree, hcell]; exact hfree)
  refine ⟨s.playCell, s.playCell.playCell, exec_schedStep_of_playable h, exec_schedStep_of_playable hplay, ?_, ?_, hbuf,
    hidx, State.playCell_isFree_drained h hb hcur, by simp⟩
  · rw [State.playCell_tmr, State.cursorCell, hcur]
  · rw [State.playCell_tmr, State.cursorCell, hbuf, hidx]
    exact hcell 0

/-! A packet played from its slot, step by step (R143). -/

theorem schedSteps_succ {s t : State} (h : exec .schedStep s = .next t) (k : Nat) :
    schedSteps (k + 1) s = schedSteps k t := by
  simp only [schedSteps, h]

/-- The steps counted from the other end: the last one after all the others. -/
theorem schedSteps_succ_last {k : Nat} {s t : State} (h : schedSteps k s = .next t) :
    schedSteps (k + 1) s = exec .schedStep t := by
  induction k generalizing s with
  | zero =>
    cases h
    obtain ⟨u, hu⟩ := exec_next .schedStep t
    rw [schedSteps_succ hu, hu]
    rfl
  | succ k ih =>
    obtain ⟨u, hu⟩ := exec_next .schedStep s
    rw [schedSteps_succ hu] at h ⊢
    exact ih h

/-- What `k` steps within a packet have done to the cursor and the scope counter (R134, R135), and what they have left. -/
structure State.MovesOn (s t : State) (k : Nat) : Prop where
  cell : ∀ b i, t.cell b i = s.cell b i
  curBuf : t.curBuf = s.curBuf
  curIdx : t.curIdx.toNat = s.curIdx.toNat + k
  scopeCnt : t.scopeCnt = s.scopeCnt - BitVec.ofNat 32 k
  pktComplete : t.pktComplete = s.pktComplete
  trackEn : t.trackEn = s.trackEn
  idlePolicy : t.idlePolicy = s.idlePolicy
  fault : t.fault = s.fault

theorem State.MovesOn.isFree {s t : State} {k : Nat} (h : s.MovesOn t k) (sl : Slot) : t.isFree sl = s.isFree sl :=
  congrArg isSentinel (h.cell sl.buf 0)

theorem State.MovesOn.holds {s t : State} {sl : Slot} {k n : Nat} (h : s.MovesOn t k) (hn : s.Holds sl n) :
    t.Holds sl n where
  cells i hi := by rw [h.cell]; exact hn.cells i hi
  sentinel := by rw [h.cell]; exact hn.sentinel
  fits := hn.fits

theorem State.movesOn_zero (s : State) : s.MovesOn s 0 :=
  ⟨fun _ _ => rfl, rfl, rfl, (BitVec.sub_zero _).symm, rfl, rfl, rfl, rfl⟩

theorem State.MovesOn.playCell {s t : State} {k : Nat} (h : s.MovesOn t k) (hplay : t.Playable)
    (hb : ¬ t.AtBoundary) : s.MovesOn t.playCell (k + 1) := by
  have hframe := State.playCell_frame_of_within hplay hb
  exact
    { cell := fun b i => by
        rw [State.playCell_of_within hplay hb]
        exact h.cell b i
      curBuf := (congrArg State.curBuf hframe).trans h.curBuf
      curIdx := by
        have hidx : t.playCell.curIdx = t.curIdx + 1 := congrArg State.curIdx hframe
        rw [hidx, hplay.curIdx_succ, h.curIdx, Nat.add_assoc]
      scopeCnt := by
        have hscope : t.playCell.scopeCnt = t.scopeCnt - 1 := congrArg State.scopeCnt hframe
        rw [hscope, h.scopeCnt, BitVec.ofNat_add, sub_sub]
        rfl
      pktComplete := (congrArg State.pktComplete hframe).trans h.pktComplete
      trackEn := (congrArg State.trackEn hframe).trans h.trackEn
      idlePolicy := (congrArg State.idlePolicy hframe).trans h.idlePolicy
      fault := (congrArg State.fault hframe).trans h.fault }

/-- On a cell of the packet the cursor is playable: the cell is live, and the sentinel lies in the slot. -/
theorem State.Holds.playable {s : State} {sl : Slot} {n : Nat} (h : s.Holds sl n) (hcur : s.curBuf = sl.buf)
    (hlt : s.curIdx.toNat < n) : s.Playable where
  room := by
    have hfits : n < 80 := h.fits
    rw [hcur, Slot.buf_cap]
    omega
  live := by rw [hcur]; exact h.cells _ hlt

/-- The boundary is reached at the last cell of the packet, and not before. -/
theorem State.Holds.atBoundary_iff {s : State} {sl : Slot} {n : Nat} (h : s.Holds sl n) (hcur : s.curBuf = sl.buf)
    (hlt : s.curIdx.toNat < n) : s.AtBoundary ↔ s.curIdx.toNat + 1 = n := by
  rw [State.AtBoundary, hcur]
  refine ⟨fun hs => ?_, fun he => he ▸ h.sentinel⟩
  by_contra hne
  simp [h.cells (s.curIdx.toNat + 1) (by omega)] at hs

/-- Moved on to a cell of its packet, the cursor can be played from there, and the last cell ends at the boundary. -/
theorem State.MovesOn.next_cell {s t : State} {sl : Slot} {n k : Nat} (h : s.MovesOn t k) (hold : s.Holds sl n)
    (hcur : s.curBuf = sl.buf) (hk : s.curIdx.toNat + k < n) :
    t.Playable ∧ t.cursorCell = s.cell sl.buf (s.curIdx.toNat + k) ∧ (t.AtBoundary ↔ s.curIdx.toNat + k + 1 = n) := by
  have hcur' := h.curBuf.trans hcur
  have hlt : t.curIdx.toNat < n := h.curIdx ▸ hk
  refine ⟨(h.holds hold).playable hcur' hlt, ?_, ?_⟩
  · rw [State.cursorCell, hcur', h.curIdx, h.cell]
  · rw [(h.holds hold).atBoundary_iff hcur' hlt, h.curIdx]

/-- As long as the cursor stays on the packet's cells, the steps only move it on. -/
theorem State.Holds.schedSteps_movesOn {s : State} {sl : Slot} {n k : Nat} (h : s.Holds sl n)
    (hcur : s.curBuf = sl.buf) (hk : s.curIdx.toNat + k < n) : ∃ t, schedSteps k s = .next t ∧ s.MovesOn t k := by
  induction k with
  | zero => exact ⟨s, rfl, s.movesOn_zero⟩
  | succ k ih =>
    obtain ⟨t, ht, hmoves⟩ := ih (by omega)
    obtain ⟨hplay, _, hbound⟩ := hmoves.next_cell h hcur (by omega)
    exact ⟨t.playCell, (schedSteps_succ_last ht).trans (exec_schedStep_of_playable hplay),
      hmoves.playCell hplay (mt hbound.mp (by omega))⟩

/-- The step after `k` within a packet plays its next cell. -/
theorem State.Holds.schedSteps_playCell {s : State} {sl : Slot} {n k : Nat} (h : s.Holds sl n)
    (hcur : s.curBuf = sl.buf) (hk : s.curIdx.toNat + k < n) :
    ∃ t, schedSteps (k + 1) s = .next t.playCell ∧ s.MovesOn t k ∧ t.Playable ∧
      t.cursorCell = s.cell sl.buf (s.curIdx.toNat + k) ∧ (t.AtBoundary ↔ s.curIdx.toNat + k + 1 = n) := by
  obtain ⟨t, ht, hmoves⟩ := h.schedSteps_movesOn hcur hk
  have hnext := hmoves.next_cell h hcur hk
  exact ⟨t, (schedSteps_succ_last ht).trans (exec_schedStep_of_playable hnext.1), hmoves, hnext⟩

/-- Settles O37: all steps but the last only move the cursor on, and the last one is a boundary with no slot queued. -/
theorem packetDrainsInItsLength : Obligations.PacketDrainsInItsLength := by
  rintro s sl n start hold - hlt hcur rfl hfree
  refine ⟨fun j hj => ?_, ?_⟩
  · obtain ⟨t, hsteps, hmoves, hplay, hcell, hbound⟩ := hold.schedSteps_playCell hcur (k := j) (by omega)
    refine ⟨t.playCell, hsteps, t.playCell_tmr.trans hcell, fun hj' => ?_⟩
    have hmoves' := hmoves.playCell hplay (mt hbound.mp (by omega))
    exact ⟨(hmoves'.isFree sl).trans (hold.cells 0 (by omega)), hmoves'.pktComplete⟩
  · obtain ⟨t, hsteps, hmoves, hplay, _, hbound⟩ :=
      hold.schedSteps_playCell hcur (k := n - s.curIdx.toNat - 1) (by omega)
    have hb : t.AtBoundary := hbound.mpr (by omega)
    have hcur' := hmoves.curBuf.trans hcur
    have hn : t.NoneQueued := State.noneQueued_of_other_free hcur' ((hmoves.isFree sl.other).trans hfree)
    refine ⟨t.playCell, ?_, State.playCell_isFree_drained hplay hb hcur',
      State.playCell_pktComplete_of_noneQueued hplay hb hn, ?_, fun hpol => ?_, fun hpol => ?_⟩
    · rw [← hsteps]
      congr 1
      omega
    · rw [State.playCell_fault, hmoves.fault]
    · obtain ⟨htrack, hbuf, hidx⟩ := State.playCell_of_disable hplay hb hn (hmoves.idlePolicy.trans hpol)
      refine ⟨htrack, hbuf.trans hcur', ?_⟩
      rw [hidx, hplay.curIdx_succ, hmoves.curIdx]
      omega
    · obtain ⟨hbuf, hidx, htrack⟩ := State.playCell_of_loop hplay hb hn (hmoves.idlePolicy.trans hpol)
      exact ⟨htrack.trans hmoves.trackEn, hbuf, hidx⟩

/-! The timer's active cell (R142, R203, R204). -/

theorem exec_schedStep_act {s t : State} (h : exec .schedStep s = .next t) : t.act = s.act := by
  rcases exec_schedStep_next h with ⟨f, _, rfl⟩ | ⟨_, rfl⟩ <;> simp

theorem State.trackOn_act_ne {s : State} (h : s.trackOn.act ≠ s.act) : s.trackEn = false := by
  by_contra hen
  exact h (congrArg State.act (State.trackOn_of_trackEn (by simpa using hen)))

theorem State.handoff_act_ne {s : State} {sl : Slot} (h : (s.handoff sl).act ≠ s.act) : s.trackEn = false := by
  by_contra hen
  exact h ((s.handoff_edge sl).1 (by simpa using hen)).2

/-- An instruction changes the active cell by a rising edge of TRACK_EN only (R202). -/
theorem exec_act_ne {i : Instr} {s t : State} (h : exec i s = .next t) (hne : t.act ≠ s.act) :
    s.trackEn = false ∧ t.trackEn = true := by
  cases i with
  | configure pol => cases h; exact absurd rfl hne
  | loadPattern n =>
    rcases exec_loadPattern_next h with ⟨r, rfl⟩ | ⟨sl, _, _, _, _, rfl⟩
    · exact absurd rfl hne
    · cases hc : s.pktComplete with
      | true =>
        rw [State.loadSlot_of_complete sl n hc] at hne ⊢
        exact ⟨State.handoff_act_ne (s := s.fillSlot sl n) hne, rfl⟩
      | false =>
        rw [State.loadSlot_of_not_complete sl n hc] at hne
        exact absurd rfl hne
  | enableTrack => cases h; exact ⟨State.trackOn_act_ne hne, rfl⟩
  | disableTrack => cases h; exact absurd rfl hne
  | schedStep => exact absurd (exec_schedStep_act h) hne

theorem State.boundary_act (s : State) : s.boundary.act = s.pre := by
  unfold State.boundary
  split <;> rfl

/-- Settles O43: by the cases of a step, of which the boundary, reset and a command can change the active cell. -/
theorem activeCellLagsTheWrite : Obligations.ActiveCellLagsTheWrite := by
  refine ⟨fun s t => exec_schedStep_act, fun s t h hne => ?_⟩
  cases step_cases h with
  | nothing _ ht => cases ht; exact absurd rfl hne
  | sched _ _ _ ht => exact absurd (exec_schedStep_act ht) hne
  | read _ v ht => cases ht; exact absurd rfl hne
  | stage _ i f v _ ht => cases ht; exact absurd rfl hne
  | ignored _ ht => cases ht; exact absurd rfl hne
  | command hm w i _ _ _ ht => exact .inr (.inr ⟨hm, exec_act_ne (s := s.beginMove.popAccess) ht hne⟩)
  | illegal _ w e _ _ _ ht => cases ht; exact absurd rfl hne
  | boundary hm _ ht => cases ht; exact .inl ⟨hm, s.beginMove.boundary_act⟩
  | rst hm _ => exact .inr (.inl hm)

/-! The overrun faults (R195). -/

/-- Settles O51: both clauses are parts of the invariant, which every reachable state meets. -/
theorem overrunFaultsNotReached : Obligations.OverrunFaultsNotReached := fun _ h =>
  ⟨h.inv.noOverrun, h.inv.deadline⟩

end Sys2Proof.Machine

/-! The packets of the host encoder (R160 to R167): what a builder answers, and which cell stands where in its packet. -/

namespace Sys2Proof.Machine

/-! Cells (R160, R161): which widths give a cell, and that a cell so given is valid. -/

/-- The cell of a one width (R161): the pulse is half the scaled width. -/
def halfCell (cfg : Config) (one : Nat) : BitCell :=
  ⟨BitVec.ofNat 32 (one * cfg.ticksPerUs), BitVec.ofNat 32 (one * cfg.ticksPerUs / 2), cfg.encRepeat⟩

theorem oneCell_eq_halfCell {cfg : Config} {one : Nat} (h : scales cfg one) : oneCell cfg one = .ok (halfCell cfg one) :=
  oneCell_ok h

theorem scales_of_oneCell {cfg : Config} {one : Nat} {c : BitCell} (h : oneCell cfg one = .ok c) : scales cfg one := by
  by_contra hn
  cases (oneCell_error hn).symm.trans h

theorem shapes_of_shapeCell {cfg : Config} {total half : Nat} {c : BitCell} (h : shapeCell cfg total half = .ok c) :
    shapes cfg total half := by
  by_contra hn
  cases (shapeCell_error hn).symm.trans h

theorem buildPreamble_ok {cfg : Config} {one : Nat} (count : Nat) (h : scales cfg one) :
    buildPreamble cfg count one = .ok (List.replicate count (halfCell cfg one)) := by
  unfold buildPreamble
  rw [oneCell_eq_halfCell h]

theorem validCell_halfCell {cfg : Config} {one : Nat} (h : scales cfg one) : validCell (halfCell cfg one) = true :=
  validCell_ticks h ((BitVec.toNat_ofNat _ _).trans_le ((Nat.mod_le _ _).trans (Nat.div_le_self _ _)))

theorem validCell_tickCell {cfg : Config} {total half : Nat} (h : shapes cfg total half) :
    validCell (tickCell cfg total half) = true := by
  obtain ⟨htotal, hhalf, hle⟩ := h
  exact validCell_ticks htotal ((toNat_ticks hhalf).trans_le hle)

/-! The frame every packet has (R163, R164): a preamble of one-cells, a gap, and then its body. -/

/-- A packet of the one-cell and zero-cell given: the preamble, its gap, and the body. -/
def packetOf (one zero : BitCell) (body : List BitCell) : List BitCell :=
  List.replicate preambleLen one ++ zero :: body

@[simp] theorem packetOf_length (one zero : BitCell) (body : List BitCell) :
    (packetOf one zero body).length = 19 + body.length := by
  simp [packetOf, preambleLen]
  omega

theorem packetOf_preamble {one zero : BitCell} {body : List BitCell} {i : Nat} (h : i < 18) :
    (packetOf one zero body)[i]? = some one := by
  have hi : i < (List.replicate preambleLen one).length := by simpa [preambleLen] using h
  rw [packetOf, List.getElem?_append_left hi, List.getElem?_eq_getElem hi, List.getElem_replicate]

@[simp] theorem packetOf_gap (one zero : BitCell) (body : List BitCell) : (packetOf one zero body)[18]? = some zero := by
  simp [packetOf, preambleLen]

@[simp] theorem packetOf_body (one zero : BitCell) (body : List BitCell) (k : Nat) :
    (packetOf one zero body)[19 + k]? = body[k]? := by
  rw [packetOf, List.getElem?_append_right (by simp [preambleLen]; omega), List.length_replicate,
    show 19 + k - preambleLen = k + 1 by unfold preambleLen; omega, List.getElem?_cons_succ]

theorem packetOf_mem {one zero c : BitCell} {body : List BitCell} (h : c ∈ packetOf one zero body) :
    c = one ∨ c = zero ∨ c ∈ body := by
  rcases List.mem_append.mp h with h | h
  · exact .inl (List.eq_of_mem_replicate h)
  · exact .inr (List.mem_cons.mp h)

/-- A packet whose widths are cells is valid if its body is. -/
theorem packetOf_valid {cfg : Config} {w : Widths} {body : List BitCell} (hone : scales cfg w.one)
    (hzero : shapes cfg w.zeroTotal w.zeroHalf)
    (hbody : ∀ c ∈ body, c = halfCell cfg w.one ∨ c = tickCell cfg w.zeroTotal w.zeroHalf ∨ validCell c = true) :
    ∀ c ∈ packetOf (halfCell cfg w.one) (tickCell cfg w.zeroTotal w.zeroHalf) body, validCell c = true := by
  intro c hc
  have hcase : c = halfCell cfg w.one ∨ c = tickCell cfg w.zeroTotal w.zeroHalf ∨ validCell c = true := by
    rcases packetOf_mem hc with h | h | h
    · exact .inl h
    · exact .inr (.inl h)
    · exact hbody c h
  rcases hcase with rfl | rfl | hv
  · exact validCell_halfCell hone
  · exact validCell_tickCell hzero
  · exact hv

/-! buildPacket and buildPacketRepeatedByte (R164, R165). -/

/-- The cells of `buildPacket` where it builds a packet (R164). -/
def packetCells (cfg : Config) (bytes : List Byte) (w : Widths) : List BitCell :=
  packetOf (halfCell cfg w.one) (tickCell cfg w.zeroTotal w.zeroHalf)
    (byteCells (halfCell cfg w.one) (tickCell cfg w.zeroTotal w.zeroHalf) bytes)

theorem buildPacket_invalidLength {cfg : Config} {bytes : List Byte} {w : Widths}
    (h : bytes.length < 1 ∨ 6 < bytes.length) : buildPacket cfg bytes w = .error .invalidLength :=
  if_pos h

theorem buildPacket_ok {cfg : Config} {bytes : List Byte} {w : Widths} (hlo : 1 ≤ bytes.length) (hhi : bytes.length ≤ 6)
    (hone : scales cfg w.one) (hzero : shapes cfg w.zeroTotal w.zeroHalf) :
    buildPacket cfg bytes w = .ok (packetCells cfg bytes w) := by
  unfold buildPacket zeroCell
  rw [if_neg (by unfold maxBytes; omega), buildPreamble_ok _ hone, oneCell_eq_halfCell hone, shapeCell_ok hzero]
  rfl

theorem buildPacket_invalidCell {cfg : Config} {bytes : List Byte} {w : Widths} (hlo : 1 ≤ bytes.length)
    (hhi : bytes.length ≤ 6) (h : ¬ (scales cfg w.one ∧ shapes cfg w.zeroTotal w.zeroHalf)) :
    buildPacket cfg bytes w = .error .invalidCell := by
  unfold buildPacket
  rw [if_neg (by unfold maxBytes; omega)]
  split
  · next hone hzero => exact absurd ⟨scales_of_oneCell hone, shapes_of_shapeCell hzero⟩ h
  · rfl

/-- The only packet `buildPacket` can give. -/
theorem eq_packetCells_of_buildPacket {cfg : Config} {bytes : List Byte} {w : Widths} {cells : List BitCell}
    (h : buildPacket cfg bytes w = .ok cells) : cells = packetCells cfg bytes w := by
  by_cases hlen : bytes.length < 1 ∨ 6 < bytes.length
  · cases (buildPacket_invalidLength hlen).symm.trans h
  · have hlo : 1 ≤ bytes.length := by omega
    have hhi : bytes.length ≤ 6 := by omega
    by_cases hw : scales cfg w.one ∧ shapes cfg w.zeroTotal w.zeroHalf
    · exact (Except.ok.inj ((buildPacket_ok hlo hhi hw.1 hw.2).symm.trans h)).symm
    · cases (buildPacket_invalidCell hlo hhi hw).symm.trans h

theorem packetCells_length (cfg : Config) (bytes : List Byte) (w : Widths) :
    (packetCells cfg bytes w).length = 19 + 9 * bytes.length := by
  simp [packetCells]

theorem packetCells_valid {cfg : Config} {bytes : List Byte} {w : Widths} (hone : scales cfg w.one)
    (hzero : shapes cfg w.zeroTotal w.zeroHalf) : ∀ c ∈ packetCells cfg bytes w, validCell c = true :=
  packetOf_valid hone hzero fun _ hc => (byteCells_mem hc).imp_right .inl

/-- The nine cells of byte `j`: its bits and a gap. -/
theorem byteCells_getElem? {one zero : BitCell} {bs : List Byte} {j k : Nat} {b : Byte} (hj : bs[j]? = some b)
    (hk : k < 9) : (byteCells one zero bs)[9 * j + k]? = (bitCells b 0 one zero ++ [zero])[k]? := by
  induction bs generalizing j with
  | nil => simp at hj
  | cons d ds ih =>
    have hsplit : byteCells one zero (d :: ds) = (bitCells d 0 one zero ++ [zero]) ++ byteCells one zero ds := by
      simp [byteCells]
    rw [hsplit]
    cases j with
    | zero =>
      cases hj
      rw [Nat.mul_zero, Nat.zero_add, List.getElem?_append_left (by simpa using hk)]
    | succ j =>
      rw [List.getElem?_append_right (by simp; omega), ← ih (j := j) (by simpa using hj)]
      congr 1
      simp
      omega

theorem byteCells_bit {one zero : BitCell} {bs : List Byte} {j k : Nat} {b : Byte} (hj : bs[j]? = some b) (hk : k < 8) :
    (byteCells one zero bs)[9 * j + k]? = if b.getLsbD k = true then some one else some zero := by
  rw [byteCells_getElem? hj (by omega), List.getElem?_append_left (by simpa using hk),
    bitCells_getElem? one zero (by omega), Nat.zero_add, apply_ite some]

theorem byteCells_gap {one zero : BitCell} {bs : List Byte} {j : Nat} {b : Byte} (hj : bs[j]? = some b) :
    (byteCells one zero bs)[9 * j + 8]? = some zero := by
  rw [byteCells_getElem? hj (by omega)]
  simp

/-- Settles O53: by the check that fails first, the length's or a cell's, and else by the packet built. -/
theorem buildPacketSucceedsOrNamesError : Obligations.BuildPacketSucceedsOrNamesError := by
  intro cfg bytes w
  refine ⟨buildPacket_invalidLength, buildPacket_invalidCell, fun hlo hhi hone htotal hhalf hle => ?_⟩
  have hzero : shapes cfg w.zeroTotal w.zeroHalf := ⟨htotal, hhalf, hle⟩
  have hlen := packetCells_length cfg bytes w
  exact ⟨_, buildPacket_ok hlo hhi hone hzero, hlen, lengthOk_iff.mpr (by omega), packetCells_valid hone hzero⟩

/-- Settles O54: the packet built is the frame of R164 around nine cells for each byte. -/
theorem packetCellsFollowTheBits : Obligations.PacketCellsFollowTheBits := by
  intro cfg bytes w cells h
  rw [eq_packetCells_of_buildPacket h, packetCells]
  refine ⟨fun i => packetOf_preamble, packetOf_gap .., fun j b hj => ⟨fun k hk => ?_, ?_⟩⟩
  · rw [Nat.add_assoc, packetOf_body, byteCells_bit hj hk, packetOf_preamble (by omega), packetOf_gap]
  · rw [Nat.add_assoc, packetOf_body, byteCells_gap hj, packetOf_gap]

/-- Settles O55: the count is checked as `buildPacket` checks its length. -/
theorem repeatedByteIsThePacket : Obligations.RepeatedByteIsThePacket :=
  fun _ _ _ _ => ⟨fun h => if_pos h, fun hlo hhi => if_neg (by unfold maxBytes; omega)⟩

/-! The packets of one byte with stretched zeros (R166, R167). -/

/-- The cells of a packet of one byte whose first bit positions are stretched, where it is built (R166, R167). -/
def stretchedCells (cfg : Config) (b : Byte) (w : Widths) (stretches : List Stretch) : List BitCell :=
  packetOf (halfCell cfg w.one) (tickCell cfg w.zeroTotal w.zeroHalf)
    (stretches.map (fun st => tickCell cfg st.total st.half) ++
      (bitCells b stretches.length (halfCell cfg w.one) (tickCell cfg w.zeroTotal w.zeroHalf) ++
        [tickCell cfg w.zeroTotal w.zeroHalf]))

theorem buildPacketWithStretchedZero1_ok {cfg : Config} {w : Widths} {s1 : Stretch} (b : Byte) (hone : scales cfg w.one)
    (hzero : shapes cfg w.zeroTotal w.zeroHalf) (h1 : shapes cfg s1.total s1.half) :
    buildPacketWithStretchedZero1 cfg b w s1 = .ok (stretchedCells cfg b w [s1]) := by
  unfold buildPacketWithStretchedZero1 zeroCell stretchCell
  rw [buildPreamble_ok _ hone, oneCell_eq_halfCell hone, shapeCell_ok hzero, shapeCell_ok h1]
  rfl

theorem buildPacketWithStretchedZero2_ok {cfg : Config} {w : Widths} {s1 s2 : Stretch} (b : Byte)
    (hone : scales cfg w.one) (hzero : shapes cfg w.zeroTotal w.zeroHalf) (h1 : shapes cfg s1.total s1.half)
    (h2 : shapes cfg s2.total s2.half) :
    buildPacketWithStretchedZero2 cfg b w s1 s2 = .ok (stretchedCells cfg b w [s1, s2]) := by
  unfold buildPacketWithStretchedZero2 zeroCell stretchCell
  rw [buildPreamble_ok _ hone, oneCell_eq_halfCell hone, shapeCell_ok hzero, shapeCell_ok h1, shapeCell_ok h2]
  rfl

theorem buildPacketWithStretchedZero1_invalidCell {cfg : Config} {w : Widths} {s1 : Stretch} (b : Byte)
    (h : ¬ (scales cfg w.one ∧ shapes cfg w.zeroTotal w.zeroHalf ∧ shapes cfg s1.total s1.half)) :
    buildPacketWithStretchedZero1 cfg b w s1 = .error .invalidCell := by
  unfold buildPacketWithStretchedZero1
  split
  · next hone hzero h1 =>
    exact absurd ⟨scales_of_oneCell hone, shapes_of_shapeCell hzero, shapes_of_shapeCell h1⟩ h
  · rfl

theorem buildPacketWithStretchedZero2_invalidCell {cfg : Config} {w : Widths} {s1 s2 : Stretch} (b : Byte)
    (h : ¬ (scales cfg w.one ∧ shapes cfg w.zeroTotal w.zeroHalf ∧ shapes cfg s1.total s1.half ∧
      shapes cfg s2.total s2.half)) :
    buildPacketWithStretchedZero2 cfg b w s1 s2 = .error .invalidCell := by
  unfold buildPacketWithStretchedZero2
  split
  · next hone hzero h1 h2 =>
    exact absurd ⟨scales_of_oneCell hone, shapes_of_shapeCell hzero, shapes_of_shapeCell h1, shapes_of_shapeCell h2⟩ h
  · rfl

theorem eq_stretchedCells_of_stretchedZero1 {cfg : Config} {b : Byte} {w : Widths} {s1 : Stretch} {cells : List BitCell}
    (h : buildPacketWithStretchedZero1 cfg b w s1 = .ok cells) : cells = stretchedCells cfg b w [s1] := by
  by_cases hs : scales cfg w.one ∧ shapes cfg w.zeroTotal w.zeroHalf ∧ shapes cfg s1.total s1.half
  · obtain ⟨hone, hzero, h1⟩ := hs
    exact (Except.ok.inj ((buildPacketWithStretchedZero1_ok b hone hzero h1).symm.trans h)).symm
  · cases (buildPacketWithStretchedZero1_invalidCell b hs).symm.trans h

theorem eq_stretchedCells_of_stretchedZero2 {cfg : Config} {b : Byte} {w : Widths} {s1 s2 : Stretch}
    {cells : List BitCell} (h : buildPacketWithStretchedZero2 cfg b w s1 s2 = .ok cells) :
    cells = stretchedCells cfg b w [s1, s2] := by
  by_cases hs : scales cfg w.one ∧ shapes cfg w.zeroTotal w.zeroHalf ∧ shapes cfg s1.total s1.half ∧
      shapes cfg s2.total s2.half
  · obtain ⟨hone, hzero, h1, h2⟩ := hs
    exact (Except.ok.inj ((buildPacketWithStretchedZero2_ok b hone hzero h1 h2).symm.trans h)).symm
  · cases (buildPacketWithStretchedZero2_invalidCell b hs).symm.trans h

theorem stretchedCells_length (cfg : Config) (b : Byte) (w : Widths) {stretches : List Stretch}
    (h : stretches.length ≤ 8) : (stretchedCells cfg b w stretches).length = 28 := by
  simp [stretchedCells]
  omega

theorem stretchedCells_valid {cfg : Config} {w : Widths} {stretches : List Stretch} (b : Byte) (hone : scales cfg w.one)
    (hzero : shapes cfg w.zeroTotal w.zeroHalf) (hst : ∀ st ∈ stretches, shapes cfg st.total st.half) :
    ∀ c ∈ stretchedCells cfg b w stretches, validCell c = true := by
  refine packetOf_valid hone hzero fun c hc => ?_
  rcases List.mem_append.mp hc with hc | hc
  · obtain ⟨st, hmem, rfl⟩ := List.mem_map.mp hc
    exact .inr (.inr (validCell_tickCell (hst st hmem)))
  · rcases List.mem_append.mp hc with hc | hc
    · exact (bitCells_mem hc).imp_right .inl
    · exact .inr (.inl (List.mem_singleton.mp hc))

/-- The layout of R166 and R167, for any number of stretched positions of the byte. -/
theorem stretchedCells_layout (cfg : Config) (b : Byte) (w : Widths) {stretches : List Stretch}
    (h : stretches.length ≤ 8) : StretchedLayout cfg b w stretches (stretchedCells cfg b w stretches) where
  length := stretchedCells_length cfg b w h
  preamble _ := packetOf_preamble
  gap := packetOf_gap ..
  stretched k st hk := by
    have hlt : k < stretches.length := (List.getElem?_eq_some_iff.mp hk).1
    rw [stretchedCells, packetOf_body, List.getElem?_append_left (by simpa using hlt), List.getElem?_map, hk]
    rfl
  bits k hlo hhi := by
    rw [stretchedCells, packetOf_body, List.getElem?_append_right (by simpa using hlo),
      List.getElem?_append_left (by simp; omega), bitCells_getElem? _ _ (by simp; omega), packetOf_gap,
      packetOf_preamble (by omega), List.length_map, Nat.add_sub_cancel' hlo, apply_ite some]
  lastGap := by
    rw [stretchedCells, packetOf_gap, show 27 = 19 + 8 from rfl, packetOf_body,
      List.getElem?_append_right (by simpa using h), List.getElem?_append_right (by simp)]
    simp

/-- Only the bits from position `p` on are examined (R162). -/
theorem bitCells_congr {b b' : Byte} {p : Nat} (h : ∀ k, p ≤ k → k < 8 → b.getLsbD k = b'.getLsbD k)
    (one zero : BitCell) : bitCells b p one zero = bitCells b' p one zero := by
  refine List.map_congr_left fun k hk => ?_
  obtain ⟨hlo, hhi⟩ := List.mem_range'_1.mp hk
  rw [h k hlo (by omega)]

/-- Settles O56: by the check of the cells, and else by the packet built. -/
theorem stretchedPacketsSucceedOrNameError : Obligations.StretchedPacketsSucceedOrNameError := by
  intro cfg b w s1 s2
  refine ⟨fun hone hzero h1 => ⟨?_, fun h2 => ?_⟩, buildPacketWithStretchedZero1_invalidCell b,
    buildPacketWithStretchedZero2_invalidCell b⟩
  · have hlen := stretchedCells_length cfg b w (stretches := [s1]) (by simp)
    exact ⟨_, buildPacketWithStretchedZero1_ok b hone hzero h1, lengthOk_iff.mpr (by omega),
      stretchedCells_valid b hone hzero (by simpa using h1)⟩
  · have hlen := stretchedCells_length cfg b w (stretches := [s1, s2]) (by simp)
    exact ⟨_, buildPacketWithStretchedZero2_ok b hone hzero h1 h2, lengthOk_iff.mpr (by omega),
      stretchedCells_valid b hone hzero (by simpa using ⟨h1, h2⟩)⟩

/-- Settles O57: the byte enters a stretched packet through its bits above the stretched positions only, and the packet
built has the layout of R166 and R167. -/
theorem stretchedBitsNotExamined : Obligations.StretchedBitsNotExamined := by
  refine fun cfg b b' w s1 s2 => ⟨fun h => ?_, fun h => ?_, fun cells h => ?_, fun cells h => ?_⟩
  · unfold buildPacketWithStretchedZero1
    simp only [bitCells_congr h]
  · unfold buildPacketWithStretchedZero2
    simp only [bitCells_congr h]
  · rw [eq_stretchedCells_of_stretchedZero1 h]
    exact stretchedCells_layout cfg b w (by simp)
  · rw [eq_stretchedCells_of_stretchedZero2 h]
    exact stretchedCells_layout cfg b w (by simp)

end Sys2Proof.Machine

/-! The timer's turn (R201): the reload boundary where it is enabled, and else nothing but the turn used up. -/

namespace Sys2Proof.Machine

theorem step_timer {s : State} (hm : s.nextMove = .timer) :
    step s = if s.boundaryEnabled then .next s.beginMove.boundary else .next s.beginMove := by
  rw [step, hm]
  rfl

theorem State.boundaryEnabled_iff {s : State} :
    s.boundaryEnabled = true ↔ s.trackEn = true ∧ (s.cfg.assumeDeadline = false ∨ s.evtPending = false) := by
  simp [State.boundaryEnabled]

theorem State.boundary_of_not_pending {s : State} (h : s.evtPending = false) : s.boundary = s.reload.raiseEvent := by
  simp [State.boundary, h]

theorem State.boundary_of_pending {s : State} (h : s.evtPending = true) :
    s.boundary = s.reload.raiseFault .eventOverrun :=
  if_pos h

theorem step_timer_of_not_enabled {s : State} (hm : s.nextMove = .timer)
    (h : s.trackEn = false ∨ (s.cfg.assumeDeadline = true ∧ s.evtPending = true)) : step s = .next s.beginMove := by
  refine (step_timer hm).trans (if_neg fun hen => ?_)
  obtain ⟨htrack, hfree⟩ := State.boundaryEnabled_iff.mp hen
  rcases h with hoff | ⟨hd, hp⟩
  · simp [hoff] at htrack
  · simp [hd, hp] at hfree

theorem step_timer_of_enabled {s : State} (hm : s.nextMove = .timer) (htrack : s.trackEn = true)
    (hfree : s.cfg.assumeDeadline = false ∨ s.evtPending = false) : step s = .next s.beginMove.boundary :=
  (step_timer hm).trans (if_pos (State.boundaryEnabled_iff.mpr ⟨htrack, hfree⟩))

/-- Settles O42: a boundary that is enabled reloads, and then raises the event, or the overrun with one pending. -/
theorem boundaryReloadsAndRaises : Obligations.BoundaryReloadsAndRaises := by
  refine fun s hm => ⟨step_timer_of_not_enabled hm, fun htrack hp => ?_, fun htrack hp hd => ?_⟩
  · rw [step_timer_of_enabled hm htrack (.inr hp), State.boundary_of_not_pending (s := s.beginMove) hp]
    rfl
  · rw [step_timer_of_enabled hm htrack (.inl hd), State.boundary_of_pending (s := s.beginMove) hp]
    rfl

/-! The end of a run (R215, R217). -/

theorem State.runOver_iff {s : State} :
    s.runOver = true ↔ s.idlePolicy = .disable ∧ s.trackEn = false ∧ s.evtPending = false ∧
      s.pktComplete = true ∧ s.fault = 0 ∧ s.host = [] := by
  simp [State.runOver, State.quiescent, State.failed, State.halted, and_assoc]

/-- The host's turn with no access left (R64). -/
theorem step_host_of_no_access {s : State} (hm : s.nextMove = .host) (hs : s.host = []) : step s = .next s.beginMove := by
  simp [step, hm, runMove, hostMove, hs]

/-- Settles O45: no event is pending for the scheduler, the timer is off, and the host has no access left. -/
theorem endedRunStaysEnded : Obligations.EndedRunStaysEnded := by
  refine ⟨fun s => State.runOver_iff, fun s hover hr => ?_⟩
  obtain ⟨-, htrack, hevent, -, -, hhost⟩ := State.runOver_iff.mp hover
  cases hm : s.nextMove with
  | sched => exact schedulerMoveNeedsEvent s hm (.inl hevent)
  | host => exact step_host_of_no_access hm hhost
  | timer => exact step_timer_of_not_enabled hm (.inl htrack)
  | rst => exact absurd hm hr

end Sys2Proof.Machine

/-! The scope trigger within a packet (R134, R247). -/

namespace Sys2Proof.Machine

/-- A count from `m` down reaches 1 after `m - 1` steps, and within one round of the word only then. -/
theorem sub_ofNat_eq_one_iff (m : Word) {j : Nat} (hj : j + 1 < 2 ^ 32) :
    m - BitVec.ofNat 32 j = 1 ↔ j + 1 = m.toNat := by
  bv_omega

/-- Settles O39: after `j` steps within the packet the counter is `j` below the offset, and the trigger is the count of 1. -/
theorem scopeTriggerMarksOneCell : Obligations.ScopeTriggerMarksOneCell := by
  rintro s sl n start j hold - hcur rfl hscope - hj
  obtain ⟨t, hsteps, hmoves, -, hcell, -⟩ := hold.schedSteps_playCell hcur hj
  have hfits : n < 80 := hold.fits
  refine ⟨t.playCell, hsteps, t.playCell_tmr.trans hcell, ?_⟩
  rw [State.playCell_dbgOut_iff, hmoves.scopeCnt, hscope, sub_ofNat_eq_one_iff _ (by omega)]
  omega

end Sys2Proof.Machine

/-! Reset (R230): what it leaves, and that it is CONFIGURE(DISABLE) with STAGE, RESULT and FAULT cleared. -/

namespace Sys2Proof.Machine

/-- The idle buffer as reset and CONFIGURE build it holds `IDLE_CELLS`, and past their end the default cell (R23). -/
theorem idleImage_read_eq_getD (cfg : Config) {i : Nat} (hi : i < idleCap) :
    (idleImage cfg).read i = cfg.idleCells.getD i BitCell.zero := by
  rw [idleImage_read_of_lt cfg hi, ite_eq_left_iff]
  exact fun hlen => (List.getD_eq_default _ _ (Nat.le_of_not_lt hlen)).symm

/-- R230 on any platform, whatever stands outside the block. -/
theorem State.resetWith_atReset (cfg : Config) (act : BitCell) (k : Nat) (rdata : Word) (host : List Access)
    (agenda : List Move) :
    State.AtReset { State.resetWith cfg act k with busRdata := rdata, host := host, agenda := agenda } where
  slots sl i := by cases sl <;> rfl
  idlePacket _ hi := idleImage_read_eq_getD cfg hi
  staged _ := rfl
  cursor := ⟨rfl, rfl⟩
  scope := rfl
  complete := rfl
  track := rfl
  trigger := rfl
  event := rfl
  policy := rfl
  result := rfl
  fault := rfl
  timer := rfl
  written := rfl

theorem State.resetBlock_atReset (s : State) : s.resetBlock.AtReset :=
  State.resetWith_atReset s.cfg (Config.freeCell s.freeIdx) (s.freeIdx + 1) s.busRdata s.host s.agenda

theorem step_rst {s : State} (hm : s.nextMove = .rst) : step s = .next s.beginMove.resetBlock := by
  rw [step, hm]
  rfl

/-- Settles O44: the reset step is `resetBlock`, whose elements are read off `resetWith` as those of `State.reset` are; the
updates of CONFIGURE leave the same values. -/
theorem resetRestoresEveryElement : Obligations.ResetRestoresEveryElement :=
  ⟨fun s hm => ⟨_, _, step_rst hm, s.beginMove.resetBlock_atReset, rfl, rfl⟩,
    State.resetWith_atReset Config.platform (Config.freeCell 0) 1 0 [] []⟩

end Sys2Proof.Machine
